-- ==== Sys2Proof/Syntax.lean ====
section
/-! DEFINITION. The 22 commands of DMR-CMD version 1, one constructor per row of spec/opcode_table.json
(30_encoding.md R94). The fields are the unit index `u` and the immediate `imm`, unsigned integers (R92). -/

namespace Sys2Proof

inductive Instr where
  /-- `ENG.NEW` (R243) -/
  | engNew
  /-- `FIR.NEW u, len` (R121) -/
  | firNew (u len : Nat)
  /-- `FIR.PROC u` (R122) -/
  | firProc (u : Nat)
  /-- `OVS.UP o` (R131) -/
  | ovsUp (o : Nat)
  /-- `OVS.DN o` (R132) -/
  | ovsDn (o : Nat)
  /-- `OVS.PROC o, fn` (R133) -/
  | ovsProc (o fn : Nat)
  /-- `WS.RAT` (R142) -/
  | wsRat
  /-- `WS.DIODE` (R144) -/
  | wsDiode
  /-- `AFS.COEF u` (R154) -/
  | afsCoef (u : Nat)
  /-- `AFS.STEP u` (R155) -/
  | afsStep (u : Nat)
  /-- `AFS.PROC u` (R157) -/
  | afsProc (u : Nat)
  /-- `OPF.PROC u` (R171) -/
  | opfProc (u : Nat)
  /-- `RMP.SET u` (R181) -/
  | rmpSet (u : Nat)
  /-- `RMP.STEP u` (R182) -/
  | rmpStep (u : Nat)
  /-- `RMP.PROC u` (R183) -/
  | rmpProc (u : Nat)
  /-- `RMP.INIT u` (R184) -/
  | rmpInit (u : Nat)
  /-- `EXS.PROC u` (R186) -/
  | exsProc (u : Nat)
  /-- `EXS.INIT u` (R187) -/
  | exsInit (u : Nat)
  /-- `DLY.WR u` (R201) -/
  | dlyWr (u : Nat)
  /-- `DLY.RD u, mode` (R203) -/
  | dlyRd (u mode : Nat)
  /-- `RPT.PROC u, count` (R218) -/
  | rptProc (u count : Nat)
  /-- `RPT.INIT u, count` (R221) -/
  | rptInit (u count : Nat)
  deriving DecidableEq, Repr

/-- The unit index of a command; 0 for the commands of format Z, whose `u` must be 0 (R91). -/
def Instr.unitIndex : Instr → Nat
  | .engNew => 0
  | .firNew u _ => u
  | .firProc u => u
  | .ovsUp o => o
  | .ovsDn o => o
  | .ovsProc o _ => o
  | .wsRat => 0
  | .wsDiode => 0
  | .afsCoef u => u
  | .afsStep u => u
  | .afsProc u => u
  | .opfProc u => u
  | .rmpSet u => u
  | .rmpStep u => u
  | .rmpProc u => u
  | .rmpInit u => u
  | .exsProc u => u
  | .exsInit u => u
  | .dlyWr u => u
  | .dlyRd u _ => u
  | .rptProc u _ => u
  | .rptInit u _ => u

/-- The immediate of a command; 0 for the formats Z and U, whose `imm` must be 0 (R91). -/
def Instr.imm : Instr → Nat
  | .engNew => 0
  | .firNew _ len => len
  | .firProc _ => 0
  | .ovsUp _ => 0
  | .ovsDn _ => 0
  | .ovsProc _ fn => fn
  | .wsRat => 0
  | .wsDiode => 0
  | .afsCoef _ => 0
  | .afsStep _ => 0
  | .afsProc _ => 0
  | .opfProc _ => 0
  | .rmpSet _ => 0
  | .rmpStep _ => 0
  | .rmpProc _ => 0
  | .rmpInit _ => 0
  | .exsProc _ => 0
  | .exsInit _ => 0
  | .dlyWr _ => 0
  | .dlyRd _ mode => mode
  | .rptProc _ count => count
  | .rptInit _ count => count

end Sys2Proof
end

