-- ==== Sys2Proof/WellFormed.lean ====
section
/-! DEFINITION. When a command can be written as a word: its fields fit the places 30_encoding.md R91 gives
them. Whether its fields are LEGAL for a configuration (R92) is a check of the running core, `fieldCheck`. -/

namespace Sys2Proof

/-- `u` fits bits 23:16 (R91). -/
def Instr.unitFits (i : Instr) : Bool := i.unitIndex < 2 ^ 8

/-- `imm` fits bits 15:0 (R91). -/
def Instr.immFits (i : Instr) : Bool := i.imm < 2 ^ 16

/-- The command has an encoding (R91). -/
def Instr.wellFormed (i : Instr) : Bool := i.unitFits && i.immFits

end Sys2Proof
end

