-- ==== Sys2Proof/Word.lean ====
section
/-! DEFINITION. The word type of the core and the plain names for what is made of words. -/

namespace Sys2Proof

/-- A 32-bit word: a command, a port register, one element of a scalar space (00_scope.md R9, R10). -/
abbrev Word := BitVec 32

/-- A word read as an IEEE 754 binary32 value (00_scope.md R11). -/
abbrev F32 := Word

/-- The lanes of one `SimdVector`, lane 0 first (10_state.md R21). -/
abbrev Lanes := List F32

/-- The place a NaN is drawn at: a path of numbers, the last one taken from `State.draws` (log 4). -/
abbrev Draw := List Nat

end Sys2Proof
end

