-- ==== Sys2Proof/Decode.lean ====
section
/-! DEFINITION. The command word (30_encoding.md R90 to R96): the opcode map, the decoder (steps 1 and 2 of
R95, which need no configuration), and the encoder. Steps 3 and 4 of R95, the range checks on `u` and `imm`,
depend on CFG and are `Machine.fieldCheck`. -/

namespace Sys2Proof

/-- Why a word is no command (R95, R96). Every one of them is `E_ILLEGAL` to the running core. -/
inductive DecodeError where
  /-- `opc` is in no row of the opcode map (R96) -/
  | reservedOpcode
  /-- format Z with `bits[23:0]` nonzero, or format U with `bits[15:0]` nonzero (R95 step 2) -/
  | mustBeZero
  deriving DecidableEq, Repr

/-- What an opcode's row of R94 makes of the fields: format Z, U or UI (R91). -/
inductive Shape where
  | z (i : Instr)
  | u (mk : Nat → Instr)
  | ui (mk : Nat → Nat → Instr)

/-- `bits[31:24]` (R92). -/
def opcField (w : Word) : Nat := w.toNat / 2 ^ 24

/-- `bits[23:16]` (R92). -/
def unitField (w : Word) : Nat := w.toNat / 2 ^ 16 % 2 ^ 8

/-- `bits[15:0]` (R92). -/
def immField (w : Word) : Nat := w.toNat % 2 ^ 16

/-- The opcode map (R94); `none` is a reserved opcode (R96). -/
def shapeOf (opc : Nat) : Option Shape :=
  match opc with
  | 0x01 => some (.z .engNew)
  | 0x10 => some (.ui .firNew)
  | 0x11 => some (.u .firProc)
  | 0x18 => some (.u .ovsUp)
  | 0x19 => some (.u .ovsDn)
  | 0x1A => some (.ui .ovsProc)
  | 0x20 => some (.z .wsRat)
  | 0x21 => some (.z .wsDiode)
  | 0x28 => some (.u .afsCoef)
  | 0x29 => some (.u .afsStep)
  | 0x2A => some (.u .afsProc)
  | 0x30 => some (.u .opfProc)
  | 0x38 => some (.u .rmpSet)
  | 0x39 => some (.u .rmpStep)
  | 0x3A => some (.u .rmpProc)
  | 0x3B => some (.u .rmpInit)
  | 0x3C => some (.u .exsProc)
  | 0x3D => some (.u .exsInit)
  | 0x40 => some (.u .dlyWr)
  | 0x41 => some (.ui .dlyRd)
  | 0x48 => some (.ui .rptProc)
  | 0x49 => some (.ui .rptInit)
  | _ => none

/-- R95 steps 1 and 2: total on every 32-bit word. -/
def decode (w : Word) : Except DecodeError Instr :=
  match shapeOf (opcField w) with
  | none => .error .reservedOpcode
  | some (.z i) => if unitField w = 0 ∧ immField w = 0 then .ok i else .error .mustBeZero
  | some (.u mk) => if immField w = 0 then .ok (mk (unitField w)) else .error .mustBeZero
  | some (.ui mk) => .ok (mk (unitField w) (immField w))

/-- The opcode of a command (R94). -/
def opcodeOf : Instr → Nat
  | .engNew => 0x01
  | .firNew _ _ => 0x10
  | .firProc _ => 0x11
  | .ovsUp _ => 0x18
  | .ovsDn _ => 0x19
  | .ovsProc _ _ => 0x1A
  | .wsRat => 0x20
  | .wsDiode => 0x21
  | .afsCoef _ => 0x28
  | .afsStep _ => 0x29
  | .afsProc _ => 0x2A
  | .opfProc _ => 0x30
  | .rmpSet _ => 0x38
  | .rmpStep _ => 0x39
  | .rmpProc _ => 0x3A
  | .rmpInit _ => 0x3B
  | .exsProc _ => 0x3C
  | .exsInit _ => 0x3D
  | .dlyWr _ => 0x40
  | .dlyRd _ _ => 0x41
  | .rptProc _ _ => 0x48
  | .rptInit _ _ => 0x49

/-- `{opc, u, imm}` as one word (R91). A field that does not fit keeps its low bits. -/
def packWord (opc u imm : Nat) : Word :=
  BitVec.ofNat 32 (opc * 2 ^ 24 + u % 2 ^ 8 * 2 ^ 16 + imm % 2 ^ 16)

/-- The word of a command (R91, R94). -/
def encode (i : Instr) : Word := packWord (opcodeOf i) i.unitIndex i.imm

/-- One row of R94: a word matches it when `(CMD & mask) == match` (R91). -/
structure OpcodeRow where
  mnemonic : String
  pattern : Word
  mask : Word
  deriving DecidableEq, Repr

/-- The mask of a format (R91). -/
def maskZ : Word := 0xFFFFFFFF

/-- The mask of format U (R91). -/
def maskU : Word := 0xFF00FFFF

/-- The mask of format UI (R91). -/
def maskUI : Word := 0xFF000000

/-- The complete opcode map as rows of match and mask (R94). -/
def opcodeRows : List OpcodeRow :=
  [⟨"ENG.NEW", 0x01000000, maskZ⟩, ⟨"FIR.NEW", 0x10000000, maskUI⟩, ⟨"FIR.PROC", 0x11000000, maskU⟩,
   ⟨"OVS.UP", 0x18000000, maskU⟩, ⟨"OVS.DN", 0x19000000, maskU⟩, ⟨"OVS.PROC", 0x1A000000, maskUI⟩,
   ⟨"WS.RAT", 0x20000000, maskZ⟩, ⟨"WS.DIODE", 0x21000000, maskZ⟩, ⟨"AFS.COEF", 0x28000000, maskU⟩,
   ⟨"AFS.STEP", 0x29000000, maskU⟩, ⟨"AFS.PROC", 0x2A000000, maskU⟩, ⟨"OPF.PROC", 0x30000000, maskU⟩] ++
  [⟨"RMP.SET", 0x38000000, maskU⟩, ⟨"RMP.STEP", 0x39000000, maskU⟩, ⟨"RMP.PROC", 0x3A000000, maskU⟩,
   ⟨"RMP.INIT", 0x3B000000, maskU⟩, ⟨"EXS.PROC", 0x3C000000, maskU⟩, ⟨"EXS.INIT", 0x3D000000, maskU⟩,
   ⟨"DLY.WR", 0x40000000, maskU⟩, ⟨"DLY.RD", 0x41000000, maskUI⟩, ⟨"RPT.PROC", 0x48000000, maskUI⟩,
   ⟨"RPT.INIT", 0x49000000, maskUI⟩]

/-- A word matches a row (R91). -/
def OpcodeRow.hits (row : OpcodeRow) (w : Word) : Bool := w &&& row.mask == row.pattern

/-- The instruction the decoder reads from the table's numbering of a word: one 32-bit word, bit 0 its least
significant bit (R9, R90). There is no byte order to apply (20_memory.md R61). -/
def decodeTableWord (nbits w : Nat) : Option Instr :=
  if w % 2 ^ nbits < 2 ^ 32 then
    match decode (BitVec.ofNat 32 (w % 2 ^ nbits)) with
    | .ok i => some i
    | .error _ => none
  else none

end Sys2Proof
end

