-- ==== Sys2Proof/Config.lean ====
section
/-! DEFINITION. The configuration record CFG of 00_scope.md R7. Its plain-data fields are the structure
`Config`, a field of State that no step changes (log 1). Its function-valued fields and the values the spec
leaves free are opaque constants: nothing can be proved of them but their type (logs 2, 3, 4, 13). -/

namespace Sys2Proof

/-- The plain-data fields of CFG (00_scope.md R7). `DT_T` is the length of `dtTab`. -/
structure Config where
  /-- `N`, the lane count and oversampling factor -/
  n : Nat
  /-- `L`, the length `ENG.NEW` gives every FIR unit -/
  l : Nat
  /-- `L_MAX`, the physical depth of every FIR buffer and coefficient table -/
  lMax : Nat
  /-- `C[u][k][j]` -/
  c : List (List Lanes)
  /-- `G_OVS[o]` -/
  gOvs : List F32
  /-- `WS_C1` -/
  wsC1 : F32
  /-- `WS_C3` -/
  wsC3 : F32
  /-- `DT_TAB[i]`, with `DT_T` entries -/
  dtTab : List F32
  /-- `DT_SCALE` -/
  dtScale : F32
  /-- `AFS_REF[u]` -/
  afsRef : List F32
  /-- `RAMP_SAMPLES[u]` -/
  rampSamples : List Nat
  /-- `EXS_FC[u]` -/
  exsFc : List F32
  /-- `MAX_DELAY_S` -/
  maxDelayS : F32
  /-- `DLY_CAP_MAX` -/
  dlyCapMax : Nat
  /-- `XFADE_SAMPLES` -/
  xfadeSamples : Nat
  /-- `FB_MIN` -/
  fbMin : F32
  /-- `RPT_MAX_TAPS` -/
  rptMaxTaps : Nat
  /-- `N_FIR` -/
  nFir : Nat
  /-- `N_OVS` -/
  nOvs : Nat
  /-- `N_AFS` -/
  nAfs : Nat
  /-- `N_OPF` -/
  nOpf : Nat
  /-- `N_RMP` -/
  nRmp : Nat
  /-- `N_EXS` -/
  nExs : Nat
  /-- `N_DLY` -/
  nDly : Nat
  /-- `N_RPT` -/
  nRpt : Nat
  deriving DecidableEq, Repr

/-- TESTCFG, the plain-data part (00_scope.md R7; 95_test_vectors.md section 0). DESIGN CHOICE, log 1: the
configuration that `State.reset` holds. -/
def Config.test : Config where
  n := 2
  l := 4
  lMax := 4
  c := [[[0x3D800000, 0x3E000000], [0x3E400000, 0x3E800000], [0x3EA00000, 0x3EC00000], [0x3EE00000, 0x3F000000]],
        [[0x3E000000, 0x3F000000], [0x3E800000, 0x3EC00000], [0x3EC00000, 0x3E800000], [0x3F000000, 0x3E000000]]]
  gOvs := [0x3F000000]
  wsC1 := 0x3E800000
  wsC3 := 0x3E000000
  dtTab := [0x00000000, 0x3F000000, 0x3F400000]
  dtScale := 0x40000000
  afsRef := [0x43480000, 0x43480000]
  rampSamples := [8, 8, 8, 8]
  exsFc := [0x00000000, 0x42800000]
  maxDelayS := 0x3C83126F
  dlyCapMax := 64
  xfadeSamples := 4
  fbMin := 0x3A800000
  rptMaxTaps := 8
  nFir := 2
  nOvs := 1
  nAfs := 2
  nOpf := 2
  nRmp := 4
  nExs := 2
  nDly := 1
  nRpt := 1

/-- The primitives of 00_scope.md R10 that can return a NaN: the tag a draw is made under. -/
inductive FOp where
  | add | sub | mul | div | sqrt | floor | exp | pow | sin | cos
  deriving DecidableEq, Repr

/-- FREE VALUE (00_scope.md R15, 93 U2): the sign of the NaN an operation returns. Log 4. -/
opaque Config.nanSign : Draw → FOp → F32 → F32 → Bool

/-- FREE VALUE (00_scope.md R15, 93 U2): the payload of that NaN, less one; every nonzero fraction occurs. Log 4. -/
opaque Config.nanPayload : Draw → FOp → F32 → F32 → Fin 8388607

/-- OPEN `CFG.NUM.fexp` (00_scope.md R12) below zero: magnitude patterns that rise with the operand. NUM-P2's
"`fexp` is non-decreasing" is the type, a bundle of a function with its monotonicity. Log 3. -/
opaque Config.expBelow : ℕ →o ℕ

/-- OPEN `CFG.NUM.fexp` (00_scope.md R12) above zero: how far the magnitude pattern rises above that of 1.0. Log 3. -/
opaque Config.expAbove : ℕ →o ℕ

/-- OPEN `CFG.NUM.fexp` (00_scope.md R12): the sign of a zero it answers, which NUM-P2 leaves open. Log 3. -/
opaque Config.expZeroSign : F32 → Bool

/-- OPEN `CFG.NUM.fpow` (00_scope.md R12) before the named properties are imposed. Log 3. -/
opaque Config.powRaw : F32 → F32 → F32

/-- OPEN `CFG.NUM.fsin` (00_scope.md R12) before the named properties are imposed. Log 3. -/
opaque Config.sinRaw : F32 → F32

/-- OPEN `CFG.NUM.fcos` (00_scope.md R12) before the named properties are imposed. Log 3. -/
opaque Config.cosRaw : F32 → F32

/-- OPEN `CFG.AFS_S[u]` (43_analog_filter.md R152): coefficient `bs_i` of unit `u` for a control value,
before the constraints of 00_scope.md R7 are imposed. Log 2. -/
opaque Config.afsSB : (u : Nat) → (control : F32) → (i : Fin 4) → F32

/-- OPEN `CFG.AFS_S[u]` (43_analog_filter.md R152): coefficient `as_i` of unit `u` for a control value,
before the constraints of 00_scope.md R7 are imposed. Log 2. -/
opaque Config.afsSA : (u : Nat) → (control : F32) → (i : Fin 4) → F32

/-- OPEN `CFG.AFS_GAIN[u]` (43_analog_filter.md R156), before the constraint of 00_scope.md R7 is
imposed. Log 2. -/
opaque Config.afsGain : (u : Nat) → (control : F32) → F32

/-- FREE VALUE (10_state.md R22): what a host READ of a port register that nothing has written returns. Log 13. -/
opaque Config.unwrittenWord : Draw → F32

end Sys2Proof
end

