-- ==== Sys2Proof/Machine/State.lean ====
section
/-! DEFINITION. The state of the core (10_state.md), its reset (POWER-ON, 70_reset_and_hazards.md R300) and the
reasons a step can stop. Plain data throughout. -/

namespace Sys2Proof.Machine

/-- A space of 32-bit words (20_memory.md R60, R61), sparse: (word index, word), indices strictly rising, no
entry equal to `+0.0`, which is what an unlisted word reads as. Element `i` of a vector space is the words
`i * N .. i * N + N - 1` (R63; log 9). -/
abbrev Memory := List (Nat × Word)

/-- A scalar port register and whether the host or a command has written it since POWER-ON
(10_state.md R20, R22; log 5). -/
structure Port where
  val : F32
  written : Bool
  deriving DecidableEq, Repr

/-- A vector port register (10_state.md R21, R22; log 5). -/
structure VecPort where
  lanes : Lanes
  written : Bool
  deriving DecidableEq, Repr

/-- The one-pole filter record (10_state.md R31). -/
structure OnePole where
  z : F32
  b1 : F32
  fcLast : F32
  valid : Bool
  deriving DecidableEq, Repr

/-- A polyphase FIR unit (10_state.md R28). `buf` is the space `FIRBUF[u]`, `c` the space `FIRCOEF[u]`. -/
structure Fir where
  len : Nat
  idx : Nat
  buf : Memory
  c : Memory
  deriving DecidableEq, Repr

/-- An analog filter stage (10_state.md R30). -/
structure Afs where
  z0 : F32
  z1 : F32
  z2 : F32
  b0 : F32
  b1 : F32
  b2 : F32
  b3 : F32
  a1 : F32
  a2 : F32
  a3 : F32
  gfc : F32
  gc : OnePole
  deriving DecidableEq, Repr

/-- A ramp smoother (10_state.md R32). -/
structure Ramp where
  cur : F32
  tgt : F32
  step : F32
  cnt : Nat
  deriving DecidableEq, Repr

/-- An exponential smoother (10_state.md R33). -/
structure Exs where
  op : OnePole
  deriving DecidableEq, Repr

/-- A delay buffer (10_state.md R34). `buf` is the space `DLYBUF[u]`. -/
structure Delay where
  cap : Nat
  w : Nat
  scale : F32
  buf : Memory
  deriving DecidableEq, Repr

/-- `TapParameterSet` (10_state.md R36). -/
structure TapSet where
  count : Nat
  time : F32
  fb : F32
  skew : F32
  deriving DecidableEq, Repr

/-- The crossfade ramp of a repeat engine (10_state.md R35). -/
structure Fade where
  p : F32
  step : F32
  cnt : Nat
  deriving DecidableEq, Repr

/-- A repeat engine (10_state.md R35). -/
structure RepeatUnit where
  cur : TapSet
  prev : TapSet
  xf : Fade
  deriving DecidableEq, Repr

/-- The operand registers the host may write as scalars (70_reset_and_hazards.md R303). -/
inductive OperandReg where
  | a0 | a1 | a2 | a3
  deriving DecidableEq, Repr

/-- The scalar port registers (10_state.md R20). -/
inductive ScalarReg where
  | a0 | a1 | a2 | a3 | r
  deriving DecidableEq, Repr

/-- The registers the host may read (70_reset_and_hazards.md R303). -/
inductive PortReg where
  | a0 | a1 | a2 | a3 | r | va | vr | st | fcmd
  deriving DecidableEq, Repr

/-- What the host does between commands (70_reset_and_hazards.md R303; the copies are those of 30_encoding.md
R97). Log 7. -/
inductive HostAction where
  /-- `WRITE(reg, value)`, `reg` one of A0 to A3 -/
  | write (reg : OperandReg) (value : F32)
  /-- `WRITE(VA, lanes)` -/
  | writeVa (lanes : Lanes)
  /-- `reg = src`: a copy of that register's current value (R97) -/
  | copy (reg : OperandReg) (src : ScalarReg)
  /-- `VA = VR` (R97) -/
  | copyVa
  /-- `ISSUE(word)` -/
  | issue (word : Word)
  /-- `READ(reg)` -/
  | read (reg : PortReg)
  deriving DecidableEq, Repr

/-- One value the host read (00_scope.md R18): the register and its words. -/
structure Observation where
  reg : PortReg
  words : List Word
  deriving DecidableEq, Repr

structure State where
  /-- the plain-data part of CFG (00_scope.md R7; log 1) -/
  cfg : Config
  /-- port registers (10_state.md R20, R21) -/
  a0 : Port
  a1 : Port
  a2 : Port
  a3 : Port
  r : Port
  va : VecPort
  vr : VecPort
  /-- bookkeeping index of the next command (10_state.md R23) -/
  pc : Nat
  /-- status register (10_state.md R24) -/
  st : Word
  /-- the faulting command word (10_state.md R25) -/
  fcmd : Word
  /-- engine constants (10_state.md R26) -/
  fs : F32
  k1 : F32
  k2 : F32
  k3 : F32
  w : F32
  /-- unit files (10_state.md R28 to R35) -/
  fir : List Fir
  afs : List Afs
  opf : List OnePole
  rmp : List Ramp
  exs : List Exs
  dly : List Delay
  rpt : List RepeatUnit
  /-- the host actions still to come, the next one first (log 7) -/
  inbox : List HostAction
  /-- what the host has read, the newest first (00_scope.md R18; log 7) -/
  obs : List Observation
  /-- the counter free values are drawn from (log 4) -/
  draws : Nat
  deriving DecidableEq, Repr

/-- The model stops with a fault. -/
inductive Fault where
  /-- Raised by a command whose unit record is missing from its unit file, or whose index would leave its
  address space. 20_memory.md R67 says no index does, and in states that meet the invariant of Safety.lean
  none does: it occurs only in states no run reaches. Safe (log 10). -/
  | outOfSpace
  deriving DecidableEq, Repr

/-- The model has no next state to give. -/
inductive Refusal where
  /-- Raised by an arm of `exec` that is not modelled yet: none is left. Safe. -/
  | notModelled (mnemonic : String)
  /-- Raised by a command that reads the port register `reg`, which nothing has written since POWER-ON:
  "a model must fault or refuse it, never pick zero" (10_state.md R22; 93 U1). Safe (log 5). -/
  | unwrittenOperand (reg : PortReg)
  /-- Raised by a host action that writes VA with a number of lanes other than `N` (30_encoding.md R97: "exactly
  `N` entries"). No command raises it. Safe (log 21). -/
  | laneCount
  /-- Raised by `step` when CFG violates a constraint of 00_scope.md R7 (93 U11: refuse). Safe (log 11). -/
  | illegalConfig
  deriving DecidableEq, Repr

/-- A one-pole record after CONSTRUCT (10_state.md R31). -/
def OnePole.zero : OnePole := ⟨0, 0, 0, false⟩

/-- The empty tap set (10_state.md R35). -/
def TapSet.zero : TapSet := ⟨0, 0, 0, 0⟩

/-- POWER-ON (10_state.md R40; 70_reset_and_hazards.md R300): `ST = 0`, `FCMD = 0`, `pc = 0`. Everything else the
spec leaves without a value; the values here are the model's (logs 1, 4, 5, 6, 7). -/
def State.reset : State where
  cfg := Config.test
  a0 := ⟨0, false⟩
  a1 := ⟨0, false⟩
  a2 := ⟨0, false⟩
  a3 := ⟨0, false⟩
  r := ⟨0, false⟩
  va := ⟨List.replicate Config.test.n 0, false⟩
  vr := ⟨List.replicate Config.test.n 0, false⟩
  pc := 0
  st := 0
  fcmd := 0
  fs := 0
  k1 := 0
  k2 := 0
  k3 := 0
  w := 0
  fir := List.replicate Config.test.nFir ⟨0, 0, [], []⟩
  afs := List.replicate Config.test.nAfs ⟨0, 0, 0, 0, 0, 0, 0, 0, 0, 0, 0, OnePole.zero⟩
  opf := List.replicate Config.test.nOpf OnePole.zero
  rmp := List.replicate Config.test.nRmp ⟨0, 0, 0, 0⟩
  exs := List.replicate Config.test.nExs ⟨OnePole.zero⟩
  dly := List.replicate Config.test.nDly ⟨0, 0, 0, []⟩
  rpt := List.replicate Config.test.nRpt ⟨TapSet.zero, TapSet.zero, ⟨0, 0, 0⟩⟩
  inbox := []
  obs := []
  draws := 0

end Sys2Proof.Machine
end

