-- ==== Sys2Proof/Machine/Flags.lean ====
section
/-! DEFINITION. The status register ST (10_state.md R24), the cause codes (60_exceptions.md R261) and the status
bits that behave as flags (10_state.md R27). -/

namespace Sys2Proof.Machine

/-- The fault causes (60_exceptions.md R261). -/
inductive Cause where
  | fs | firLen | dlyRange | illegal | noCfg | cap
  deriving DecidableEq, Repr

/-- The code a cause has in `ST.CAUSE` (R261). -/
def Cause.code : Cause → Nat
  | .fs => 1
  | .firLen => 2
  | .dlyRange => 3
  | .illegal => 4
  | .noCfg => 5
  | .cap => 6

/-- `ST.CFG`, bit 0 (R24). -/
def State.isConfigured (s : State) : Bool := s.st.getLsbD 0

/-- `ST.FAULT`, bit 1 (R24). -/
def State.isFaulted (s : State) : Bool := s.st.getLsbD 1

/-- `ST.CAUSE`, bits 7:4 (R24). -/
def State.cause (s : State) : Nat := s.st.toNat / 2 ^ 4 % 2 ^ 4

/-- The condition READY of 48_engine.md R241. -/
def State.isReady (s : State) : Bool := s.isConfigured && !s.isFaulted

/-- The fields of ST that exist: CFG, FAULT and CAUSE (R24; 93 U12). -/
def stFields : Word := 0x000000F3

/-- ST as the host reads it: the reserved bits read as 0 (R24). -/
def stRead (st : Word) : Word := st &&& stFields

/-- ST after a fault (60_exceptions.md R262): CAUSE only if no fault is recorded, then FAULT set, CFG cleared. -/
def stRaise (e : Cause) (st : Word) : Word :=
  let noted := if st.getLsbD 1 then st else (st &&& 0xFFFFFF0F) ||| BitVec.ofNat 32 (e.code * 2 ^ 4)
  (noted ||| 0x00000002) &&& 0xFFFFFFFE

/-- ST after a successful `ENG.NEW` (48_engine.md R243): CFG set, FAULT and CAUSE cleared. -/
def stConstructed (st : Word) : Word := (st &&& 0xFFFFFF0D) ||| 0x00000001

/-- `xfade_active` of a repeat engine (10_state.md R27). -/
def RepeatUnit.xfadeActive (e : RepeatUnit) : Bool := 0 < e.xf.cnt

end Sys2Proof.Machine
end

