-- ==== Sys2Proof/Machine/Float.lean ====
section
/-! DEFINITION. The numerics of 00_scope.md section 6: IEEE 754 binary32 on bit patterns, correctly rounded to
nearest, ties to even, subnormals kept, no flags (R11); and the four parameters of CFG.NUM held to the named
properties NUM-P1 to NUM-P6 (R12; log 3).

Every finite binary32 is an integer multiple of `2^-149`, so a finite operand is turned into that integer, the
operation is done exactly on integers, and the exact quotient of two naturals is narrowed once, in `roundUnits`.
A pattern less its sign bit, read as a number, rises with the magnitude; `roundUnits` answers that number.

An operation that can return a NaN takes the place `d` the NaN is drawn at (R15; log 4). -/

namespace Sys2Proof.Machine

/-- The sign bit. -/
def signBit (x : F32) : Bool := x.getLsbD 31

/-- The pattern less its sign bit. -/
def magPat (x : F32) : Nat := x.toNat % 2 ^ 31

/-- The magnitude pattern of infinity. -/
def infPat : Nat := 0x7F800000

def isNaN (x : F32) : Bool := infPat < magPat x

def isInf (x : F32) : Bool := magPat x == infPat

def isFinite (x : F32) : Bool := magPat x < infPat

def isZero (x : F32) : Bool := magPat x == 0

/-- A pattern from a sign and a magnitude pattern. -/
def packF (neg : Bool) (pat : Nat) : F32 := BitVec.ofNat 32 ((if neg then 2 ^ 31 else 0) + pat)

/-- `2^149`: how many units of `2^-149` make 1.0. -/
def unitsPerOne : Nat := 2 ^ 149

/-- The magnitude of a finite value in units of `2^-149`. -/
def units (x : F32) : Nat :=
  let e := magPat x / 2 ^ 23
  if e = 0 then magPat x else (2 ^ 23 + magPat x % 2 ^ 23) * 2 ^ (e - 1)

/-- A finite value in units of `2^-149`. -/
def sUnits (x : F32) : Int := if signBit x then -(units x : Int) else units x

/-- `n / d` to the nearest integer, ties to even. -/
def halfEven (n d : Nat) : Nat :=
  if d < 2 * (n % d) ∨ (2 * (n % d) = d ∧ n / d % 2 = 1) then n / d + 1 else n / d

/-- The magnitude pattern of the binary32 nearest to `n / d` units, ties to even (R11). The binade of the value
fixes the quantum `2^s`; a carry out of the fraction moves into the exponent by itself; past the largest finite
value the answer is infinity. -/
def roundUnits (n d : Nat) : Nat :=
  let s := (n / d).log2 - 23
  min (s * 2 ^ 23 + halfEven n (d * 2 ^ s)) infPat

/-- A NaN, drawn (R15, 93 U2; log 4): any sign, any nonzero fraction. -/
def nanResult (d : Draw) (op : FOp) (x y : F32) : F32 :=
  packF (Config.nanSign d op x y) (infPat + 1 + (Config.nanPayload d op x y).val)

/-- The shared rule of `fadd` and `fsub`. -/
def fsum (d : Draw) (op : FOp) (x y z : F32) : F32 :=
  if isNaN x || isNaN z then nanResult d op x y
  else if isInf x then (if isInf z && (signBit x != signBit z) then nanResult d op x y else x)
  else if isInf z then z
  else
    let t := sUnits x + sUnits z
    if t = 0 then packF (signBit x && signBit z) 0 else packF (t < 0) (roundUnits t.natAbs 1)

/-- `fneg`: the sign bit only (R11). -/
def fneg (x : F32) : F32 := packF (!signBit x) (magPat x)

/-- `fabs`: the sign bit only (R11). -/
def fabs (x : F32) : F32 := packF false (magPat x)

/-- `fcopysign`: the magnitude of `x` with the sign of `y` (R11). -/
def fcopysign (x y : F32) : F32 := packF (signBit y) (magPat x)

/-- `fadd` (R11). -/
def fadd (d : Draw) (x y : F32) : F32 := fsum d .add x y y

/-- `fsub` (R11). -/
def fsub (d : Draw) (x y : F32) : F32 := fsum d .sub x y (fneg y)

/-- `fmul` (R11). -/
def fmul (d : Draw) (x y : F32) : F32 :=
  if isNaN x || isNaN y then nanResult d .mul x y
  else if isInf x || isInf y then
    (if isZero x || isZero y then nanResult d .mul x y else packF (signBit x != signBit y) infPat)
  else packF (signBit x != signBit y) (roundUnits (units x * units y) unitsPerOne)

/-- `fdiv` (R11). -/
def fdiv (d : Draw) (x y : F32) : F32 :=
  if isNaN x || isNaN y then nanResult d .div x y
  else if isInf x then (if isInf y then nanResult d .div x y else packF (signBit x != signBit y) infPat)
  else if isInf y then packF (signBit x != signBit y) 0
  else if isZero y then (if isZero x then nanResult d .div x y else packF (signBit x != signBit y) infPat)
  else packF (signBit x != signBit y) (roundUnits (units x * unitsPerOne) (units y))

/-- The bits of the integer square root of `m` below bit `b`, given the bits above in `r`. -/
def isqrtFrom (m : Nat) : Nat → Nat → Nat
  | 0, r => r
  | b + 1, r => isqrtFrom m b (if (r + 2 ^ b) * (r + 2 ^ b) ≤ m then r + 2 ^ b else r)

/-- The integer square root. -/
def isqrt (m : Nat) : Nat := isqrtFrom m (m.log2 / 2 + 1) 0

/-- `fsqrt` (R11). In units the root is `sqrt (m * 2^149)`, a number of at least 75 bits: its integer part and
whether anything is left over decide the rounding. -/
def fsqrt (d : Draw) (x : F32) : F32 :=
  if isNaN x then nanResult d .sqrt x 0
  else if isZero x then x
  else if signBit x then nanResult d .sqrt x 0
  else if isInf x then x
  else
    let m := units x * unitsPerOne
    let r := isqrt m
    packF false (roundUnits (2 * r + (if r * r = m then 0 else 1)) 2)

/-- `ffloor`, exact (R11). -/
def ffloor (d : Draw) (x : F32) : F32 :=
  if isNaN x then nanResult d .floor x 0
  else if isInf x then x
  else if units x % unitsPerOne = 0 then x
  else if signBit x then packF true (roundUnits ((units x / unitsPerOne + 1) * unitsPerOne) 1)
  else packF false (roundUnits (units x / unitsPerOne * unitsPerOne) 1)

/-- A number in the order of the non-NaN values; both zeros are 0 (R10). -/
def orderKey (x : F32) : Int := if signBit x then -(magPat x : Int) else magPat x

/-- `==` (R10). -/
def feq (x y : F32) : Bool := !isNaN x && !isNaN y && orderKey x == orderKey y

/-- `!=` (R10). -/
def fne (x y : F32) : Bool := !feq x y

/-- `<` (R10). -/
def flt (x y : F32) : Bool := !isNaN x && !isNaN y && orderKey x < orderKey y

/-- `<=` (R10). -/
def fle (x y : F32) : Bool := !isNaN x && !isNaN y && orderKey x ≤ orderKey y

/-- `f32(n)`, exact below `2^24` (R10). -/
def f32 (n : Nat) : F32 := packF false (roundUnits (n * unitsPerOne) 1)

/-- `int(v)` of a non-negative integer value (R10). -/
def intOf (v : F32) : Nat := units v / unitsPerOne

/-- 1.0 -/
def one32 : F32 := 0x3F800000
/-- 2.0 -/
def two32 : F32 := 0x40000000
/-- 3.0 -/
def three32 : F32 := 0x40400000
/-- -2.0 -/
def negTwo32 : F32 := 0xC0000000
/-- -3.0 -/
def negThree32 : F32 := 0xC0400000
/-- 1000.0 -/
def thousand32 : F32 := 0x447A0000
/-- `PI32` (R16) -/
def pi32 : F32 := 0x40490FDB
/-- `HALF_PI32` (R16) -/
def halfPi32 : F32 := 0x3FC90FDB

/-- A value of `[-1, 1]`, by NUM-P5: `w` itself where it is one (log 3). -/
def inSymmetric (w : F32) : F32 := if fle (fneg one32) w && fle w one32 then w else one32

/-- The magnitude pattern of `fexp` (R12) at an operand that is no NaN. It is the parameter held to NUM-P1 (1.0 at both
zeros) and NUM-P2: it rises with the operand, at most 1.0 below zero and at least 1.0 above. DEDUCED, log 3: NUM-P2 is
read for infinite operands too, as 44_onepole.md R172 needs where `cutoff * W` overflows. -/
def expPat (x : F32) : Nat :=
  if isZero x then magPat one32
  else if signBit x then min (magPat one32) (Config.expBelow (infPat - magPat x))
  else min infPat (magPat one32 + Config.expAbove (magPat x))

/-- `fexp` (R12): NUM-P1, NUM-P2, NUM-P6; a zero it answers has the sign the parameter gives. -/
def fexp (d : Draw) (x : F32) : F32 :=
  if isNaN x then nanResult d .exp x 0
  else packF (expPat x == 0 && Config.expZeroSign x) (expPat x)

/-- `fsin` (R12): NUM-P5, NUM-P6; else the parameter. DESIGN CHOICE, log 3: whether NUM-P5's bound, "for every `x`",
holds at an infinite operand is left open by its closing "when `x` is finite"; the bound is imposed on finite operands
alone. -/
def fsin (d : Draw) (x : F32) : F32 :=
  if isNaN x then nanResult d .sin x 0
  else if x = 0 then 0
  else if isFinite x then inSymmetric (Config.sinRaw x)
  else Config.sinRaw x

/-- `fcos` (R12): NUM-P5, NUM-P6; else the parameter. -/
def fcos (d : Draw) (x : F32) : F32 :=
  if isNaN x then nanResult d .cos x 0
  else if x = 0 then one32
  else if isFinite x then inSymmetric (Config.cosRaw x)
  else Config.cosRaw x

/-- How often 2 divides `m`, for `0 < m < 2^300`. -/
def twosIn (m : Nat) : Nat := (m.gcd (2 ^ 300)).log2

/-- The exact power NUM-P4 speaks of: `x > 0` finite, `y` an integer, `x^y` a binary32 number. With
`x = odd * 2^e`, the power is `odd^n * 2^(e*n)`; an odd part above 1 leaves 24 bits beyond the 15th power, and has no
finite reciprocal. -/
def exactPow (x y : F32) : Option F32 :=
  if isFinite x && isFinite y && !signBit x && !isZero x && units y % unitsPerOne == 0 then
    let k := twosIn (units x)
    let odd := units x / 2 ^ k
    let n : Int := sUnits y / unitsPerOne
    let e : Int := ((k : Int) - 149) * n
    if -149 ≤ e ∧ e ≤ 127 ∧ (odd = 1 ∨ (0 ≤ n ∧ n ≤ 15)) then
      let p := if odd = 1 then 1 else odd ^ n.toNat
      if p < 2 ^ 24 ∧ p * 2 ^ (e + 149).toNat < 2 ^ 277 then
        some (packF false (roundUnits (p * 2 ^ (e + 149).toNat) 1))
      else none
    else none
  else none

/-- `fpow` (R12): NUM-P3, NUM-P4, NUM-P6; else the parameter, as for `fpow(NaN, +0.0)`. DESIGN CHOICE, log 3: NUM-P3
does not say whether its second clause, `fpow(x, 1.0) = x`, is for infinite `x` too; it is imposed on finite `x` alone. -/
def fpow (d : Draw) (x y : F32) : F32 :=
  if isNaN x || isNaN y then (if y = 0 then Config.powRaw x y else nanResult d .pow x y)
  else if isFinite x && (y == 0) then one32
  else if isFinite x && (y == one32) then x
  else
    match exactPow x y with
    | some v => v
    | none => Config.powRaw x y

end Sys2Proof.Machine
end

