-- ==== Sys2Proof/Machine/Operands.lean ====
section
/-! DEFINITION. The operands of a command: its fields checked against CFG (30_encoding.md R92, R95 steps 3 and
4), the port registers it reads (R93; 10_state.md R22), the unit records it works on, and the configuration
tables of a unit. -/

namespace Sys2Proof.Machine

/-- What a command, or a part of one, answers. -/
abbrev Result := Host.Outcome State Fault Refusal

/-- Go on from a next state; a stop stays the stop it is. -/
def Result.andThen (a : Result) (k : State → Result) : Result :=
  match a with
  | .next s => k s
  | .fault f => .fault f
  | .refused r => .refused r

/-- A power of two, 0 excluded (40_fir.md R121). -/
def isPow2 (n : Nat) : Bool := n != 0 && (n &&& (n - 1)) == 0

/-- The unit index is below the unit count of its kind, and the immediate is legal (R92; R95 steps 3 and 4, in
that order; R264). `none` means the fields are legal. -/
def fieldCheck (cfg : Config) (i : Instr) : Option Cause :=
  let unit (u count : Nat) (rest : Option Cause) : Option Cause := if u < count then rest else some .illegal
  let bounded (imm most : Nat) : Option Cause := if imm ≤ most then none else some .illegal
  match i with
  | .engNew => none
  | .firNew u len =>
    unit u cfg.nFir (if isPow2 len then (if len ≤ cfg.lMax then none else some .illegal) else some .firLen)
  | .firProc u => unit u cfg.nFir none
  | .ovsUp o => unit o cfg.nOvs none
  | .ovsDn o => unit o cfg.nOvs none
  | .ovsProc o fn => unit o cfg.nOvs (bounded fn 1)
  | .wsRat => none
  | .wsDiode => none
  | .afsCoef u => unit u cfg.nAfs none
  | .afsStep u => unit u cfg.nAfs none
  | .afsProc u => unit u cfg.nAfs none
  | .opfProc u => unit u cfg.nOpf none
  | .rmpSet u => unit u cfg.nRmp none
  | .rmpStep u => unit u cfg.nRmp none
  | .rmpProc u => unit u cfg.nRmp none
  | .rmpInit u => unit u cfg.nRmp none
  | .exsProc u => unit u cfg.nExs none
  | .exsInit u => unit u cfg.nExs none
  | .dlyWr u => unit u cfg.nDly none
  | .dlyRd u mode => unit u cfg.nDly (bounded mode 0)
  | .rptProc u count => unit u cfg.nRpt (bounded count cfg.rptMaxTaps)
  | .rptInit u count => unit u cfg.nRpt (bounded count cfg.rptMaxTaps)

/-- Read a scalar operand register. One that nothing has written since POWER-ON holds no value, and the command
has no defined result (10_state.md R22; 93 U1: refuse; log 5). -/
def withOperand (reg : PortReg) (p : Port) (k : F32 → Result) : Result :=
  if p.written then k p.val else .refused (.unwrittenOperand reg)

/-- Read a vector operand register (10_state.md R21, R22; log 5). -/
def withLanes (reg : PortReg) (p : VecPort) (k : Lanes → Result) : Result :=
  if p.written then k p.lanes else .refused (.unwrittenOperand reg)

/-- Take unit `u` of a unit file. The file of a legal configuration has it; log 10. -/
def withUnit {α : Type} (file : List α) (u : Nat) (k : α → Result) : Result :=
  match file[u]? with
  | some x => k x
  | none => .fault .outOfSpace

/-- `C[u][k][j]` (00_scope.md R7). -/
def coefOf (cfg : Config) (u k j : Nat) : F32 := ((cfg.c.getD u []).getD k []).getD j 0

/-- `G_OVS[o]` (R7). -/
def gOvsOf (cfg : Config) (o : Nat) : F32 := cfg.gOvs.getD o 0

/-- `AFS_REF[u]` (R7). -/
def afsRefOf (cfg : Config) (u : Nat) : F32 := cfg.afsRef.getD u 0

/-- `RAMP_SAMPLES[u]` (R7). -/
def rampSamplesOf (cfg : Config) (u : Nat) : Nat := cfg.rampSamples.getD u 1

/-- `EXS_FC[u]` (R7). -/
def exsFcOf (cfg : Config) (u : Nat) : F32 := cfg.exsFc.getD u 0

/-- Lane `j` of a vector (00_scope.md R10). -/
def lane (v : Lanes) (j : Nat) : F32 := v.getD j 0

/-- The `n`-lane vector whose lane `j` is `f j`. -/
def vecOf (n : Nat) (f : Nat → F32) : Lanes := (List.range n).map f

/-- `splat(x)` (00_scope.md R10). -/
def splat (n : Nat) (x : F32) : Lanes := vecOf n fun _ => x

end Sys2Proof.Machine
end

