-- ==== Sys2Proof/Machine/Ops.lean ====
section
/-! DEFINITION. The shared operations: memory (20_memory.md R60, R63), the writes to registers and unit files,
raising a fault (60_exceptions.md R262), and the gate every command passes (R263). -/

namespace Sys2Proof.Machine

/-- What a word that is not listed reads as: `+0.0` (log 9). -/
def blankWord : Word := 0

/-- One word of a space. -/
def Memory.read (m : Memory) (a : Nat) : Word :=
  match m with
  | [] => blankWord
  | (b, v) :: rest => if a = b then v else Memory.read rest a

/-- Put a word where it belongs in the rising list; the value an unlisted word reads as is not listed. -/
def Memory.write (m : Memory) (a : Nat) (v : Word) : Memory :=
  match m with
  | [] => if v = blankWord then [] else [(a, v)]
  | (b, x) :: rest =>
    if a < b then (if v = blankWord then (b, x) :: rest else (a, v) :: (b, x) :: rest)
    else if a = b then (if v = blankWord then rest else (a, v) :: rest)
    else (b, x) :: Memory.write rest a v

/-- Every listed index is at least `lo`, the indices rise, and no blank word is listed. -/
def Memory.wfFrom (lo : Nat) : Memory → Bool
  | [] => true
  | (a, v) :: rest => lo ≤ a && v != blankWord && Memory.wfFrom (a + 1) rest

/-- The canonical form. -/
def Memory.wf (m : Memory) : Bool := Memory.wfFrom 0 m

/-- Write consecutive words from index `a`. -/
def Memory.writeWords (m : Memory) (a : Nat) : List Word → Memory
  | [] => m
  | v :: vs => Memory.writeWords (Memory.write m a v) (a + 1) vs

/-- Lane `j` of element `i` of a vector space: `MemRead(S + i, N)` (R60, R63). -/
def Memory.readLane (m : Memory) (n i j : Nat) : Word := m.read (i * n + j)

/-- `MemWrite(S + i, N, v)` (R60, R63): exactly `n` lanes. -/
def Memory.writeVec (m : Memory) (n i : Nat) (v : Lanes) : Memory := m.writeWords (i * n) (vecOf n (lane v))

/-- The place values are drawn at now (log 4). -/
def State.draw (s : State) : Draw := [s.draws]

/-- A command that computed goes on to fresh draws (log 4). -/
def State.spend (s : State) : State := { s with draws := s.draws + 1 }

/-- `pc <- pc + 1` (10_state.md R23). -/
def State.tick (s : State) : State := { s with pc := s.pc + 1 }

/-- `R <- x` (10_state.md R20). -/
def State.writeR (s : State) (x : F32) : State := { s with r := ⟨x, true⟩ }

/-- `VA <- v` (10_state.md R21). -/
def State.writeVa (s : State) (v : Lanes) : State := { s with va := ⟨v, true⟩ }

/-- `VR <- v` (10_state.md R21). -/
def State.writeVr (s : State) (v : Lanes) : State := { s with vr := ⟨v, true⟩ }

/-- `FIR[u] <- f`. -/
def State.setFir (s : State) (u : Nat) (f : Fir) : State := { s with fir := s.fir.set u f }

/-- `AFS[u] <- f`. -/
def State.setAfs (s : State) (u : Nat) (f : Afs) : State := { s with afs := s.afs.set u f }

/-- `OPF[u] <- f`. -/
def State.setOpf (s : State) (u : Nat) (f : OnePole) : State := { s with opf := s.opf.set u f }

/-- `RMP[u] <- f`. -/
def State.setRmp (s : State) (u : Nat) (f : Ramp) : State := { s with rmp := s.rmp.set u f }

/-- `EXS[u] <- f`. -/
def State.setExs (s : State) (u : Nat) (f : Exs) : State := { s with exs := s.exs.set u f }

/-- `DLY[u] <- f`. -/
def State.setDly (s : State) (u : Nat) (f : Delay) : State := { s with dly := s.dly.set u f }

/-- `RPT[u] <- f`. -/
def State.setRpt (s : State) (u : Nat) (f : RepeatUnit) : State := { s with rpt := s.rpt.set u f }

/-- `raise e(cmd)` but for the advance of pc, which the gate adds to every command (60_exceptions.md R262): the
first fault is recorded and kept, FAULT is set, CFG is cleared, nothing else changes. -/
def raise (e : Cause) (cmd : Word) (s : State) : State :=
  { s with st := stRaise e s.st, fcmd := if s.isFaulted then s.fcmd else cmd }

/-- The gate (60_exceptions.md R263) before `k`, and the advance of pc after it (10_state.md R23: "every command,
whether it completes, faults or is refused"). A word with opcode 0x01 passes in every condition. -/
def gate (cmd : Word) (s : State) (k : State → Result) : Result :=
  Result.andThen
    (if opcField cmd ≠ 0x01 ∧ s.isFaulted then .next s
     else if opcField cmd ≠ 0x01 ∧ s.isConfigured = false then .next (raise .noCfg cmd s)
     else k s)
    fun t => .next t.tick

/-- A decoded command: the gate, then the checks of its fields, then its own body (R263, R264). -/
def command (i : Instr) (s : State) (body : State → Result) : Result :=
  gate (encode i) s fun t =>
    match fieldCheck t.cfg i with
    | some e => .next (raise e (encode i) t)
    | none => body t

/-- A word that decodes to no command (30_encoding.md R95, R96): `E_ILLEGAL`, after the gate. -/
def illegalWord (w : Word) (s : State) : Result := gate w s fun t => .next (raise .illegal w t)

end Sys2Proof.Machine
end

