-- ==== Sys2Proof/Machine/OnePoleFilter.lean ====
section
/-! DEFINITION. The one-pole filter: the procedure OnePole and OPF.PROC (44_onepole.md). -/

namespace Sys2Proof.Machine

/-- The cached pole brought up to date: computed anew only on the first call and when the cutoff differs from the
previous call's (44_onepole.md R171). -/
def refreshPole (w : F32) (d : Draw) (f : OnePole) (cutoff : F32) : OnePole :=
  if f.valid = false ∨ fne cutoff f.fcLast then
    { f with b1 := fexp d (fmul d cutoff w), fcLast := cutoff, valid := true }
  else f

/-- `OnePole(F, input, cutoff)` (44_onepole.md R171): the record after the call; the value it returns is `z`. -/
def onePole (w : F32) (d : Draw) (f : OnePole) (input cutoff : F32) : OnePole :=
  let g := refreshPole w d f cutoff
  { g with z := fadd d (fmul d input (fsub d one32 g.b1)) (fmul d g.z g.b1) }

/-- `OPF.PROC u` (44_onepole.md R171). -/
def opfProcBody (u : Nat) (s : State) : Result :=
  withOperand .a0 s.a0 fun x =>
    withOperand .a1 s.a1 fun cutoff =>
      withUnit s.opf u fun f =>
        let g := onePole s.w s.draw f x cutoff
        .next ((s.setOpf u g).writeR g.z).spend

/-- `OPF.PROC u` (44_onepole.md R171). -/
def execOpfProc (u : Nat) (s : State) : Result := command (.opfProc u) s (opfProcBody u)

end Sys2Proof.Machine
end

