-- ==== Sys2Proof/Machine/AnalogFilter.lean ====
section
/-! DEFINITION. The analog filter stage: AFS.COEF, AFS.STEP and AFS.PROC (43_analog_filter.md). -/

namespace Sys2Proof.Machine

/-- Four coefficients of a polynomial, index 0 first (43_analog_filter.md R151). -/
structure Coefs where
  c0 : F32
  c1 : F32
  c2 : F32
  c3 : F32
  deriving DecidableEq, Repr

/-- `Bilinear` of one polynomial with the engine constants (43_analog_filter.md R153). -/
def bilinear (k1 k2 k3 : F32) (d : Draw) (p : Coefs) : Coefs :=
  let p0 := p.c0
  let p1 := fmul d p.c1 k1
  let p2 := fmul d p.c2 k2
  let p3 := fmul d p.c3 k3
  { c0 := fadd d (fadd d (fadd d p0 p1) p2) p3
    c1 := fadd d (fadd d (fsub d (fmul d negThree32 p0) p1) p2) (fmul d three32 p3)
    c2 := fadd d (fsub d (fsub d (fmul d three32 p0) p1) p2) (fmul d three32 p3)
    c3 := fadd d (fsub d (fadd d (fneg p0) p1) p2) p3 }

/-- A control in `[0, 1]`, where CFG holds the stage functions to the constraints of 00_scope.md R7. -/
def isControl (control : F32) : Bool := fle 0 control && fle control one32

/-- A coefficient of `CFG.AFS_S[u]`, which is finite for a control in `[0, 1]` (43_analog_filter.md R152 (b); log 2). -/
def stageCoef (control x : F32) : F32 := if isControl control && !isFinite x then 0 else x

/-- Four such coefficients. -/
def stageCoefs (control : F32) (q : Fin 4 → F32) : Coefs :=
  ⟨stageCoef control (q 0), stageCoef control (q 1), stageCoef control (q 2), stageCoef control (q 3)⟩

/-- `na0` is nonzero and finite (43_analog_filter.md R152 (d)). -/
def normalizes (k1 k2 k3 : F32) (d : Draw) (p : Coefs) : Bool :=
  isFinite (bilinear k1 k2 k3 d p).c0 && !isZero (bilinear k1 k2 k3 d p).c0

/-- `bs0..bs3` of `CFG.AFS_S[u]` (43_analog_filter.md R152; log 2). -/
def sNumerator (u : Nat) (control : F32) : Coefs := stageCoefs control (Config.afsSB u control)

/-- `as0..as3` of `CFG.AFS_S[u]`: for a control in `[0, 1]` the z-domain normalizer is nonzero and finite
(00_scope.md R7; 43_analog_filter.md R152 (d); log 2). -/
def sDenominator (k1 k2 k3 : F32) (d : Draw) (u : Nat) (control : F32) : Coefs :=
  let p := stageCoefs control (Config.afsSA u control)
  if isControl control && !normalizes k1 k2 k3 d p then ⟨one32, 0, 0, 0⟩ else p

/-- `CFG.AFS_GAIN[u]`, nonzero for a control in `[0, 1]` (00_scope.md R7; 43_analog_filter.md R156; log 2). -/
def stageGain (u : Nat) (control : F32) : F32 :=
  if isControl control && isZero (Config.afsGain u control) then one32 else Config.afsGain u control

/-- The z-domain coefficients, normalised by `na0`, stored in the stage (43_analog_filter.md R153, R154). -/
def storeCoefs (d : Draw) (nb na : Coefs) (f : Afs) : Afs :=
  { f with
    b0 := fdiv d nb.c0 na.c0
    b1 := fdiv d nb.c1 na.c0
    b2 := fdiv d nb.c2 na.c0
    b3 := fdiv d nb.c3 na.c0
    a1 := fdiv d na.c1 na.c0
    a2 := fdiv d na.c2 na.c0
    a3 := fdiv d na.c3 na.c0 }

/-- `gfc` of rule R156 (43_analog_filter.md): reference gain over instantaneous gain. -/
def gainCutoff (cfg : Config) (u : Nat) (d : Draw) (control : F32) : F32 :=
  fdiv d (afsRefOf cfg u) (stageGain u control)

/-- The stage after `AFS.COEF` with a control value (43_analog_filter.md R154). The two polynomials are transformed
at places of their own (log 4). -/
def afsCoefs (s : State) (u : Nat) (control : F32) (f : Afs) : Afs :=
  let nb := bilinear s.k1 s.k2 s.k3 (0 :: s.draw) (sNumerator u control)
  let na := bilinear s.k1 s.k2 s.k3 (1 :: s.draw) (sDenominator s.k1 s.k2 s.k3 (1 :: s.draw) u control)
  { storeCoefs s.draw nb na f with gfc := gainCutoff s.cfg u s.draw control }

/-- `y` of one sample of the third-order filter (43_analog_filter.md R155). DEDUCED, log 25: straight after `ENG.NEW` an
infinite or NaN input gives a NaN by this pseudocode, where 70_reset_and_hazards.md R315 says zero without proviso. -/
def afsOutput (d : Draw) (f : Afs) (x : F32) : F32 := fadd d (fmul d x f.b0) f.z0

/-- The stage after one sample `x` with output `y` (43_analog_filter.md R155). -/
def afsAdvance (d : Draw) (f : Afs) (x y : F32) : Afs :=
  { f with
    z0 := fadd d (fsub d (fmul d x f.b1) (fmul d y f.a1)) f.z1
    z1 := fadd d (fsub d (fmul d x f.b2) (fmul d y f.a2)) f.z2
    z2 := fsub d (fmul d x f.b3) (fmul d y f.a3) }

/-- `AFS.COEF u` (43_analog_filter.md R154). -/
def afsCoefBody (u : Nat) (s : State) : Result :=
  withOperand .a1 s.a1 fun control =>
    withUnit s.afs u fun f => .next (s.setAfs u (afsCoefs s u control f)).spend

/-- `AFS.STEP u` (43_analog_filter.md R155). -/
def afsStepBody (u : Nat) (s : State) : Result :=
  withOperand .a0 s.a0 fun x =>
    withUnit s.afs u fun f =>
      let y := afsOutput s.draw f x
      .next ((s.setAfs u (afsAdvance s.draw f x y)).writeR y).spend

/-- The gain correction of `AFS.PROC`, on the `R` that the filter left (43_analog_filter.md R156, R157). -/
def afsGainBody (u : Nat) (s : State) : Result :=
  withUnit s.afs u fun f =>
    let g := onePole s.w s.draw f.gc s.r.val f.gfc
    .next ((s.setAfs u { f with gc := g }).writeR g.z).spend

/-- `AFS.PROC u` (43_analog_filter.md R157): steps 1 to 4 in sequence. -/
def afsProcBody (u : Nat) (s : State) : Result :=
  ((afsCoefBody u s).andThen (afsStepBody u)).andThen (afsGainBody u)

/-- `AFS.COEF u` (43_analog_filter.md R154). -/
def execAfsCoef (u : Nat) (s : State) : Result := command (.afsCoef u) s (afsCoefBody u)

/-- `AFS.STEP u` (43_analog_filter.md R155). -/
def execAfsStep (u : Nat) (s : State) : Result := command (.afsStep u) s (afsStepBody u)

/-- `AFS.PROC u` (43_analog_filter.md R157). -/
def execAfsProc (u : Nat) (s : State) : Result := command (.afsProc u) s (afsProcBody u)

end Sys2Proof.Machine
end

