-- ==== Sys2Proof/Machine/DelayBuffer.lean ====
section
/-! DEFINITION. The delay buffer: DLY.WR and DLY.RD (46_delay.md). -/

namespace Sys2Proof.Machine

/-- Every index the buffer's cursor and length give lies in `DLYBUF[u]` (20_memory.md R67; log 10). -/
def delayInSpace (cfg : Config) (f : Delay) : Bool := f.w < cfg.dlyCapMax && f.cap ≤ cfg.dlyCapMax

/-- The element for a logical position, any integer: the least non-negative residue (20_memory.md R66). -/
def ringIndex (cap : Nat) (p : Int) : Nat := (p % (cap : Int)).toNat

/-- `DelayWrite(D, x)` (46_delay.md R201): store at the cursor, advance it modulo the capacity. -/
def delayWrite (f : Delay) (x : F32) : Delay :=
  { f with buf := f.buf.write f.w x, w := ringIndex f.cap (f.w + 1) }

/-- The sample `i` places behind the newest one (46_delay.md R202). -/
def delaySample (f : Delay) (i : Nat) : F32 := f.buf.read (ringIndex f.cap ((f.w : Int) - 1 - i))

/-- The linear blend at offset `o` samples behind the newest sample (46_delay.md R202). -/
def delayBlend (d : Draw) (f : Delay) (o : F32) : F32 :=
  let i := intOf (ffloor d o)
  let x0 := delaySample f i
  let x1 := delaySample f (i + 1)
  fadd d x0 (fmul d (fsub d o (f32 i)) (fsub d x1 x0))

/-- The offset lies in `0 <= o < cap - 1` (46_delay.md R202). DEDUCED, log 24: the test is on the rounded product, as in
the pseudocode of R202, so a negative time whose product rounds to `-0.0` is in range, where 70_reset_and_hazards.md
R319 says that a negative time always faults. -/
def delayInRange (f : Delay) (o : F32) : Bool := fle 0 o && flt o (f32 (f.cap - 1))

/-- `DelayRead(D, t)` (46_delay.md R202); `none` is the verdict OUT_OF_RANGE. -/
def delayRead (d : Draw) (f : Delay) (t : F32) : Option F32 :=
  let o := fmul d t f.scale
  if delayInRange f o then some (delayBlend d f o) else none

/-- `DLY.WR u` (46_delay.md R201). -/
def dlyWrBody (u : Nat) (s : State) : Result :=
  withOperand .a0 s.a0 fun x =>
    withUnit s.dly u fun f =>
      if delayInSpace s.cfg f then .next (s.setDly u (delayWrite f x)) else .fault .outOfSpace

/-- `DLY.RD u, mode` past its checks (46_delay.md R203). -/
def dlyRdBody (u mode : Nat) (s : State) : Result :=
  withOperand .a0 s.a0 fun t =>
    withUnit s.dly u fun f =>
      if delayInSpace s.cfg f then
        match delayRead s.draw f t with
        | some v => .next (s.writeR v).spend
        | none => .next (raise .dlyRange (encode (.dlyRd u mode)) s)
      else .fault .outOfSpace

/-- `DLY.WR u` (46_delay.md R201). -/
def execDlyWr (u : Nat) (s : State) : Result := command (.dlyWr u) s (dlyWrBody u)

/-- `DLY.RD u, mode` (46_delay.md R203). -/
def execDlyRd (u mode : Nat) (s : State) : Result := command (.dlyRd u mode) s (dlyRdBody u mode)

end Sys2Proof.Machine
end

