-- ==== Sys2Proof/Machine/Fir.lean ====
section
/-! DEFINITION. The polyphase FIR filter: FIR.NEW and FIR.PROC (40_fir.md). -/

namespace Sys2Proof.Machine

/-- The first `k` elements of `FIRCOEF[u]` as `CFG.C[u]` has them (40_fir.md R121; 20_memory.md R73). -/
def coefTable (cfg : Config) (u : Nat) : Nat → Memory
  | 0 => []
  | k + 1 => (coefTable cfg u k).writeVec cfg.n k (vecOf cfg.n (coefOf cfg u k))

/-- FIR unit `u` constructed with length `len` (40_fir.md R121; 48_engine.md R243): no history, index 0, the
coefficients of `CFG.C[u]`. -/
def newFir (cfg : Config) (u len : Nat) : Fir :=
  { len := len, idx := 0, buf := [], c := coefTable cfg u cfg.lMax }

/-- Lane `j` of the dot product over the first `k` entries in time order, the oldest at `start`, accumulated from
`+0.0` (40_fir.md R122; 00_scope.md R14; 20_memory.md R65). -/
def firDot (d : Draw) (n : Nat) (f : Fir) (start j : Nat) : Nat → F32
  | 0 => 0
  | k + 1 =>
    fadd (k :: j :: d) (firDot d n f start j k)
      (fmul (k :: j :: d) (f.c.readLane n k j) (f.buf.readLane n ((start + k) &&& (f.len - 1)) j))

/-- The unit after the input `v` is written at the current index and the index has advanced (40_fir.md R122). -/
def firPush (cfg : Config) (f : Fir) (v : Lanes) : Fir :=
  { f with idx := (f.idx + 1) &&& (f.len - 1), buf := f.buf.writeVec cfg.n f.idx v }

/-- `FirStep(u, V)` (40_fir.md R122; 41_oversampler.md): the unit after the call and the accumulated vector.
`none` when an index would leave its space (20_memory.md R67; log 10). -/
def firStep (cfg : Config) (d : Draw) (f : Fir) (v : Lanes) : Option (Fir × Lanes) :=
  if f.idx < cfg.lMax ∧ f.len ≤ cfg.lMax then
    let g := firPush cfg f v
    some (g, vecOf cfg.n fun j => firDot d cfg.n g g.idx j f.len)
  else none

/-- Run one `process` call of FIR unit `u` on `v`; `k` gets the state with the unit updated and the result. -/
def withFirStep (u : Nat) (v : Lanes) (s : State) (k : State → Lanes → Result) : Result :=
  withUnit s.fir u fun f =>
    match firStep s.cfg s.draw f v with
    | some (g, out) => k (s.setFir u g) out
    | none => .fault .outOfSpace

/-- `FIR.NEW u, len` past its checks (40_fir.md R121). -/
def firNewBody (u len : Nat) (s : State) : Result :=
  withUnit s.fir u fun _ => .next (s.setFir u (newFir s.cfg u len))

/-- `FIR.PROC u` (40_fir.md R122). -/
def firProcBody (u : Nat) (s : State) : Result :=
  withLanes .va s.va fun v => withFirStep u v s fun t out => .next (t.writeVr out).spend

/-- `FIR.NEW u, len` (40_fir.md R121). Its faults `E_FIRLEN` and `E_ILLEGAL` are `fieldCheck`'s. -/
def execFirNew (u len : Nat) (s : State) : Result := command (.firNew u len) s (firNewBody u len)

/-- `FIR.PROC u` (40_fir.md R122). -/
def execFirProc (u : Nat) (s : State) : Result := command (.firProc u) s (firProcBody u)

end Sys2Proof.Machine
end

