-- ==== Sys2Proof/Machine/Engine.lean ====
section
/-! DEFINITION. Engine construction: ENG.NEW (48_engine.md R242, R243). -/

namespace Sys2Proof.Machine

/-- `K1 = (1 / fs) / 2` (48_engine.md R242). -/
def engineK1 (d : Draw) (fs : F32) : F32 := fdiv d (fdiv d one32 fs) two32

/-- `W = (-2 * PI32) / fs` (48_engine.md R242). DEDUCED, log 26: for an extreme legal `MAX_DELAY_S` the division of this
pseudocode overflows to `-inf` at an `fs` that passes R243's checks, where R243 says that `W` is finite for every
accepted `fs`; a cutoff of zero then gives a NaN pole, where 44_onepole.md R172 concludes `0 <= b1 <= 1`. -/
def engineW (d : Draw) (fs : F32) : F32 := fdiv d (fmul d negTwo32 pi32) fs

/-- `scale = fs / 1000` (48_engine.md R242). -/
def engineScale (d : Draw) (fs : F32) : F32 := fdiv d fs thousand32

/-- `capf = floor(fs * MAX_DELAY_S)` (48_engine.md R242, R243). -/
def engineCapf (cfg : Config) (d : Draw) (fs : F32) : F32 := ffloor d (fmul d fs cfg.maxDelayS)

/-- The checks of `ENG.NEW` in their order (48_engine.md R243; 60_exceptions.md R264). -/
def engineCheck (cfg : Config) (d : Draw) (fs : F32) : Option Cause :=
  if flt 0 fs = false ∨ isInf fs then some .fs
  else if isPow2 cfg.l = false then some .firLen
  else if fle two32 (engineCapf cfg d fs) && fle (engineCapf cfg d fs) (f32 cfg.dlyCapMax) then none
  else some .cap

/-- An analog filter stage after CONSTRUCT (10_state.md R30). -/
def newAfs : Afs := ⟨0, 0, 0, 0, 0, 0, 0, 0, 0, 0, 0, OnePole.zero⟩

/-- A repeat engine after CONSTRUCT (10_state.md R35). -/
def newRpt : RepeatUnit := ⟨TapSet.zero, TapSet.zero, ⟨0, 0, 0⟩⟩

/-- CONSTRUCT (10_state.md R40; 48_engine.md R243): the engine constants, every unit, ST and FCMD. The port
registers keep what they hold. -/
def construct (fs : F32) (s : State) : State :=
  { s with
    fs := fs
    k1 := engineK1 s.draw fs
    k2 := fmul s.draw (engineK1 s.draw fs) (engineK1 s.draw fs)
    k3 := fmul s.draw (fmul s.draw (engineK1 s.draw fs) (engineK1 s.draw fs)) (engineK1 s.draw fs)
    w := engineW s.draw fs
    fir := (List.range s.cfg.nFir).map fun u => newFir s.cfg u s.cfg.l
    afs := List.replicate s.cfg.nAfs newAfs
    opf := List.replicate s.cfg.nOpf OnePole.zero
    exs := List.replicate s.cfg.nExs ⟨OnePole.zero⟩
    rmp := List.replicate s.cfg.nRmp ⟨0, 0, 0, 0⟩
    dly := List.replicate s.cfg.nDly ⟨intOf (engineCapf s.cfg s.draw fs), 0, engineScale s.draw fs, []⟩
    rpt := List.replicate s.cfg.nRpt newRpt
    st := stConstructed s.st
    fcmd := 0 }

/-- `ENG.NEW` (48_engine.md R243). -/
def engNewBody (s : State) : Result :=
  withOperand .a0 s.a0 fun fs =>
    match engineCheck s.cfg s.draw fs with
    | some e => .next (raise e (encode .engNew) s)
    | none => .next (construct fs s).spend

/-- `ENG.NEW` (48_engine.md R243). -/
def execEngNew (s : State) : Result := command .engNew s engNewBody

end Sys2Proof.Machine
end

