-- ==== Sys2Proof/Machine/Waveshaper.lean ====
section
/-! DEFINITION. The nonlinear waveshaper: WS.RAT and WS.DIODE (42_waveshaper.md). -/

namespace Sys2Proof.Machine

/-- `a = (x + c1 * x3) + c3 * x5` (42_waveshaper.md R142). -/
def ratNumerator (c1 c3 : F32) (d : Draw) (x : F32) : F32 :=
  let x2 := fmul d x x
  let x3 := fmul d x2 x
  let x5 := fmul d x3 x2
  fadd d (fadd d x (fmul d c1 x3)) (fmul d c3 x5)

/-- The rational polynomial saturator of one lane (42_waveshaper.md R142). -/
def ratShape (c1 c3 : F32) (d : Draw) (x : F32) : F32 :=
  let a := ratNumerator c1 c3 d x
  fdiv d a (fsqrt d (fadd d one32 (fmul d a a)))

/-- The value of the half-table at position `p` (42_waveshaper.md R144): NaN in, NaN out; clamped to the last
entry; else interpolated between neighbours. -/
def diodeAt (cfg : Config) (d : Draw) (p : F32) : F32 :=
  if fne p p then p
  else if fle (f32 (cfg.dtTab.length - 1)) p then cfg.dtTab.getD (cfg.dtTab.length - 1) 0
  else
    let i := intOf (ffloor d p)
    let f := fsub d p (f32 i)
    let lo := cfg.dtTab.getD i 0
    let hi := cfg.dtTab.getD (i + 1) 0
    fadd d lo (fmul d f (fsub d hi lo))

/-- The diode-table interpolation of one lane (42_waveshaper.md R144). -/
def diodeShape (cfg : Config) (d : Draw) (x : F32) : F32 :=
  fcopysign (diodeAt cfg d (fmul d (fabs x) cfg.dtScale)) x

/-- `WS.RAT` (42_waveshaper.md R142): every lane of VA shaped into VR. -/
def wsRatBody (s : State) : Result :=
  withLanes .va s.va fun v =>
    .next (s.writeVr (vecOf s.cfg.n fun j => ratShape s.cfg.wsC1 s.cfg.wsC3 (j :: s.draw) (lane v j))).spend

/-- `WS.DIODE` (42_waveshaper.md R144): every lane of VA shaped into VR. -/
def wsDiodeBody (s : State) : Result :=
  withLanes .va s.va fun v =>
    .next (s.writeVr (vecOf s.cfg.n fun j => diodeShape s.cfg (j :: s.draw) (lane v j))).spend

/-- `WS.RAT` (42_waveshaper.md R142). -/
def execWsRat (s : State) : Result := command .wsRat s wsRatBody

/-- `WS.DIODE` (42_waveshaper.md R144). -/
def execWsDiode (s : State) : Result := command .wsDiode s wsDiodeBody

end Sys2Proof.Machine
end

