-- ==== Sys2Proof/Machine/Oversampler.lean ====
section
/-! DEFINITION. The oversampler: OVS.UP, OVS.DN and OVS.PROC (41_oversampler.md). Oversampler `o` uses FIR unit
`2 * o` up and `2 * o + 1` down (00_scope.md R8). -/

namespace Sys2Proof.Machine

/-- `hsum(V)`: from `+0.0`, lanes in ascending order (00_scope.md R14). -/
def hsum (d : Draw) (n : Nat) (v : Lanes) : F32 :=
  (List.range n).foldl (fun acc j => fadd (j :: d) acc (lane v j)) 0

/-- `OVS.UP o` (41_oversampler.md R131). -/
def ovsUpBody (o : Nat) (s : State) : Result :=
  withOperand .a0 s.a0 fun x =>
    withFirStep (2 * o) (splat s.cfg.n (fmul s.draw x (f32 s.cfg.n))) s fun t out => .next (t.writeVr out).spend

/-- `OVS.DN o` (41_oversampler.md R132). -/
def ovsDnBody (o : Nat) (s : State) : Result :=
  withLanes .va s.va fun v =>
    withFirStep (2 * o + 1) v s fun t out =>
      .next ((t.writeVr out).writeR (fmul s.draw (hsum s.draw s.cfg.n out) (gOvsOf s.cfg o))).spend

/-- `VA <- VR`, the transfer between the parts of `OVS.PROC` (41_oversampler.md R133). -/
def vaFromVr (s : State) : State := s.writeVa s.vr.lanes

/-- `OVS.PROC o, fn` (41_oversampler.md R133): the three parts in sequence. -/
def ovsProcBody (o fn : Nat) (s : State) : Result :=
  (ovsUpBody o s).andThen fun t =>
    Result.andThen (if fn = 0 then wsRatBody (vaFromVr t) else wsDiodeBody (vaFromVr t)) fun t' =>
      ovsDnBody o (vaFromVr t')

/-- `OVS.UP o` (41_oversampler.md R131). -/
def execOvsUp (o : Nat) (s : State) : Result := command (.ovsUp o) s (ovsUpBody o)

/-- `OVS.DN o` (41_oversampler.md R132). -/
def execOvsDn (o : Nat) (s : State) : Result := command (.ovsDn o) s (ovsDnBody o)

/-- `OVS.PROC o, fn` (41_oversampler.md R133). -/
def execOvsProc (o fn : Nat) (s : State) : Result := command (.ovsProc o fn) s (ovsProcBody o fn)

end Sys2Proof.Machine
end

