-- ==== Sys2Proof/Machine/RepeatEngine.lean ====
section
/-! DEFINITION. The repeat engine: RPT.PROC and RPT.INIT (47_repeat.md). Engine `u` drives delay buffer `u`
(00_scope.md R8). -/

namespace Sys2Proof.Machine

/-- The recursive branch of `TapTime` after `i` rounds, with `r = 2^skew` (47_repeat.md R211). -/
def tapTimeFrom (d : Draw) (r time : F32) : Nat → F32
  | 0 => 0
  | i + 1 => fadd (i :: d) (fmul (i :: d) (fpow (i :: d) r (f32 i)) time) (tapTimeFrom d r time i)

/-- `TapTime(index, T, skew)` (47_repeat.md R211). DEDUCED, log 27: R211 says that a NaN skew gives NaN times; in the
first round of its pseudocode the power is `fpow(NaN, +0.0)`, which 00_scope.md NUM-P6 and 93 U10 leave to `CFG.NUM`, so
the time of tap 1 is then that free value's. -/
def tapTime (d : Draw) (index : Nat) (time skew : F32) : F32 :=
  if index = 0 then 0
  else if feq skew 0 then fmul d time (f32 index)
  else tapTimeFrom d (fpow d two32 skew) time index

/-- `TapGain(index, fb, count)` (47_repeat.md R212). DEDUCED, log 28: R212 says that tap 0 has gain 1 when `fb >= 0`, by
NUM-P3; at an infinite feedback the power is `fpow(+inf, +0.0)`, of which NUM-P3 does not speak, so that gain is free. -/
def tapGain (cfg : Config) (d : Draw) (index : Nat) (fb : F32) (count : Nat) : F32 :=
  if feq (fabs fb) one32 then one32
  else
    fpow d (if flt (fabs fb) cfg.fbMin then cfg.fbMin else fabs fb)
      (f32 (if fle 0 fb then index else count - index - 1))

/-- What tap `index` of a set hears (47_repeat.md R216): the input, or the delay buffer at the tap's time. -/
def tapSample (d : Draw) (q : TapSet) (input : F32) (f : Delay) (index : Nat) : Option F32 :=
  if index = 0 then some input else delayRead d f (tapTime d index q.time q.skew)

/-- `Taps(S, input, D)` over the first taps, in ascending order from `+0.0` (47_repeat.md R216; 00_scope.md R14).
`none` is OUT_OF_RANGE. -/
def tapsUpTo (cfg : Config) (d : Draw) (q : TapSet) (input : F32) (f : Delay) : Nat → Option F32
  | 0 => some 0
  | index + 1 =>
    match tapsUpTo cfg d q input f index, tapSample (index :: d) q input f index with
    | some acc, some x =>
      some (fadd (index :: d) acc (fmul (index :: d) (tapGain cfg (index :: d) index q.fb q.count) x))
    | _, _ => none

/-- `Taps(S, input, D)` (47_repeat.md R216). -/
def taps (cfg : Config) (d : Draw) (q : TapSet) (input : F32) (f : Delay) : Option F32 :=
  tapsUpTo cfg d q input f q.count

/-- Equality of tap sets by value (10_state.md R36): IEEE `==` on the three binary32 fields. -/
def tapSetEq (q q' : TapSet) : Bool :=
  q.count == q'.count && feq q.time q'.time && feq q.fb q'.fb && feq q.skew q'.skew

/-- Change detection (47_repeat.md R217, R218 part 1): a set that differs from the one in effect starts a fade, but
only while none is in progress. -/
def rptDetect (cfg : Config) (d : Draw) (e : RepeatUnit) (q : TapSet) : RepeatUnit :=
  if e.xf.cnt = 0 ∧ tapSetEq q e.cur = false then
    { prev := e.cur, cur := q, xf := ⟨0, fdiv d one32 (f32 cfg.xfadeSamples), cfg.xfadeSamples⟩ }
  else e

/-- The fade advanced by one sample (47_repeat.md R218 part 3): the phase moves before it is used (R219). -/
def fadeAdvance (d : Draw) (x : Fade) : Fade := { x with cnt := x.cnt - 1, p := fadd d x.p x.step }

/-- The crossfade window (47_repeat.md R219): `cos²` of the phase on the old output, `sin²` on the new. -/
def fadeBlend (d : Draw) (p old new : F32) : F32 :=
  let theta := fmul d p halfPi32
  let c := fcos d theta
  let z := fsin d theta
  fadd d (fmul d old (fmul d c c)) (fmul d new (fmul d z z))

/-- Evaluation (47_repeat.md R218 part 3) of an engine after change detection, against the buffer `f` that holds
the present input already: the engine and the output. `none` if any tap is OUT_OF_RANGE. -/
def rptEvaluate (cfg : Config) (d : Draw) (e : RepeatUnit) (input : F32) (f : Delay) : Option (RepeatUnit × F32) :=
  if 0 < e.xf.cnt then
    let x := fadeAdvance d e.xf
    match taps cfg (0 :: d) e.prev input f, taps cfg (1 :: d) e.cur input f with
    | some old, some new => some ({ e with xf := x }, fadeBlend d x.p old new)
    | _, _ => none
  else
    match taps cfg (1 :: d) e.cur input f with
    | some out => some (e, out)
    | none => none

/-- `RPT.PROC u, count` past its checks (47_repeat.md R218): detect, write the input, evaluate, and only then
commit. -/
def rptProcBody (u count : Nat) (s : State) : Result :=
  withOperand .a0 s.a0 fun input =>
    withOperand .a1 s.a1 fun time =>
      withOperand .a2 s.a2 fun fb =>
        withOperand .a3 s.a3 fun skew =>
          withUnit s.rpt u fun e =>
            withUnit s.dly u fun f =>
              if delayInSpace s.cfg f then
                let g := delayWrite f input
                match rptEvaluate s.cfg s.draw (rptDetect s.cfg s.draw e ⟨count, time, fb, skew⟩) input g with
                | some (e', out) => .next (((s.setRpt u e').setDly u g).writeR out).spend
                | none => .next (raise .dlyRange (encode (.rptProc u count)) s)
              else .fault .outOfSpace

/-- `RPT.INIT u, count` past its checks (47_repeat.md R221): the set in effect at once, no fade. -/
def rptInitBody (u count : Nat) (s : State) : Result :=
  withOperand .a1 s.a1 fun time =>
    withOperand .a2 s.a2 fun fb =>
      withOperand .a3 s.a3 fun skew =>
        withUnit s.rpt u fun _ =>
          .next (s.setRpt u ⟨⟨count, time, fb, skew⟩, ⟨count, time, fb, skew⟩, ⟨0, 0, 0⟩⟩)

/-- `RPT.PROC u, count` (47_repeat.md R218). -/
def execRptProc (u count : Nat) (s : State) : Result := command (.rptProc u count) s (rptProcBody u count)

/-- `RPT.INIT u, count` (47_repeat.md R221). -/
def execRptInit (u count : Nat) (s : State) : Result := command (.rptInit u count) s (rptInitBody u count)

end Sys2Proof.Machine
end

