-- ==== Sys2Proof/Machine/Smoothers.lean ====
section
/-! DEFINITION. The parameter smoothers: RMP.SET, RMP.STEP, RMP.PROC, RMP.INIT, EXS.PROC and EXS.INIT
(45_smoothers.md). -/

namespace Sys2Proof.Machine

/-- `set(t)` of a ramp whose full length is `rs` (45_smoothers.md R181). -/
def rampSet (rs : Nat) (d : Draw) (t : F32) (f : Ramp) : Ramp :=
  if fne t f.tgt then { f with step := fdiv d (fsub d t f.cur) (f32 rs), cnt := rs, tgt := t } else f

/-- `process` of a ramp (45_smoothers.md R182); the value it returns is `cur`. -/
def rampStep (d : Draw) (f : Ramp) : Ramp :=
  if 0 < f.cnt then { f with cnt := f.cnt - 1, cur := fadd d f.cur f.step } else f

/-- A ramp put at a value with no ramp (45_smoothers.md R184). -/
def rampAt (x : F32) : Ramp := ⟨x, x, 0, 0⟩

/-- `RMP.SET u` (45_smoothers.md R181). -/
def rmpSetBody (u : Nat) (s : State) : Result :=
  withOperand .a0 s.a0 fun t =>
    withUnit s.rmp u fun f => .next (s.setRmp u (rampSet (rampSamplesOf s.cfg u) s.draw t f)).spend

/-- `RMP.STEP u` (45_smoothers.md R182). -/
def rmpStepBody (u : Nat) (s : State) : Result :=
  withUnit s.rmp u fun f =>
    let g := rampStep s.draw f
    .next ((s.setRmp u g).writeR g.cur).spend

/-- `RMP.PROC u` (45_smoothers.md R183): `RMP.SET` then `RMP.STEP`. -/
def rmpProcBody (u : Nat) (s : State) : Result := (rmpSetBody u s).andThen (rmpStepBody u)

/-- `RMP.INIT u` (45_smoothers.md R184). -/
def rmpInitBody (u : Nat) (s : State) : Result :=
  withOperand .a0 s.a0 fun x => withUnit s.rmp u fun _ => .next (s.setRmp u (rampAt x))

/-- `EXS.PROC u` (45_smoothers.md R186). -/
def exsProcBody (u : Nat) (s : State) : Result :=
  withOperand .a0 s.a0 fun x =>
    withUnit s.exs u fun f =>
      let g := onePole s.w s.draw f.op x (exsFcOf s.cfg u)
      .next ((s.setExs u ⟨g⟩).writeR g.z).spend

/-- `EXS.INIT u` (45_smoothers.md R187): only `z`; the cached pole stays. -/
def exsInitBody (u : Nat) (s : State) : Result :=
  withOperand .a0 s.a0 fun x => withUnit s.exs u fun f => .next (s.setExs u ⟨{ f.op with z := x }⟩)

/-- `RMP.SET u` (45_smoothers.md R181). -/
def execRmpSet (u : Nat) (s : State) : Result := command (.rmpSet u) s (rmpSetBody u)

/-- `RMP.STEP u` (45_smoothers.md R182). -/
def execRmpStep (u : Nat) (s : State) : Result := command (.rmpStep u) s (rmpStepBody u)

/-- `RMP.PROC u` (45_smoothers.md R183). -/
def execRmpProc (u : Nat) (s : State) : Result := command (.rmpProc u) s (rmpProcBody u)

/-- `RMP.INIT u` (45_smoothers.md R184). -/
def execRmpInit (u : Nat) (s : State) : Result := command (.rmpInit u) s (rmpInitBody u)

/-- `EXS.PROC u` (45_smoothers.md R186). -/
def execExsProc (u : Nat) (s : State) : Result := command (.exsProc u) s (exsProcBody u)

/-- `EXS.INIT u` (45_smoothers.md R187). -/
def execExsInit (u : Nat) (s : State) : Result := command (.exsInit u) s (exsInitBody u)

end Sys2Proof.Machine
end

