-- ==== Sys2Proof/Machine/Dispatch.lean ====
section
/-! DEFINITION. The meaning of every command: one arm per constructor of Instr, one meaning per arm. -/

namespace Sys2Proof.Machine

def exec (i : Instr) (s : State) : Host.Outcome State Fault Refusal :=
  match i with
  | .engNew => Sys2Proof.Machine.execEngNew s
  | .firNew u len => Sys2Proof.Machine.execFirNew u len s
  | .firProc u => Sys2Proof.Machine.execFirProc u s
  | .ovsUp o => Sys2Proof.Machine.execOvsUp o s
  | .ovsDn o => Sys2Proof.Machine.execOvsDn o s
  | .ovsProc o fn => Sys2Proof.Machine.execOvsProc o fn s
  | .wsRat => Sys2Proof.Machine.execWsRat s
  | .wsDiode => Sys2Proof.Machine.execWsDiode s
  | .afsCoef u => Sys2Proof.Machine.execAfsCoef u s
  | .afsStep u => Sys2Proof.Machine.execAfsStep u s
  | .afsProc u => Sys2Proof.Machine.execAfsProc u s
  | .opfProc u => Sys2Proof.Machine.execOpfProc u s
  | .rmpSet u => Sys2Proof.Machine.execRmpSet u s
  | .rmpStep u => Sys2Proof.Machine.execRmpStep u s
  | .rmpProc u => Sys2Proof.Machine.execRmpProc u s
  | .rmpInit u => Sys2Proof.Machine.execRmpInit u s
  | .exsProc u => Sys2Proof.Machine.execExsProc u s
  | .exsInit u => Sys2Proof.Machine.execExsInit u s
  | .dlyWr u => Sys2Proof.Machine.execDlyWr u s
  | .dlyRd u mode => Sys2Proof.Machine.execDlyRd u mode s
  | .rptProc u count => Sys2Proof.Machine.execRptProc u count s
  | .rptInit u count => Sys2Proof.Machine.execRptInit u count s

end Sys2Proof.Machine
end

