-- ==== Sys2Proof/Machine/HostPort.lean ====
section
/-! DEFINITION. The host's side of the port: WRITE, READ and the copies of 30_encoding.md R97
(70_reset_and_hazards.md R303; log 7). None of them advances pc (R97). -/

namespace Sys2Proof.Machine

/-- `WRITE(reg, x)` of a scalar operand register (70_reset_and_hazards.md R303). -/
def hostWrite (reg : OperandReg) (x : F32) (s : State) : State :=
  match reg with
  | .a0 => { s with a0 := ⟨x, true⟩ }
  | .a1 => { s with a1 := ⟨x, true⟩ }
  | .a2 => { s with a2 := ⟨x, true⟩ }
  | .a3 => { s with a3 := ⟨x, true⟩ }

/-- The scalar port register of a name (10_state.md R20). -/
def scalarPort (s : State) : ScalarReg → Port
  | .a0 => s.a0
  | .a1 => s.a1
  | .a2 => s.a2
  | .a3 => s.a3
  | .r => s.r

/-- The value a scalar register shows the host: its own, or a free one while nothing has written it (log 13). -/
def scalarShown (s : State) (p : Port) : F32 := if p.written then p.val else Config.unwrittenWord s.draw

/-- The lanes a vector register shows the host (log 13). -/
def lanesShown (s : State) (p : VecPort) : Lanes :=
  if p.written then p.lanes else vecOf s.cfg.n fun j => Config.unwrittenWord (j :: s.draw)

/-- The words of a register as the host reads them (70_reset_and_hazards.md R303; 10_state.md R24). -/
def portWords (s : State) : PortReg → List Word
  | .a0 => [scalarShown s s.a0]
  | .a1 => [scalarShown s s.a1]
  | .a2 => [scalarShown s s.a2]
  | .a3 => [scalarShown s s.a3]
  | .r => [scalarShown s s.r]
  | .va => lanesShown s s.va
  | .vr => lanesShown s s.vr
  | .st => [stRead s.st]
  | .fcmd => [s.fcmd]

/-- `READ(reg)`: nothing changes but what the host knows (70_reset_and_hazards.md R303). -/
def hostRead (reg : PortReg) (s : State) : State :=
  State.spend { s with obs := ⟨reg, portWords s reg⟩ :: s.obs }

/-- `WRITE(VA, lanes)`: exactly `N` lanes (30_encoding.md R97; log 21). -/
def hostWriteVa (lanes : Lanes) (s : State) : Result :=
  if lanes.length = s.cfg.n then .next (s.writeVa lanes) else .refused .laneCount

/-- `reg = src` (30_encoding.md R97). -/
def hostCopy (reg : OperandReg) (src : ScalarReg) (s : State) : State :=
  (hostWrite reg (scalarShown s (scalarPort s src)) s).spend

/-- `VA = VR` (30_encoding.md R97). -/
def hostCopyVa (s : State) : State := (s.writeVa (lanesShown s s.vr)).spend

end Sys2Proof.Machine
end

