-- ==== Sys2Proof/Machine/Legality.lean ====
section
/-! DEFINITION. When CFG is legal: the constraints of the parameter table of 00_scope.md R7 on the plain-data
fields, and that each table has an entry for every unit. `L` need not be a power of two, whatever its size: that is
the fault E_FIRLEN of ENG.NEW (93 U11; log 11). -/

namespace Sys2Proof.Machine

/-- Finite and `>= 0`. -/
def isFiniteNonneg (x : F32) : Bool := isFinite x && fle 0 x

/-- Finite and `> 0`. -/
def isFinitePos (x : F32) : Bool := isFinite x && flt 0 x

/-- `1 <= n < 2^24`. -/
def isSmallPos (n : Nat) : Bool := 0 < n && n < 2 ^ 24

/-- Each entry is `<=` the next. -/
def nonDecreasing : List F32 → Bool
  | [] => true
  | [_] => true
  | x :: y :: rest => fle x y && nonDecreasing (y :: rest)

/-- The length `L` (R7), a power of two, is at most `L_MAX`. DESIGN CHOICE, log 11: an `L` that is no power of two is
admitted whatever its size, 0 and a value above `L_MAX` too. R7's range `1 <= L <= L_MAX` would refuse those, while 93
U11, 48_engine.md R243 and 60_exceptions.md R261 give every `L` that is no power of two the fault `E_FIRLEN`. -/
def legalLength (cfg : Config) : Bool := !isPow2 cfg.l || cfg.l ≤ cfg.lMax

/-- The lane count and the FIR tables (R7). DESIGN CHOICE, log 29: 20_memory.md R69 says that every length and index is
below `2^24`, while R7 gives `L_MAX` no upper bound; the constraint column of R7 is followed, so an `L_MAX` of `2^24` or
more is legal, and lengths and indices of FIR units are then unbounded naturals. -/
def legalFir (cfg : Config) : Bool :=
  [2, 4, 8, 16].contains cfg.n && legalLength cfg && isPow2 cfg.lMax &&
  cfg.c.length == cfg.nFir &&
  cfg.c.all (fun t => t.length == cfg.lMax && t.all fun v => v.length == cfg.n && v.all isFinite) &&
  cfg.gOvs.length == cfg.nOvs && cfg.gOvs.all isFinite

/-- The waveshaper constants (R7). -/
def legalShape (cfg : Config) : Bool :=
  isFiniteNonneg cfg.wsC1 && isFiniteNonneg cfg.wsC3 &&
  2 ≤ cfg.dtTab.length && cfg.dtTab.length < 2 ^ 24 && cfg.dtTab.head? == some 0 && nonDecreasing cfg.dtTab &&
  cfg.dtTab.all isFinite && isFinitePos cfg.dtScale

/-- The filters, smoothers, delay and repeat parameters (R7). -/
def legalSmooth (cfg : Config) : Bool :=
  cfg.afsRef.length == cfg.nAfs && cfg.afsRef.all isFinite &&
  cfg.rampSamples.length == cfg.nRmp && cfg.rampSamples.all isSmallPos &&
  cfg.exsFc.length == cfg.nExs && cfg.exsFc.all isFiniteNonneg &&
  isFinitePos cfg.maxDelayS && 2 ≤ cfg.dlyCapMax && cfg.dlyCapMax < 2 ^ 24 && isSmallPos cfg.xfadeSamples &&
  isFinitePos cfg.fbMin && flt cfg.fbMin one32 && 0 < cfg.rptMaxTaps && cfg.rptMaxTaps ≤ 65535

/-- The unit counts (R7). -/
def legalCounts (cfg : Config) : Bool :=
  cfg.nFir == 2 * cfg.nOvs && cfg.nRpt ≤ cfg.nDly &&
  [cfg.nFir, cfg.nOvs, cfg.nAfs, cfg.nOpf, cfg.nRmp, cfg.nExs, cfg.nDly, cfg.nRpt].all (· ≤ 256)

/-- A legal CFG (R7; 93 U11). -/
def legalConfig (cfg : Config) : Bool := legalFir cfg && legalShape cfg && legalSmooth cfg && legalCounts cfg

end Sys2Proof.Machine
end

