-- ==== Sys2Proof/Machine/Step.lean ====
section
/-! DEFINITION. One step of the machine: the next host action (70_reset_and_hazards.md R303; log 7). -/

namespace Sys2Proof.Machine

/-- The core runs one command word to its end (60_exceptions.md R263). -/
def issueWord (w : Word) (s : State) : Host.Outcome State Fault Refusal :=
  match decode w with
  | .ok i => exec i s
  | .error _ => illegalWord w s

/-- Take the next host action off the inbox and do it; with none, the core waits (70_reset_and_hazards.md R302;
log 8). A CFG that is not legal is outside the model (93 U11; log 11). -/
def step (s : State) : Host.Outcome State Fault Refusal :=
  if legalConfig s.cfg then
    match s.inbox with
    | [] => .next s
    | .write reg x :: rest => .next (hostWrite reg x { s with inbox := rest })
    | .writeVa lanes :: rest => hostWriteVa lanes { s with inbox := rest }
    | .copy reg src :: rest => .next (hostCopy reg src { s with inbox := rest })
    | .copyVa :: rest => .next (hostCopyVa { s with inbox := rest })
    | .issue w :: rest => issueWord w { s with inbox := rest }
    | .read reg :: rest => .next (hostRead reg { s with inbox := rest })
  else .refused .illegalConfig

/-- The host issues this word next (log 7). -/
def State.withFetchWord (s : State) (nbits w : Nat) : State :=
  { s with inbox := .issue (BitVec.ofNat 32 (w % 2 ^ nbits)) :: s.inbox }

end Sys2Proof.Machine
end

