-- ==== Sys2Proof/Safety.lean ====
section
/-! DEFINITION. What a good state is, in the terms claims use: the invariants of 10_state.md R39, of the status
register (R24, R25), of the spaces (20_memory.md R67) and of the canonical form of memory (log 9). -/

namespace Sys2Proof.Machine

/-- Every listed index lies below `size`. -/
def Memory.fits (m : Memory) (size : Nat) : Prop := ∀ p ∈ m, p.1 < size

/-- The status register and FCMD (10_state.md R24, R25; 60_exceptions.md R261): the reserved bits are 0, CFG and
FAULT are never both set, CAUSE and FCMD are 0 without a fault, and CAUSE is a code of the table with one. -/
structure StatusGood (s : State) : Prop where
  reserved : s.st &&& 0xFFFFFF0C = 0
  exclusive : s.isConfigured = true → s.isFaulted = false
  noFault : s.isFaulted = false → s.cause = 0 ∧ s.fcmd = 0
  fault : s.isFaulted = true → 1 ≤ s.cause ∧ s.cause ≤ 6

/-- The unit files have a record for every unit, and the vector registers have `N` lanes (00_scope.md R7, R8;
10_state.md R21). -/
structure FilesGood (s : State) : Prop where
  fir : s.fir.length = s.cfg.nFir
  afs : s.afs.length = s.cfg.nAfs
  opf : s.opf.length = s.cfg.nOpf
  rmp : s.rmp.length = s.cfg.nRmp
  exs : s.exs.length = s.cfg.nExs
  dly : s.dly.length = s.cfg.nDly
  rpt : s.rpt.length = s.cfg.nRpt
  va : s.va.lanes.length = s.cfg.n
  vr : s.vr.lanes.length = s.cfg.n

/-- Every space is in canonical form and lists no index outside it (20_memory.md R60, R67). -/
structure SpacesGood (s : State) : Prop where
  firBuf : ∀ f ∈ s.fir, f.buf.wf = true ∧ f.buf.fits (s.cfg.lMax * s.cfg.n)
  firCoef : ∀ f ∈ s.fir, f.c.wf = true ∧ f.c.fits (s.cfg.lMax * s.cfg.n)
  dlyBuf : ∀ f ∈ s.dly, f.buf.wf = true ∧ f.buf.fits s.cfg.dlyCapMax

/-- `FIR[u]` (10_state.md R28, R39). -/
def firGood (cfg : Config) (f : Fir) : Prop := isPow2 f.len = true ∧ f.len ≤ cfg.lMax ∧ f.idx < f.len

/-- `DLY[u]` (10_state.md R34, R39). -/
def delayGood (cfg : Config) (f : Delay) : Prop := 2 ≤ f.cap ∧ f.cap ≤ cfg.dlyCapMax ∧ f.w < f.cap

/-- `RPT[u]` (10_state.md R35, R36, R39). -/
def repeatGood (cfg : Config) (e : RepeatUnit) : Prop :=
  e.xf.cnt ≤ cfg.xfadeSamples ∧ e.cur.count ≤ cfg.rptMaxTaps ∧ e.prev.count ≤ cfg.rptMaxTaps

/-- The units after CONSTRUCT (10_state.md R39). -/
structure UnitsGood (s : State) : Prop where
  fir : ∀ f ∈ s.fir, firGood s.cfg f
  dly : ∀ f ∈ s.dly, delayGood s.cfg f
  rmp : ∀ u f, s.rmp[u]? = some f → f.cnt ≤ rampSamplesOf s.cfg u
  rpt : ∀ e ∈ s.rpt, repeatGood s.cfg e

/-- The invariant of the machine. The unit part is claimed where the spec claims it, in READY (R39). -/
structure Invariant (s : State) : Prop where
  config : legalConfig s.cfg = true
  status : StatusGood s
  files : FilesGood s
  spaces : SpacesGood s
  units : s.isReady = true → UnitsGood s

end Sys2Proof.Machine
end

