-- ==== Sys2Proof/Certificates/Slice0/Obligations.lean ====
section
/-! DEFINITION. The statements about the core, each citing the rule of spec/ it formalises. Results are given as
equations of whole states, so that each is also the frame of its command: a field the right-hand side does not name
is unchanged. `[s.draws]` is the place free NaN values are drawn at (log 4); a result that is no NaN does not
depend on it. -/

open Sys2Proof Sys2Proof.Machine

namespace Sys2Proof.Claims

/-- The FIR unit after one call on `v` (40_fir.md R122): `v` at the old index, the index advanced under the mask. -/
def firAfter (cfg : Config) (f : Fir) (v : Lanes) : Fir :=
  { f with idx := (f.idx + 1) &&& (f.len - 1), buf := f.buf.writeVec cfg.n f.idx v }

/-- The accumulated vector of one call (40_fir.md R122): for each lane the products of coefficient `k` with the
`k`-th oldest entry, summed from `+0.0` in ascending `k`. `g` is the unit after the write. -/
def firConvolution (cfg : Config) (d : Draw) (g : Fir) : Lanes :=
  (List.range cfg.n).map fun j =>
    (List.range g.len).foldl
      (fun acc k => fadd (k :: j :: d) acc
        (fmul (k :: j :: d) (g.c.readLane cfg.n k j) (g.buf.readLane cfg.n ((g.idx + k) &&& (g.len - 1)) j))) 0

/-- The indices of a FIR unit lie in its spaces. -/
def firInSpace (cfg : Config) (f : Fir) : Prop := f.idx < cfg.lMax ∧ f.len ≤ cfg.lMax

/-- The `k`-th oldest entry of a FIR unit's history, lane `j` (40_fir.md R122). -/
def firHistory (cfg : Config) (f : Fir) (k j : Nat) : F32 := f.buf.readLane cfg.n ((f.idx + k) &&& (f.len - 1)) j

/-- The one-pole record after a call (44_onepole.md R171), `b1` already chosen. -/
def onePoleResult (d : Draw) (f : OnePole) (b1 fcLast input : F32) : OnePole :=
  { z := fadd d (fmul d input (fsub d 0x3F800000 b1)) (fmul d f.z b1), b1 := b1, fcLast := fcLast, valid := true }

/-- What a one-pole call makes of its record (44_onepole.md R171): the pole computed anew, or the cached one. -/
def onePoleAfter (w : F32) (d : Draw) (f : OnePole) (input cutoff : F32) : OnePole :=
  if f.valid = true ∧ feq cutoff f.fcLast = true then onePoleResult d f f.b1 f.fcLast input
  else onePoleResult d f (fexp d (fmul d cutoff w)) cutoff input

/-- The offset in samples of tap `i` (46_delay.md R202; 47_repeat.md R211, R216). -/
def tapOffset (d : Draw) (q : TapSet) (f : Delay) (i : Nat) : F32 :=
  fmul (i :: d) (tapTime (i :: d) i q.time q.skew) f.scale

/-- The crossfade of two outputs at phase `p` (47_repeat.md R219). -/
def crossfade (d : Draw) (p old new : F32) : F32 :=
  fadd d (fmul d old (fmul d (fcos d (fmul d p 0x3FC90FDB)) (fcos d (fmul d p 0x3FC90FDB))))
    (fmul d new (fmul d (fsin d (fmul d p 0x3FC90FDB)) (fsin d (fmul d p 0x3FC90FDB))))

/-- The delay buffer after a write (46_delay.md R201). -/
def delayAfter (f : Delay) (x : F32) : Delay := { f with buf := f.buf.write f.w x, w := (f.w + 1) % f.cap }

/-- Two values are the same but for the sign bit, or both are NaN. -/
def mirrored (x y : F32) : Prop := (isNaN x = true ∧ isNaN y = true) ∨ y = x ^^^ 0x80000000

/-- The port registers a command reads (30_encoding.md R93; 10_state.md R37). -/
def readsOf : Instr → List PortReg
  | .engNew => [.a0]
  | .firNew _ _ => []
  | .firProc _ => [.va]
  | .ovsUp _ => [.a0]
  | .ovsDn _ => [.va]
  | .ovsProc _ _ => [.a0]
  | .wsRat => [.va]
  | .wsDiode => [.va]
  | .afsCoef _ => [.a1]
  | .afsStep _ => [.a0]
  | .afsProc _ => [.a0, .a1]
  | .opfProc _ => [.a0, .a1]
  | .rmpSet _ => [.a0]
  | .rmpStep _ => []
  | .rmpProc _ => [.a0]
  | .rmpInit _ => [.a0]
  | .exsProc _ => [.a0]
  | .exsInit _ => [.a0]
  | .dlyWr _ => [.a0]
  | .dlyRd _ _ => [.a0]
  | .rptProc _ _ => [.a0, .a1, .a2, .a3]
  | .rptInit _ _ => [.a1, .a2, .a3]

/-- A port register has been written since POWER-ON (10_state.md R22). -/
def isWritten (s : State) : PortReg → Bool
  | .a0 => s.a0.written
  | .a1 => s.a1.written
  | .a2 => s.a2.written
  | .a3 => s.a3.written
  | .r => s.r.written
  | .va => s.va.written
  | .vr => s.vr.written
  | .st => true
  | .fcmd => true

/-- The state after a raised cause is recorded and pc has advanced (60_exceptions.md R262). -/
def afterRaise (e : Cause) (cmd : Word) (s : State) : State := (raise e cmd s).tick

/-- The command faults with a cause: the fault is recorded, pc advances, nothing else changes (R262). -/
def faultsWith (e : Cause) (i : Instr) (s : State) : Prop := exec i s = .next (afterRaise e (encode i) s)

/-- The FIR units a command may change (10_state.md R37; 00_scope.md R8). -/
def firUnitsOf : Instr → List Nat
  | .firNew u _ => [u]
  | .firProc u => [u]
  | .ovsUp o => [2 * o]
  | .ovsDn o => [2 * o + 1]
  | .ovsProc o _ => [2 * o, 2 * o + 1]
  | _ => []

/-- A value of `[0, 1]` (00_scope.md R10). -/
def inUnitInterval (x : F32) : Prop := fle 0 x = true ∧ fle x 0x3F800000 = true

/-- A finite value as a number (00_scope.md R10): a multiple of `2^-149`. -/
def valueOf (x : F32) : ℚ := (sUnits x : ℚ) / 2 ^ 149

end Sys2Proof.Claims

open Sys2Proof.Claims

/-! ## Encoding -/

/-- V-ENC-1 (95_test_vectors.md) and 30_encoding.md R94: the words of that table, one for every command, decode to their
commands; words of a reserved opcode and words with a nonzero must-be-zero field do not. -/
def Obligations.MapWordsDecode : Prop :=
  decode 0x01000000 = .ok .engNew ∧ decode 0x10010002 = .ok (.firNew 1 2) ∧ decode 0x11010000 = .ok (.firProc 1) ∧
  decode 0x18000000 = .ok (.ovsUp 0) ∧ decode 0x19000000 = .ok (.ovsDn 0) ∧ decode 0x1A000001 = .ok (.ovsProc 0 1) ∧
  decode 0x20000000 = .ok .wsRat ∧ decode 0x21000000 = .ok .wsDiode ∧ decode 0x28010000 = .ok (.afsCoef 1) ∧
  decode 0x29010000 = .ok (.afsStep 1) ∧ decode 0x2A010000 = .ok (.afsProc 1) ∧ decode 0x30010000 = .ok (.opfProc 1) ∧
  decode 0x38030000 = .ok (.rmpSet 3) ∧ decode 0x39030000 = .ok (.rmpStep 3) ∧ decode 0x3A020000 = .ok (.rmpProc 2) ∧
  decode 0x3B010000 = .ok (.rmpInit 1) ∧ decode 0x3C010000 = .ok (.exsProc 1) ∧ decode 0x3D010000 = .ok (.exsInit 1) ∧
  decode 0x40000000 = .ok (.dlyWr 0) ∧ decode 0x41000000 = .ok (.dlyRd 0 0) ∧ decode 0x48000004 = .ok (.rptProc 0 4) ∧
  decode 0x49000008 = .ok (.rptInit 0 8) ∧
  decode 0x00000000 = .error .reservedOpcode ∧ decode 0xFFFFFFFF = .error .reservedOpcode ∧
  decode 0x01000001 = .error .mustBeZero ∧ decode 0x20010000 = .error .mustBeZero ∧
  decode 0x11000001 = .error .mustBeZero

/-- 30_encoding.md R91, R92, R94: decoding the encoding of a well-formed command gives it back. -/
def Obligations.DecodeOfEncode : Prop := ∀ i : Instr, i.wellFormed = true → decode (encode i) = .ok i

/-- 30_encoding.md R91, R94: a word that decodes is the encoding of what it decodes to. -/
def Obligations.EncodeOfDecode : Prop :=
  ∀ (w : Word) (i : Instr), decode w = .ok i → i.wellFormed = true ∧ encode i = w

/-- 30_encoding.md R91, R94, R95, R96: a word decodes exactly when it matches a row of the opcode map, and it never
matches two. -/
def Obligations.DecodeIsTheMap : Prop :=
  ∀ w : Word, ((∃ i, decode w = .ok i) ↔ ∃ row ∈ opcodeRows, row.hits w = true) ∧
    ∀ row ∈ opcodeRows, ∀ row' ∈ opcodeRows, row.hits w = true → row'.hits w = true → row = row'

/-- The step of the machine on an issued word that decodes is the command's meaning (60_exceptions.md R263, R95). -/
def Obligations.StepRunsDecodedCommand : Prop :=
  ∀ (s : State) (w : Word) (rest : List HostAction) (i : Instr),
    legalConfig s.cfg = true → s.inbox = .issue w :: rest → decode w = .ok i →
    step s = exec i { s with inbox := rest }

/-- 60_exceptions.md R263, with 30_encoding.md R95, R96 for the word that is no command: the gate, and what is behind it. -/
def Obligations.GateRule : Prop :=
  ∀ (s : State) (w : Word),
    (opcField w ≠ 0x01 → s.isFaulted = true → issueWord w s = .next { s with pc := s.pc + 1 }) ∧
    (opcField w ≠ 0x01 → s.isFaulted = false → s.isConfigured = false →
      issueWord w s = .next (afterRaise .noCfg w s)) ∧
    (opcField w = 0x01 ∨ s.isReady = true →
      (∀ i, decode w = .ok i → issueWord w s = exec i s) ∧
      (∀ e, decode w = .error e → issueWord w s = .next (afterRaise .illegal w s))) ∧
    (opcField w = 0x01 → w ≠ 0x01000000 → issueWord w s = .next (afterRaise .illegal w s))

/-- 30_encoding.md R92, R95: a unit index that is not below the unit count of its kind, and an immediate that is not legal.
The unit index is checked before the immediate, and "not a power of two" before "above `L_MAX`". -/
def Obligations.FieldsChecked : Prop :=
  ∀ (s : State) (u k : Nat), s.isReady = true →
    (s.cfg.nFir ≤ u → ∀ i ∈ [Instr.firNew u k, .firProc u], faultsWith .illegal i s) ∧
    (s.cfg.nOvs ≤ u → ∀ i ∈ [Instr.ovsUp u, .ovsDn u, .ovsProc u k], faultsWith .illegal i s) ∧
    (s.cfg.nAfs ≤ u → ∀ i ∈ [Instr.afsCoef u, .afsStep u, .afsProc u], faultsWith .illegal i s) ∧
    (s.cfg.nOpf ≤ u → faultsWith .illegal (.opfProc u) s) ∧
    (s.cfg.nRmp ≤ u → ∀ i ∈ [Instr.rmpSet u, .rmpStep u, .rmpProc u, .rmpInit u], faultsWith .illegal i s) ∧
    (s.cfg.nExs ≤ u → ∀ i ∈ [Instr.exsProc u, .exsInit u], faultsWith .illegal i s) ∧
    (s.cfg.nDly ≤ u → ∀ i ∈ [Instr.dlyWr u, .dlyRd u k], faultsWith .illegal i s) ∧
    (s.cfg.nRpt ≤ u → ∀ i ∈ [Instr.rptProc u k, .rptInit u k], faultsWith .illegal i s) ∧
    (u < s.cfg.nFir → (¬ ∃ e, k = 2 ^ e) → faultsWith .firLen (.firNew u k) s) ∧
    (u < s.cfg.nFir → (∃ e, k = 2 ^ e) → s.cfg.lMax < k → faultsWith .illegal (.firNew u k) s) ∧
    (u < s.cfg.nOvs → 1 < k → faultsWith .illegal (.ovsProc u k) s) ∧
    (u < s.cfg.nDly → k ≠ 0 → faultsWith .illegal (.dlyRd u k) s) ∧
    (u < s.cfg.nRpt → s.cfg.rptMaxTaps < k → ∀ i ∈ [Instr.rptProc u k, .rptInit u k], faultsWith .illegal i s)

/-! ## Faults, the gate and the life cycle -/

/-- 60_exceptions.md R262: what `raise` does, and that it does nothing else. -/
def Obligations.RaiseRecordsFirstFault : Prop :=
  ∀ (e : Cause) (cmd : Word) (s : State),
    let t := afterRaise e cmd s
    t.isFaulted = true ∧ t.isConfigured = false ∧
    (s.isFaulted = false → t.cause = e.code ∧ t.fcmd = cmd) ∧
    (s.isFaulted = true → t.cause = s.cause ∧ t.fcmd = s.fcmd) ∧
    t.st &&& 0xFFFFFF0C = s.st &&& 0xFFFFFF0C ∧
    t = { s with st := t.st, fcmd := t.fcmd, pc := s.pc + 1 }

/-- 60_exceptions.md R262: faults are precise. A word after which the core is FAULTED has changed ST, FCMD and pc
only. -/
def Obligations.FaultsArePrecise : Prop :=
  ∀ (s t : State) (w : Word), issueWord w s = .next t → t.isFaulted = true →
    t = { s with st := t.st, fcmd := t.fcmd, pc := s.pc + 1 }

/-- 48_engine.md R241: the condition changes only by a successful `ENG.NEW`, to READY, and by a fault, to FAULTED. -/
def Obligations.ConditionChanges : Prop :=
  ∀ (s t : State) (w : Word), issueWord w s = .next t →
    (t.isConfigured = s.isConfigured ∧ t.isFaulted = s.isFaulted) ∨
    (w = 0x01000000 ∧ t.isReady = true ∧ t.cause = 0 ∧ t.fcmd = 0) ∨
    (t.isFaulted = true ∧ t.isConfigured = false)

/-- 60_exceptions.md R262, R265: while the core stays FAULTED, CAUSE and FCMD describe the first fault. -/
def Obligations.FirstFaultIsSticky : Prop :=
  ∀ (s t : State), step s = .next t → s.isFaulted = true → t.isFaulted = true →
    t.cause = s.cause ∧ t.fcmd = s.fcmd

/-- 10_state.md R23: every command, completed, faulted or refused, is followed by `pc <- pc + 1`, and no command reads
`pc`: from another `pc` it does the same. -/
def Obligations.EveryCommandAdvancesPc : Prop :=
  ∀ (s t : State) (w : Word), issueWord w s = .next t →
    t.pc = s.pc + 1 ∧ ∀ n : Nat, issueWord w { s with pc := n } = .next { t with pc := n + 1 }

/-- 10_state.md R22 and 93 U1: with legal fields, a command that reads a port register nothing has written since POWER-ON
is refused, whichever of its operand registers (30_encoding.md R93) that is. -/
def Obligations.UnwrittenOperandRefused : Prop :=
  ∀ (s : State) (i : Instr), (s.isReady = true ∨ i = .engNew) → fieldCheck s.cfg i = none → FilesGood s →
    (∃ reg ∈ readsOf i, isWritten s reg = false) →
    ∃ reg ∈ readsOf i, isWritten s reg = false ∧ exec i s = .refused (.unwrittenOperand reg)

/-! ## Reset and invariants -/

/-- 70_reset_and_hazards.md R300: POWER-ON fixes `ST = 0`, `FCMD = 0`, `pc = 0`. -/
def Obligations.PowerOnValues : Prop :=
  State.reset.st = 0 ∧ State.reset.fcmd = 0 ∧ State.reset.pc = 0

/-- The invariant holds at POWER-ON. The configuration there is the model's choice (log 1), and so are the values of
the units (log 6); the unit part of the invariant is about READY only (10_state.md R39). -/
def Obligations.ResetMeetsInvariant : Prop := Invariant State.reset

/-- 10_state.md R39, R24, R25 and 20_memory.md R67: every step keeps the invariant. -/
def Obligations.StepKeepsInvariant : Prop :=
  ∀ (s t : State), Invariant s → step s = .next t → Invariant t

/-- 20_memory.md R67: no index leaves its space, so a step of a state that meets the invariant never stops with the
model's fault. -/
def Obligations.NoIndexLeavesItsSpace : Prop :=
  ∀ (s : State) (f : Fault), Invariant s → step s ≠ .fault f

/-- 00_scope.md R7: nothing in CFG changes while the core runs. -/
def Obligations.ConfigNeverChanges : Prop := ∀ (s t : State), step s = .next t → t.cfg = s.cfg

/-- 10_state.md R39: the capacity (and the scale) of every delay buffer has not changed since `ENG.NEW`: no other
command changes it. -/
def Obligations.DelayLengthFixed : Prop :=
  ∀ (s t : State) (i : Instr), i ≠ .engNew → exec i s = .next t →
    t.dly.map (fun f => (f.cap, f.scale)) = s.dly.map fun f => (f.cap, f.scale)

/-- 10_state.md R37, the write columns at the level of registers and unit files: what each kind of command leaves alone.
No command writes an A register or CFG; VA only `OVS.PROC`; VR and R only the commands listed; engine constants only
`ENG.NEW`; each unit file only the commands of its kind, `DLY` also `RPT.PROC`. Inside a file: `OtherUnitsUntouched`. -/
def Obligations.CommandsTouchOnlyListedState : Prop :=
  ∀ (s t : State) (i : Instr), exec i s = .next t →
    (t.cfg = s.cfg ∧ t.a0 = s.a0 ∧ t.a1 = s.a1 ∧ t.a2 = s.a2 ∧ t.a3 = s.a3 ∧ t.inbox = s.inbox ∧ t.obs = s.obs) ∧
    ((¬ ∃ o k, i = .ovsProc o k) → t.va = s.va) ∧
    ((¬ ∃ u k, i ∈ [Instr.firProc u, .ovsUp u, .ovsDn u, .ovsProc u k, .wsRat, .wsDiode]) → t.vr = s.vr) ∧
    ((¬ ∃ u k, i ∈ [Instr.ovsDn u, .ovsProc u k, .afsStep u, .afsProc u, .opfProc u, .rmpStep u, .rmpProc u,
        .exsProc u, .dlyRd u k, .rptProc u k]) → t.r = s.r) ∧
    (i ≠ .engNew → t.fs = s.fs ∧ t.k1 = s.k1 ∧ t.k2 = s.k2 ∧ t.k3 = s.k3 ∧ t.w = s.w) ∧
    ((¬ ∃ u k, i ∈ [Instr.engNew, .firNew u k, .firProc u, .ovsUp u, .ovsDn u, .ovsProc u k]) → t.fir = s.fir) ∧
    ((¬ ∃ u, i ∈ [Instr.engNew, .afsCoef u, .afsStep u, .afsProc u]) → t.afs = s.afs) ∧
    ((¬ ∃ u, i ∈ [Instr.engNew, .opfProc u]) → t.opf = s.opf) ∧
    ((¬ ∃ u, i ∈ [Instr.engNew, .rmpSet u, .rmpStep u, .rmpProc u, .rmpInit u]) → t.rmp = s.rmp) ∧
    ((¬ ∃ u, i ∈ [Instr.engNew, .exsProc u, .exsInit u]) → t.exs = s.exs) ∧
    ((¬ ∃ u k, i ∈ [Instr.engNew, .dlyWr u, .rptProc u k]) → t.dly = s.dly) ∧
    ((¬ ∃ u k, i ∈ [Instr.engNew, .rptProc u k, .rptInit u k]) → t.rpt = s.rpt)

/-- 10_state.md R37, the write columns inside a unit file, with 00_scope.md R8 for the two FIR units of an oversampler: a
command other than `ENG.NEW` changes no unit but its own, and in its own none of the fields its row does not list; of a
ramp neither those that 45_smoothers.md R181 and R182 leave alone. -/
def Obligations.OtherUnitsUntouched : Prop :=
  ∀ (s t : State) (i : Instr), i ≠ .engNew → exec i s = .next t →
    (∀ u ∉ firUnitsOf i, t.fir[u]? = s.fir[u]?) ∧
    (∀ u ≠ i.unitIndex, t.afs[u]? = s.afs[u]? ∧ t.opf[u]? = s.opf[u]? ∧ t.rmp[u]? = s.rmp[u]? ∧
      t.exs[u]? = s.exs[u]? ∧ t.dly[u]? = s.dly[u]? ∧ t.rpt[u]? = s.rpt[u]?) ∧
    (∀ (u : Nat) (f : Fir), s.fir[u]? = some f → (¬ ∃ len, i = .firNew u len) →
      ∃ g, t.fir[u]? = some g ∧ g.len = f.len ∧ g.c = f.c) ∧
    (∀ (u : Nat) (f : Afs), s.afs[u]? = some f → ∃ g, t.afs[u]? = some g ∧
      (i = .afsCoef u → g.z0 = f.z0 ∧ g.z1 = f.z1 ∧ g.z2 = f.z2 ∧ g.gc = f.gc) ∧
      (i = .afsStep u → g = { f with z0 := g.z0, z1 := g.z1, z2 := g.z2 })) ∧
    (∀ (u : Nat) (f : Ramp), s.rmp[u]? = some f → ∃ g, t.rmp[u]? = some g ∧
      (i = .rmpSet u → g.cur = f.cur) ∧ (i = .rmpStep u → g.tgt = f.tgt ∧ g.step = f.step)) ∧
    (∀ (u : Nat) (f : Exs), s.exs[u]? = some f → ∃ g, t.exs[u]? = some g ∧
      (i = .exsInit u → g.op = { f.op with z := g.op.z })) ∧
    (∀ (u : Nat) (f : Delay), s.dly[u]? = some f → ∃ g, t.dly[u]? = some g ∧ g.cap = f.cap ∧ g.scale = f.scale)

/-! ## The engine -/

/-- 48_engine.md R243, with the constants of R242: `ENG.NEW` in every condition, its faults in their order and what it
constructs, and the `E_ILLEGAL` of its opcode with nonzero lower bits. The memories are in their canonical form: a
history with nothing listed is all `+0.0`. -/
def Obligations.EngNewConstructs : Prop :=
  ∀ (s : State) (fs : F32), s.a0 = ⟨fs, true⟩ →
    let d := [s.draws]
    let capf := ffloor d (fmul d fs s.cfg.maxDelayS)
    let k1 := fdiv d (fdiv d 0x3F800000 fs) 0x40000000
    let good := flt 0 fs = true ∧ isInf fs = false
    let fits := fle 0x40000000 capf = true ∧ fle capf (f32 s.cfg.dlyCapMax) = true
    (¬ good → exec .engNew s = .next (afterRaise .fs 0x01000000 s)) ∧
    (good → isPow2 s.cfg.l = false → exec .engNew s = .next (afterRaise .firLen 0x01000000 s)) ∧
    (good → isPow2 s.cfg.l = true → ¬ fits → exec .engNew s = .next (afterRaise .cap 0x01000000 s)) ∧
    (good → isPow2 s.cfg.l = true → fits →
     exec .engNew s = .next
      { s with
        fs := fs
        k1 := k1
        k2 := fmul d k1 k1
        k3 := fmul d (fmul d k1 k1) k1
        w := fdiv d (fmul d 0xC0000000 0x40490FDB) fs
        fir := (List.range s.cfg.nFir).map fun u =>
          { len := s.cfg.l, idx := 0, buf := [], c := coefTable s.cfg u s.cfg.lMax }
        afs := List.replicate s.cfg.nAfs ⟨0, 0, 0, 0, 0, 0, 0, 0, 0, 0, 0, ⟨0, 0, 0, false⟩⟩
        opf := List.replicate s.cfg.nOpf ⟨0, 0, 0, false⟩
        exs := List.replicate s.cfg.nExs ⟨⟨0, 0, 0, false⟩⟩
        rmp := List.replicate s.cfg.nRmp ⟨0, 0, 0, 0⟩
        dly := List.replicate s.cfg.nDly { cap := intOf capf, w := 0, scale := fdiv d fs 0x447A0000, buf := [] }
        rpt := List.replicate s.cfg.nRpt ⟨⟨0, 0, 0, 0⟩, ⟨0, 0, 0, 0⟩, ⟨0, 0, 0⟩⟩
        st := s.st &&& 0xFFFFFF0D ||| 0x00000001
        fcmd := 0
        pc := s.pc + 1
        draws := s.draws + 1 }) ∧
    (∀ w : Word, opcField w = 0x01 → w ≠ 0x01000000 → issueWord w s = .next (afterRaise .illegal w s)) ∧
    ∀ u, ∀ k < s.cfg.lMax, ∀ j < s.cfg.n,
      (coefTable s.cfg u s.cfg.lMax).readLane s.cfg.n k j = coefOf s.cfg u k j

/-! ## FIR and oversampler -/

/-- 40_fir.md R121: `FIR.NEW` with a legal length constructs the unit anew: no history, the coefficients of `CFG.C`. -/
def Obligations.FirNewConstructs : Prop :=
  ∀ (s : State) (u len : Nat), s.isReady = true →
    (s.cfg.nFir ≤ u → faultsWith .illegal (.firNew u len) s) ∧
    (u < s.cfg.nFir → isPow2 len = false → faultsWith .firLen (.firNew u len) s) ∧
    (u < s.cfg.nFir → isPow2 len = true → s.cfg.lMax < len → faultsWith .illegal (.firNew u len) s) ∧
    (u < s.cfg.nFir → u < s.fir.length → isPow2 len = true →
    len ≤ s.cfg.lMax →
    ∃ c : Memory, exec (.firNew u len) s =
        .next { s with fir := s.fir.set u { len := len, idx := 0, buf := [], c := c }, pc := s.pc + 1 } ∧
      ∀ k < s.cfg.lMax, ∀ j < s.cfg.n, c.readLane s.cfg.n k j = coefOf s.cfg u k j)

/-- 40_fir.md R122: one call of a FIR unit. -/
def Obligations.FirProcConvolves : Prop :=
  ∀ (s : State) (u : Nat), s.isReady = true →
    (s.cfg.nFir ≤ u → faultsWith .illegal (.firProc u) s) ∧
    ∀ (f : Fir) (v : Lanes), u < s.cfg.nFir → s.va = ⟨v, true⟩ →
    s.fir[u]? = some f → firInSpace s.cfg f →
    exec (.firProc u) s = .next
      { s with
        fir := s.fir.set u (firAfter s.cfg f v)
        vr := ⟨firConvolution s.cfg [s.draws] (firAfter s.cfg f v), true⟩
        pc := s.pc + 1
        draws := s.draws + 1 }

/-- 41_oversampler.md R131: scale by `N`, broadcast, one call of the up filter. -/
def Obligations.OvsUpResult : Prop :=
  ∀ (s : State) (o : Nat), s.isReady = true →
    (s.cfg.nOvs ≤ o → faultsWith .illegal (.ovsUp o) s) ∧
    ∀ (f : Fir) (x : F32), o < s.cfg.nOvs → s.a0 = ⟨x, true⟩ →
    s.fir[2 * o]? = some f → firInSpace s.cfg f →
    (let g := firAfter s.cfg f (List.replicate s.cfg.n (fmul [s.draws] x (f32 s.cfg.n)))
     exec (.ovsUp o) s = .next
      { s with
        fir := s.fir.set (2 * o) g
        vr := ⟨firConvolution s.cfg [s.draws] g, true⟩
        pc := s.pc + 1
        draws := s.draws + 1 })

/-- 41_oversampler.md R132: one call of the down filter, the lane sum in ascending order, one gain. -/
def Obligations.OvsDnResult : Prop :=
  ∀ (s : State) (o : Nat), s.isReady = true →
    (s.cfg.nOvs ≤ o → faultsWith .illegal (.ovsDn o) s) ∧
    ∀ (f : Fir) (v : Lanes), o < s.cfg.nOvs → s.va = ⟨v, true⟩ →
    s.fir[2 * o + 1]? = some f → firInSpace s.cfg f →
    (let g := firAfter s.cfg f v
     let out := firConvolution s.cfg [s.draws] g
     let total := (List.range s.cfg.n).foldl (fun acc j => fadd [j, s.draws] acc (out.getD j 0)) 0
     exec (.ovsDn o) s = .next
      { s with
        fir := s.fir.set (2 * o + 1) g
        vr := ⟨out, true⟩
        r := ⟨fmul [s.draws] total (s.cfg.gOvs.getD o 0), true⟩
        pc := s.pc + 1
        draws := s.draws + 1 })

/-- 41_oversampler.md R133: `OVS.PROC` completes and is equal to the three-command sequence, but for pc. -/
def Obligations.OvsProcIsTheSequence : Prop :=
  ∀ (s : State) (o fn : Nat), s.isReady = true →
    (s.cfg.nOvs ≤ o → faultsWith .illegal (.ovsProc o fn) s) ∧
    (o < s.cfg.nOvs → 1 < fn → faultsWith .illegal (.ovsProc o fn) s) ∧
    ∀ (f f' : Fir) (x : F32), o < s.cfg.nOvs → fn ≤ 1 →
    s.a0 = ⟨x, true⟩ → s.fir[2 * o]? = some f → firInSpace s.cfg f → s.fir[2 * o + 1]? = some f' →
    firInSpace s.cfg f' →
    ∃ t1 t2 t3 : State,
      exec (.ovsUp o) s = .next t1 ∧
      exec (if fn = 0 then .wsRat else .wsDiode) { t1 with va := ⟨t1.vr.lanes, true⟩ } = .next t2 ∧
      exec (.ovsDn o) { t2 with va := ⟨t2.vr.lanes, true⟩ } = .next t3 ∧
      exec (.ovsProc o fn) s = .next { t3 with pc := s.pc + 1 }

/-- 40_fir.md R122 and 20_memory.md R63: what a FIR call stores, and that it stores nowhere else. The element stored to
is the unit's index, the unit the one the command names. -/
def Obligations.FirCallMemoryFrame : Prop :=
  ∀ (s t : State) (i : Instr) (u : Nat) (f : Fir), SpacesGood s → s.isReady = true → s.fir[u]? = some f →
    (i = .firProc u ∨ (∃ o, i = .ovsUp o ∧ u = 2 * o) ∨ (∃ o, i = .ovsDn o ∧ u = 2 * o + 1)) →
    exec i s = .next t → t.isReady = true →
    ∃ g, t.fir[u]? = some g ∧ g.c = f.c ∧ g.len = f.len ∧
      (∀ e ≠ f.idx, ∀ j < s.cfg.n, g.buf.readLane s.cfg.n e j = f.buf.readLane s.cfg.n e j) ∧
      (i = .firProc u → ∀ j < s.cfg.n, g.buf.readLane s.cfg.n f.idx j = s.va.lanes.getD j 0) ∧
      ∀ u' ≠ u, t.fir[u']? = s.fir[u']?

/-- 40_fir.md R122: "`h[0]` is the oldest of the last `len` inputs, and `h[len-1]` is the `VA` of this call": a call
drops the oldest entry, keeps the others in time order, and the newest is the input. -/
def Obligations.FirHistoryShifts : Prop :=
  ∀ (cfg : Config) (f : Fir) (v : Lanes) (k j : Nat), f.buf.wf = true → firGood cfg f → j < cfg.n → k < f.len →
    firHistory cfg (firPush cfg f v) k j =
      if k = f.len - 1 then v.getD j 0 else firHistory cfg f (k + 1) j

/-! ## Waveshaper -/

/-- 42_waveshaper.md R142: the rational polynomial saturator on every lane. -/
def Obligations.WsRatResult : Prop :=
  ∀ (s : State) (v : Lanes), s.isReady = true → s.va = ⟨v, true⟩ →
    exec .wsRat s = .next
      { s with
        vr := ⟨(List.range s.cfg.n).map fun j =>
          let d := [j, s.draws]
          let x := v.getD j 0
          let x2 := fmul d x x
          let x3 := fmul d x2 x
          let x5 := fmul d x3 x2
          let a := fadd d (fadd d x (fmul d s.cfg.wsC1 x3)) (fmul d s.cfg.wsC3 x5)
          fdiv d a (fsqrt d (fadd d 0x3F800000 (fmul d a a))), true⟩
        pc := s.pc + 1
        draws := s.draws + 1 }

/-- 42_waveshaper.md R144: the diode table on every lane. -/
def Obligations.WsDiodeResult : Prop :=
  ∀ (s : State) (v : Lanes), s.isReady = true → s.va = ⟨v, true⟩ →
    exec .wsDiode s = .next
      { s with
        vr := ⟨(List.range s.cfg.n).map fun j =>
          let d := [j, s.draws]
          let x := v.getD j 0
          let tab := s.cfg.dtTab
          let p := fmul d (fabs x) s.cfg.dtScale
          let i := intOf (ffloor d p)
          fcopysign
            (if isNaN p = true then p
             else if fle (f32 (tab.length - 1)) p = true then tab.getD (tab.length - 1) 0
             else fadd d (tab.getD i 0)
               (fmul d (fsub d p (f32 i)) (fsub d (tab.getD (i + 1) 0) (tab.getD i 0)))) x, true⟩
        pc := s.pc + 1
        draws := s.draws + 1 }

/-- 42_waveshaper.md R143 (a): the saturator is odd, exactly, but for the sign of a NaN. The constants are
non-negative (00_scope.md R7); that neither is `-0.0` is needed for `f(-0.0) = -f(0.0)` (log 19). -/
def Obligations.WsRatOddSymmetry : Prop :=
  ∀ (c1 c3 x : F32) (d d' : Draw), signBit c1 = false → signBit c3 = false →
    mirrored (ratShape c1 c3 d x) (ratShape c1 c3 d' (x ^^^ 0x80000000))

/-- 42_waveshaper.md R145 (a), (b): the diode curve is odd, exactly, and at or beyond the last table position its
magnitude is the last entry's. -/
def Obligations.WsDiodeOddAndClamped : Prop :=
  ∀ (cfg : Config) (x : F32) (d : Draw),
    diodeShape cfg d (x ^^^ 0x80000000) = diodeShape cfg d x ^^^ 0x80000000 ∧
    (fle (f32 (cfg.dtTab.length - 1)) (fmul d (fabs x) cfg.dtScale) = true →
      fabs (diodeShape cfg d x) = fabs (cfg.dtTab.getD (cfg.dtTab.length - 1) 0))

/-! ## Analog filter stage and one-pole filter -/

/-- 43_analog_filter.md R153, R154, R156: the stored coefficients and the gain-correction cutoff. -/
def Obligations.AfsCoefResult : Prop :=
  ∀ (s : State) (u : Nat), s.isReady = true →
    (s.cfg.nAfs ≤ u → faultsWith .illegal (.afsCoef u) s) ∧
    ∀ (f : Afs) (control : F32), u < s.cfg.nAfs → s.a1 = ⟨control, true⟩ →
    s.afs[u]? = some f →
    (let poly (d : Draw) (q : Coefs) : Fin 4 → F32 :=
       let p0 := q.c0
       let p1 := fmul d q.c1 s.k1
       let p2 := fmul d q.c2 s.k2
       let p3 := fmul d q.c3 s.k3
       ![fadd d (fadd d (fadd d p0 p1) p2) p3,
         fadd d (fadd d (fsub d (fmul d 0xC0400000 p0) p1) p2) (fmul d 0x40400000 p3),
         fadd d (fsub d (fsub d (fmul d 0x40400000 p0) p1) p2) (fmul d 0x40400000 p3),
         fadd d (fsub d (fadd d (fneg p0) p1) p2) p3]
     let d := [s.draws]
     let nb := poly [0, s.draws] (sNumerator u control)
     let na := poly [1, s.draws] (sDenominator s.k1 s.k2 s.k3 [1, s.draws] u control)
     exec (.afsCoef u) s = .next
      { s with
        afs := s.afs.set u
          { f with
            b0 := fdiv d (nb 0) (na 0)
            b1 := fdiv d (nb 1) (na 0)
            b2 := fdiv d (nb 2) (na 0)
            b3 := fdiv d (nb 3) (na 0)
            a1 := fdiv d (na 1) (na 0)
            a2 := fdiv d (na 2) (na 0)
            a3 := fdiv d (na 3) (na 0)
            gfc := fdiv d (s.cfg.afsRef.getD u 0) (stageGain u control) }
        pc := s.pc + 1
        draws := s.draws + 1 })

/-- 00_scope.md R7, 43_analog_filter.md R152 (b), (d) and R156: for a control in `[0, 1]` the s-domain coefficients are
finite, the z-domain normalizer `na0` (for finite engine constants) is nonzero and finite, and the gain is nonzero. -/
def Obligations.StageFunctionsAreLegal : Prop :=
  ∀ (u : Nat) (control k1 k2 k3 : F32) (d : Draw), inUnitInterval control →
    let finite (p : Coefs) : Prop :=
      isFinite p.c0 = true ∧ isFinite p.c1 = true ∧ isFinite p.c2 = true ∧ isFinite p.c3 = true
    let na := sDenominator k1 k2 k3 d u control
    finite (sNumerator u control) ∧ finite na ∧ isZero (stageGain u control) = false ∧
    (isFinite k1 = true → isFinite k2 = true → isFinite k3 = true →
      isFinite (bilinear k1 k2 k3 d na).c0 = true ∧ isZero (bilinear k1 k2 k3 d na).c0 = false)

/-- 43_analog_filter.md R155: one sample of the three-register filter. -/
def Obligations.AfsStepResult : Prop :=
  ∀ (s : State) (u : Nat), s.isReady = true →
    (s.cfg.nAfs ≤ u → faultsWith .illegal (.afsStep u) s) ∧
    ∀ (f : Afs) (x : F32), u < s.cfg.nAfs → s.a0 = ⟨x, true⟩ →
    s.afs[u]? = some f →
    (let d := [s.draws]
     let y := fadd d (fmul d x f.b0) f.z0
     exec (.afsStep u) s = .next
      { s with
        afs := s.afs.set u
          { f with
            z0 := fadd d (fsub d (fmul d x f.b1) (fmul d y f.a1)) f.z1
            z1 := fadd d (fsub d (fmul d x f.b2) (fmul d y f.a2)) f.z2
            z2 := fsub d (fmul d x f.b3) (fmul d y f.a3) }
        r := ⟨y, true⟩
        pc := s.pc + 1
        draws := s.draws + 1 })

/-- 43_analog_filter.md R157: `AFS.PROC` completes and is `AFS.COEF`, `AFS.STEP`, then the private one-pole on `R`. -/
def Obligations.AfsProcIsTheSequence : Prop :=
  ∀ (s : State) (u : Nat), s.isReady = true →
    (s.cfg.nAfs ≤ u → faultsWith .illegal (.afsProc u) s) ∧
    ∀ (f : Afs) (x control : F32), u < s.cfg.nAfs → s.a0 = ⟨x, true⟩ →
    s.a1 = ⟨control, true⟩ → s.afs[u]? = some f →
    ∃ (t1 t2 : State) (g : Afs),
      exec (.afsCoef u) s = .next t1 ∧ exec (.afsStep u) t1 = .next t2 ∧ t2.afs[u]? = some g ∧
      (let op := onePoleAfter s.w [s.draws + 2] g.gc t2.r.val g.gfc
       exec (.afsProc u) s = .next
        { t2 with
          afs := t2.afs.set u { g with gc := op }
          r := ⟨op.z, true⟩
          pc := s.pc + 1
          draws := s.draws + 3 })

/-- 44_onepole.md R171: `OPF.PROC`, with the pole computed anew only on the first call or for another cutoff. -/
def Obligations.OpfProcResult : Prop :=
  ∀ (s : State) (u : Nat), s.isReady = true →
    (s.cfg.nOpf ≤ u → faultsWith .illegal (.opfProc u) s) ∧
    ∀ (f : OnePole) (x cutoff : F32), u < s.cfg.nOpf → s.a0 = ⟨x, true⟩ →
    s.a1 = ⟨cutoff, true⟩ → s.opf[u]? = some f →
    (let g := onePoleAfter s.w [s.draws] f x cutoff
     exec (.opfProc u) s = .next
      { s with opf := s.opf.set u g, r := ⟨g.z, true⟩, pc := s.pc + 1, draws := s.draws + 1 })

/-- 44_onepole.md R172: for a finite cutoff `>= 0` the pole and its complement lie in `[0, 1]`, also where `cutoff * W`
overflows. `W` is finite and `<= 0`, as `ENG.NEW` leaves it but for the corner of log 26; a cached pole that is kept has
the property from before. -/
def Obligations.PoleInUnitInterval : Prop :=
  ∀ (s : State) (u : Nat) (f : OnePole) (x cutoff : F32), s.isReady = true → u < s.cfg.nOpf → s.a0 = ⟨x, true⟩ →
    s.a1 = ⟨cutoff, true⟩ → s.opf[u]? = some f → isFinite cutoff = true → fle 0 cutoff = true → isFinite s.w = true →
    fle s.w 0 = true → (f.valid = true → inUnitInterval f.b1) →
    ∃ t g, exec (.opfProc u) s = .next t ∧ t.opf[u]? = some g ∧ g.valid = true ∧ inUnitInterval g.b1 ∧
      ∀ d, inUnitInterval (fsub d 0x3F800000 g.b1)

/-! ## Smoothers -/

/-- 45_smoothers.md R181: a target that differs from the previous target starts a full ramp; any other does nothing. -/
def Obligations.RmpSetResult : Prop :=
  ∀ (s : State) (u : Nat), s.isReady = true →
    (s.cfg.nRmp ≤ u → faultsWith .illegal (.rmpSet u) s) ∧
    ∀ (f : Ramp) (x : F32), u < s.cfg.nRmp → s.a0 = ⟨x, true⟩ →
    s.rmp[u]? = some f →
    (let d := [s.draws]
     let rs := rampSamplesOf s.cfg u
     exec (.rmpSet u) s = .next
      { s with
        rmp := s.rmp.set u
          (if feq x f.tgt = true then f
           else { cur := f.cur, tgt := x, step := fdiv d (fsub d x f.cur) (f32 rs), cnt := rs })
        pc := s.pc + 1
        draws := s.draws + 1 })

/-- 45_smoothers.md R182: the counter governs both the decrement and the addition. -/
def Obligations.RmpStepResult : Prop :=
  ∀ (s : State) (u : Nat), s.isReady = true →
    (s.cfg.nRmp ≤ u → faultsWith .illegal (.rmpStep u) s) ∧
    ∀ (f : Ramp), u < s.cfg.nRmp → s.rmp[u]? = some f →
    (let cur := if f.cnt = 0 then f.cur else fadd [s.draws] f.cur f.step
     exec (.rmpStep u) s = .next
      { s with
        rmp := s.rmp.set u { f with cur := cur, cnt := f.cnt - 1 }
        r := ⟨cur, true⟩
        pc := s.pc + 1
        draws := s.draws + 1 })

/-- 45_smoothers.md R183: `RMP.PROC` completes and is `RMP.SET` then `RMP.STEP`, but for pc. -/
def Obligations.RmpProcIsTheSequence : Prop :=
  ∀ (s : State) (u : Nat), s.isReady = true →
    (s.cfg.nRmp ≤ u → faultsWith .illegal (.rmpProc u) s) ∧
    ∀ (f : Ramp) (x : F32), u < s.cfg.nRmp → s.a0 = ⟨x, true⟩ →
    s.rmp[u]? = some f →
    ∃ t1 t2 : State, exec (.rmpSet u) s = .next t1 ∧ exec (.rmpStep u) t1 = .next t2 ∧
      exec (.rmpProc u) s = .next { t2 with pc := s.pc + 1 }

/-- 45_smoothers.md R184 and R187: the ramp put at a value with no ramp; of an exponential smoother only `z` is
written. -/
def Obligations.SmootherInitResults : Prop :=
  ∀ (s : State) (u : Nat), s.isReady = true →
    (s.cfg.nRmp ≤ u → faultsWith .illegal (.rmpInit u) s) ∧
    (s.cfg.nExs ≤ u → faultsWith .illegal (.exsInit u) s) ∧
    ∀ x : F32, s.a0 = ⟨x, true⟩ →
      (u < s.cfg.nRmp → u < s.rmp.length →
        exec (.rmpInit u) s = .next { s with rmp := s.rmp.set u ⟨x, x, 0, 0⟩, pc := s.pc + 1 }) ∧
      (∀ f, u < s.cfg.nExs → s.exs[u]? = some f →
        exec (.exsInit u) s = .next { s with exs := s.exs.set u ⟨{ f.op with z := x }⟩, pc := s.pc + 1 })

/-- 45_smoothers.md R186: the private one-pole with the configured cutoff. -/
def Obligations.ExsProcResult : Prop :=
  ∀ (s : State) (u : Nat), s.isReady = true →
    (s.cfg.nExs ≤ u → faultsWith .illegal (.exsProc u) s) ∧
    ∀ (f : Exs) (x : F32), u < s.cfg.nExs → s.a0 = ⟨x, true⟩ →
    s.exs[u]? = some f →
    (let g := onePoleAfter s.w [s.draws] f.op x (s.cfg.exsFc.getD u 0)
     exec (.exsProc u) s = .next
      { s with exs := s.exs.set u ⟨g⟩, r := ⟨g.z, true⟩, pc := s.pc + 1, draws := s.draws + 1 })

/-! ## Delay buffer -/

/-- 46_delay.md R201: store at the cursor, advance it modulo the capacity. -/
def Obligations.DlyWrResult : Prop :=
  ∀ (s : State) (u : Nat), s.isReady = true →
    (s.cfg.nDly ≤ u → faultsWith .illegal (.dlyWr u) s) ∧
    ∀ (f : Delay) (x : F32), u < s.cfg.nDly → s.a0 = ⟨x, true⟩ →
    s.dly[u]? = some f → delayGood s.cfg f →
    exec (.dlyWr u) s = .next { s with dly := s.dly.set u (delayAfter f x), pc := s.pc + 1 }

/-- 46_delay.md R202, R203: in range the blend of the two bracketing samples, read behind the cursor; out of range
`E_DLYRANGE`. -/
def Obligations.DlyRdResult : Prop :=
  ∀ (s : State) (u : Nat), s.isReady = true →
    (s.cfg.nDly ≤ u → faultsWith .illegal (.dlyRd u 0) s) ∧
    (∀ mode ≠ 0, faultsWith .illegal (.dlyRd u mode) s) ∧
    ∀ (f : Delay) (time : F32), u < s.cfg.nDly → s.a0 = ⟨time, true⟩ →
    s.dly[u]? = some f → delayGood s.cfg f →
    (let d := [s.draws]
     let o := fmul d time f.scale
     let i := intOf (ffloor d o)
     let x0 := f.buf.read (((f.w : Int) - 1 - i) % f.cap).toNat
     let x1 := f.buf.read (((f.w : Int) - 2 - i) % f.cap).toNat
     let ok := fle 0 o = true ∧ flt o (f32 (f.cap - 1)) = true
     (ok → exec (.dlyRd u 0) s = .next
        { s with
          r := ⟨fadd d x0 (fmul d (fsub d o (f32 i)) (fsub d x1 x0)), true⟩
          pc := s.pc + 1
          draws := s.draws + 1 }) ∧
     (¬ ok → exec (.dlyRd u 0) s = .next (afterRaise .dlyRange (encode (.dlyRd u 0)) s)))

/-- 46_delay.md R201, R202: in time order a write puts the sample at offset 0 and moves every older one up by one. -/
def Obligations.DelayHistoryShifts : Prop :=
  ∀ (cfg : Config) (f : Delay) (x : F32) (i : Nat), f.buf.wf = true → delayGood cfg f → i < f.cap →
    delaySample (delayWrite f x) i = if i = 0 then x else delaySample f (i - 1)

/-- 20_memory.md R60 and 46_delay.md R201: `DLY.WR` and `RPT.PROC` store to the element at the cursor of their own
buffer and nowhere else. -/
def Obligations.DelayMemoryFrame : Prop :=
  ∀ (s t : State) (i : Instr) (u : Nat) (f : Delay), SpacesGood s → s.isReady = true → s.dly[u]? = some f →
    (i = .dlyWr u ∨ ∃ count, i = .rptProc u count) → exec i s = .next t → t.isReady = true →
    ∃ g, t.dly[u]? = some g ∧ g.buf.read f.w = s.a0.val ∧ (∀ e ≠ f.w, g.buf.read e = f.buf.read e) ∧
      ∀ u' ≠ u, t.dly[u']? = s.dly[u']?

/-- 46_delay.md R204: a read at time 0 straight after a write returns the sample written. The difference of the two
newest samples is finite (log 19); equality is the IEEE one, since `-0.0` comes back as `+0.0`. -/
def Obligations.DelayReadsNewest : Prop :=
  ∀ (f : Delay) (x time : F32) (d : Draw), f.buf.wf = true → 2 ≤ f.cap → f.cap < 2 ^ 24 → f.w < f.cap →
    isFinite f.scale = true → isZero time = true → isFinite x = true →
    isFinite (fsub d (delaySample f 0) x) = true →
    ∃ v, delayRead d (delayWrite f x) time = some v ∧ feq v x = true

/-! ## Repeat engine -/

/-- 47_repeat.md R211, R212: the time of a tap, straight and skewed; its gain, with unity, the clamp to `FB_MIN` and the
reversal under negative feedback. -/
def Obligations.TapTimeAndGain : Prop :=
  ∀ (cfg : Config) (d : Draw) (index count : Nat) (time skew fb : F32),
    (index = 0 → tapTime d index time skew = 0) ∧
    (0 < index → feq skew 0 = true → tapTime d index time skew = fmul d time (f32 index)) ∧
    (0 < index → feq skew 0 = false → tapTime d index time skew =
      (List.range index).foldl
        (fun t i => fadd (i :: d) (fmul (i :: d) (fpow (i :: d) (fpow d 0x40000000 skew) (f32 i)) time) t) 0) ∧
    (index < count →
      (feq (fabs fb) 0x3F800000 = true → tapGain cfg d index fb count = 0x3F800000) ∧
      (feq (fabs fb) 0x3F800000 = false →
        (let m := if flt (fabs fb) cfg.fbMin = true then cfg.fbMin else fabs fb
         (fle 0 fb = true → tapGain cfg d index fb count = fpow d m (f32 index)) ∧
         (fle 0 fb = false → tapGain cfg d index fb count = fpow d m (f32 (count - index - 1))))))

/-- 47_repeat.md R216: the sum over taps in ascending order, or OUT_OF_RANGE exactly when some tap is. -/
def Obligations.TapsAreTheSum : Prop :=
  ∀ (cfg : Config) (d : Draw) (q : TapSet) (x : F32) (f : Delay),
    ((∀ i, 0 < i → i < q.count → delayInRange f (tapOffset d q f i) = true) →
      taps cfg d q x f = some ((List.range q.count).foldl
        (fun acc i => fadd (i :: d) acc (fmul (i :: d) (tapGain cfg (i :: d) i q.fb q.count)
          (if i = 0 then x else delayBlend (i :: d) f (tapOffset d q f i)))) 0)) ∧
    ((∃ i, 0 < i ∧ i < q.count ∧ delayInRange f (tapOffset d q f i) = false) → taps cfg d q x f = none)

/-- 47_repeat.md R218, with R217 and R219: a sample with no fade and no change, a sample that starts a fade, and a sample
of a fade in progress. A tap set evaluated in this sample that is out of range makes the command `E_DLYRANGE`, and nothing
is committed. -/
def Obligations.RptProcResult : Prop :=
  ∀ (s : State) (u count : Nat), s.isReady = true →
    (s.cfg.nRpt ≤ u → faultsWith .illegal (.rptProc u count) s) ∧
    (u < s.cfg.nRpt → s.cfg.rptMaxTaps < count → faultsWith .illegal (.rptProc u count) s) ∧
    ∀ (e : RepeatUnit) (f : Delay) (x time fb skew : F32),
    u < s.cfg.nRpt → count ≤ s.cfg.rptMaxTaps → s.a0 = ⟨x, true⟩ → s.a1 = ⟨time, true⟩ → s.a2 = ⟨fb, true⟩ →
    s.a3 = ⟨skew, true⟩ → s.rpt[u]? = some e → s.dly[u]? = some f → delayGood s.cfg f → 0 < s.cfg.xfadeSamples →
    (let d := [s.draws]
     let q : TapSet := ⟨count, time, fb, skew⟩
     let g := delayAfter f x
     let old (p : TapSet) := taps s.cfg [0, s.draws] p x g
     let new (p : TapSet) := taps s.cfg [1, s.draws] p x g
     let done (e' : RepeatUnit) (out : F32) : State :=
       { s with
         rpt := s.rpt.set u e'
         dly := s.dly.set u g
         r := ⟨out, true⟩
         pc := s.pc + 1
         draws := s.draws + 1 }
     let step := fdiv d 0x3F800000 (f32 s.cfg.xfadeSamples)
     (e.xf.cnt = 0 → tapSetEq q e.cur = true →
        (∀ y, new e.cur = some y → exec (.rptProc u count) s = .next (done e y)) ∧
        (new e.cur = none → faultsWith .dlyRange (.rptProc u count) s)) ∧
     (e.xf.cnt = 0 → tapSetEq q e.cur = false →
        (∀ y y', old e.cur = some y → new q = some y' →
          exec (.rptProc u count) s = .next
            (done { prev := e.cur, cur := q, xf := ⟨fadd d 0 step, step, s.cfg.xfadeSamples - 1⟩ }
              (crossfade d (fadd d 0 step) y y'))) ∧
        (old e.cur = none ∨ new q = none → faultsWith .dlyRange (.rptProc u count) s)) ∧
     (0 < e.xf.cnt →
        (∀ y y', old e.prev = some y → new e.cur = some y' →
          exec (.rptProc u count) s = .next
            (done { e with xf := ⟨fadd d e.xf.p e.xf.step, e.xf.step, e.xf.cnt - 1⟩ }
              (crossfade d (fadd d e.xf.p e.xf.step) y y'))) ∧
        (old e.prev = none ∨ new e.cur = none → faultsWith .dlyRange (.rptProc u count) s)))

/-- 47_repeat.md R217, R220 (a): while a fade is in progress the set supplied has no effect. Two states that differ only
in `A1`, `A2`, `A3`, and two counts, give the same result, engine, buffer and ST. -/
def Obligations.FadeIgnoresSuppliedSet : Prop :=
  ∀ (s s' t : State) (u count count' : Nat) (e : RepeatUnit), s.isReady = true → s.rpt[u]? = some e → 0 < e.xf.cnt →
    s' = { s with a1 := s'.a1, a2 := s'.a2, a3 := s'.a3 } → s'.a1.written = true → s'.a2.written = true →
    s'.a3.written = true → u < s.cfg.nRpt → count ≤ s.cfg.rptMaxTaps → count' ≤ s.cfg.rptMaxTaps →
    exec (.rptProc u count) s = .next t →
    ∃ t', exec (.rptProc u count') s' = .next t' ∧ t'.r = t.r ∧ t'.rpt = t.rpt ∧ t'.dly = t.dly ∧ t'.st = t.st

/-- 47_repeat.md R221: the set in effect at once, no fade. -/
def Obligations.RptInitResult : Prop :=
  ∀ (s : State) (u count : Nat), s.isReady = true →
    (s.cfg.nRpt ≤ u → faultsWith .illegal (.rptInit u count) s) ∧
    (u < s.cfg.nRpt → s.cfg.rptMaxTaps < count → faultsWith .illegal (.rptInit u count) s) ∧
    ∀ (time fb skew : F32), u < s.cfg.nRpt →
    count ≤ s.cfg.rptMaxTaps → s.a1 = ⟨time, true⟩ → s.a2 = ⟨fb, true⟩ → s.a3 = ⟨skew, true⟩ → u < s.rpt.length →
    (let q : TapSet := ⟨count, time, fb, skew⟩
     exec (.rptInit u count) s = .next
      { s with rpt := s.rpt.set u { cur := q, prev := q, xf := ⟨0, 0, 0⟩ }, pc := s.pc + 1 })

/-! ## Numerics and the host port -/

/-- 00_scope.md R11: rounding is to nearest, ties to even. For a quotient `n / m` of units, the answer is finite exactly
below half a unit of the last place past the largest finite value, `(2^25 - 1) * 2^252` units, and infinity from there on;
where it is finite, no other finite pattern is nearer, and it is even when another is as near. -/
def Obligations.RoundsToNearestEven : Prop :=
  ∀ n m : Nat, 0 < m →
    (m * ((2 ^ 25 - 1) * 2 ^ 252) ≤ n → roundUnits n m = 0x7F800000) ∧
    (n < m * ((2 ^ 25 - 1) * 2 ^ 252) → roundUnits n m < 0x7F800000 ∧
      ∀ p < 0x7F800000,
        let near (q : Nat) : Int := |(units (BitVec.ofNat 32 q) * m : Int) - n|
        near (roundUnits n m) ≤ near p ∧
          (p ≠ roundUnits n m → near (roundUnits n m) = near p → roundUnits n m % 2 = 0))

/-- 00_scope.md R11: the operations round the exact result once. On finite operands, away from a zero divisor and the
square root of a negative value, each is the exact result in units, rounded, with the IEEE sign. -/
def Obligations.OperationsRoundTheExactResult : Prop :=
  ∀ (x y : F32) (d : Draw), isFinite x = true → isFinite y = true →
    (sUnits x + sUnits y ≠ 0 →
      fadd d x y = packF (decide (sUnits x + sUnits y < 0)) (roundUnits (sUnits x + sUnits y).natAbs 1)) ∧
    (sUnits x - sUnits y ≠ 0 →
      fsub d x y = packF (decide (sUnits x - sUnits y < 0)) (roundUnits (sUnits x - sUnits y).natAbs 1)) ∧
    fmul d x y = packF (signBit x != signBit y) (roundUnits (units x * units y) (2 ^ 149)) ∧
    (isZero y = false →
      fdiv d x y = packF (signBit x != signBit y) (roundUnits (units x * 2 ^ 149) (units y))) ∧
    (signBit x = false → ∃ r : Nat, r * r ≤ units x * 2 ^ 149 ∧ units x * 2 ^ 149 < (r + 1) * (r + 1) ∧
      fsqrt d x = packF false (roundUnits (2 * r + (if r * r = units x * 2 ^ 149 then 0 else 1)) 2))

/-- 00_scope.md R12: NUM-P1, NUM-P2, NUM-P3, NUM-P5 and NUM-P6. That `fexp` is non-decreasing is said of every two
operands that are no NaN, infinite ones among them (log 3). NUM-P4 is `PowersAreExact`. -/
def Obligations.NumericsNamedProperties : Prop :=
  ∀ (d d' : Draw) (x y : F32),
    fexp d 0x00000000 = 0x3F800000 ∧ fexp d 0x80000000 = 0x3F800000 ∧
    (isFinite x = true → fle x 0 = true → fle 0 (fexp d x) = true ∧ fle (fexp d x) 0x3F800000 = true) ∧
    (fle x y = true → fle (fexp d x) (fexp d' y) = true) ∧
    (isFinite x = true → fpow d x 0 = 0x3F800000 ∧ fpow d x 0x3F800000 = x) ∧
    fsin d 0 = 0 ∧ fcos d 0 = 0x3F800000 ∧
    (isFinite x = true → fle 0xBF800000 (fsin d x) = true ∧ fle (fsin d x) 0x3F800000 = true ∧
      fle 0xBF800000 (fcos d x) = true ∧ fle (fcos d x) 0x3F800000 = true) ∧
    (isNaN x = true → isNaN (fexp d x) = true ∧ isNaN (fsin d x) = true ∧ isNaN (fcos d x) = true) ∧
    (isNaN x = true ∨ isNaN y = true → y ≠ 0 → isNaN (fpow d x y) = true)

/-- 00_scope.md R12, NUM-P4: a power with a positive base and an integer exponent is exact wherever the real power is a
binary32 number. -/
def Obligations.PowersAreExact : Prop :=
  ∀ (d : Draw) (x y z : F32) (n : Int), isFinite x = true → isFinite y = true → isFinite z = true →
    0 < valueOf x → valueOf y = n → signBit z = false → valueOf z = valueOf x ^ n → fpow d x y = z

/-- 70_reset_and_hazards.md R303 and the copies of 30_encoding.md R97: a WRITE writes its register; a READ returns the
register's present value and has no side effect on the core; a copy writes its destination with the source's current
value. What a READ or a copy of a register that nothing has written shows is free (log 13). -/
def Obligations.HostPortActions : Prop :=
  ∀ (s : State) (rest : List HostAction) (x : F32) (v : Lanes) (reg : PortReg) (dst : OperandReg) (src : ScalarReg),
    legalConfig s.cfg = true →
    (s.inbox = .write .a0 x :: rest → step s = .next { s with inbox := rest, a0 := ⟨x, true⟩ }) ∧
    (s.inbox = .write .a1 x :: rest → step s = .next { s with inbox := rest, a1 := ⟨x, true⟩ }) ∧
    (s.inbox = .write .a2 x :: rest → step s = .next { s with inbox := rest, a2 := ⟨x, true⟩ }) ∧
    (s.inbox = .write .a3 x :: rest → step s = .next { s with inbox := rest, a3 := ⟨x, true⟩ }) ∧
    (s.inbox = .writeVa v :: rest → v.length = s.cfg.n →
      step s = .next { s with inbox := rest, va := ⟨v, true⟩ }) ∧
    (s.inbox = .read reg :: rest → ∃ words,
      step s = .next { s with inbox := rest, obs := ⟨reg, words⟩ :: s.obs, draws := s.draws + 1 } ∧
      (reg = .a0 → s.a0.written = true → words = [s.a0.val]) ∧ (reg = .a1 → s.a1.written = true → words = [s.a1.val]) ∧
      (reg = .a2 → s.a2.written = true → words = [s.a2.val]) ∧ (reg = .a3 → s.a3.written = true → words = [s.a3.val]) ∧
      (reg = .r → s.r.written = true → words = [s.r.val]) ∧
      (reg = .va → s.va.written = true → words = s.va.lanes) ∧
      (reg = .vr → s.vr.written = true → words = s.vr.lanes) ∧
      (reg = .st → words = [s.st &&& 0x000000F3]) ∧ (reg = .fcmd → words = [s.fcmd])) ∧
    (s.inbox = .copy dst src :: rest → ∃ y : F32,
      (src = .a0 → s.a0.written = true → y = s.a0.val) ∧ (src = .a1 → s.a1.written = true → y = s.a1.val) ∧
      (src = .a2 → s.a2.written = true → y = s.a2.val) ∧ (src = .a3 → s.a3.written = true → y = s.a3.val) ∧
      (src = .r → s.r.written = true → y = s.r.val) ∧
      (let t : State := { s with inbox := rest, draws := s.draws + 1 }
       (dst = .a0 → step s = .next { t with a0 := ⟨y, true⟩ }) ∧ (dst = .a1 → step s = .next { t with a1 := ⟨y, true⟩ }) ∧
       (dst = .a2 → step s = .next { t with a2 := ⟨y, true⟩ }) ∧
       (dst = .a3 → step s = .next { t with a3 := ⟨y, true⟩ }))) ∧
    (s.inbox = .copyVa :: rest → ∃ lanes : Lanes, (s.vr.written = true → lanes = s.vr.lanes) ∧
      step s = .next { s with inbox := rest, va := ⟨lanes, true⟩, draws := s.draws + 1 })
end

