-- ==== Sys2Proof/Laws/State.lean ====
section
/-! SUPPORT. One lemma per field per update of State, each true by rfl, so that no proof unfolds an update. -/

namespace Sys2Proof.Machine

section tickFields

variable (s : State)

@[simp] theorem State.tick_cfg : s.tick.cfg = s.cfg := rfl
@[simp] theorem State.tick_a0 : s.tick.a0 = s.a0 := rfl
@[simp] theorem State.tick_a1 : s.tick.a1 = s.a1 := rfl
@[simp] theorem State.tick_a2 : s.tick.a2 = s.a2 := rfl
@[simp] theorem State.tick_a3 : s.tick.a3 = s.a3 := rfl
@[simp] theorem State.tick_r : s.tick.r = s.r := rfl
@[simp] theorem State.tick_va : s.tick.va = s.va := rfl
@[simp] theorem State.tick_vr : s.tick.vr = s.vr := rfl
@[simp] theorem State.tick_pc : s.tick.pc = s.pc + 1 := rfl
@[simp] theorem State.tick_st : s.tick.st = s.st := rfl
@[simp] theorem State.tick_fcmd : s.tick.fcmd = s.fcmd := rfl
@[simp] theorem State.tick_fs : s.tick.fs = s.fs := rfl
@[simp] theorem State.tick_k1 : s.tick.k1 = s.k1 := rfl
@[simp] theorem State.tick_k2 : s.tick.k2 = s.k2 := rfl
@[simp] theorem State.tick_k3 : s.tick.k3 = s.k3 := rfl
@[simp] theorem State.tick_w : s.tick.w = s.w := rfl
@[simp] theorem State.tick_fir : s.tick.fir = s.fir := rfl
@[simp] theorem State.tick_afs : s.tick.afs = s.afs := rfl
@[simp] theorem State.tick_opf : s.tick.opf = s.opf := rfl
@[simp] theorem State.tick_rmp : s.tick.rmp = s.rmp := rfl
@[simp] theorem State.tick_exs : s.tick.exs = s.exs := rfl
@[simp] theorem State.tick_dly : s.tick.dly = s.dly := rfl
@[simp] theorem State.tick_rpt : s.tick.rpt = s.rpt := rfl
@[simp] theorem State.tick_inbox : s.tick.inbox = s.inbox := rfl
@[simp] theorem State.tick_obs : s.tick.obs = s.obs := rfl
@[simp] theorem State.tick_draws : s.tick.draws = s.draws := rfl

end tickFields

section spendFields

variable (s : State)

@[simp] theorem State.spend_cfg : s.spend.cfg = s.cfg := rfl
@[simp] theorem State.spend_a0 : s.spend.a0 = s.a0 := rfl
@[simp] theorem State.spend_a1 : s.spend.a1 = s.a1 := rfl
@[simp] theorem State.spend_a2 : s.spend.a2 = s.a2 := rfl
@[simp] theorem State.spend_a3 : s.spend.a3 = s.a3 := rfl
@[simp] theorem State.spend_r : s.spend.r = s.r := rfl
@[simp] theorem State.spend_va : s.spend.va = s.va := rfl
@[simp] theorem State.spend_vr : s.spend.vr = s.vr := rfl
@[simp] theorem State.spend_pc : s.spend.pc = s.pc := rfl
@[simp] theorem State.spend_st : s.spend.st = s.st := rfl
@[simp] theorem State.spend_fcmd : s.spend.fcmd = s.fcmd := rfl
@[simp] theorem State.spend_fs : s.spend.fs = s.fs := rfl
@[simp] theorem State.spend_k1 : s.spend.k1 = s.k1 := rfl
@[simp] theorem State.spend_k2 : s.spend.k2 = s.k2 := rfl
@[simp] theorem State.spend_k3 : s.spend.k3 = s.k3 := rfl
@[simp] theorem State.spend_w : s.spend.w = s.w := rfl
@[simp] theorem State.spend_fir : s.spend.fir = s.fir := rfl
@[simp] theorem State.spend_afs : s.spend.afs = s.afs := rfl
@[simp] theorem State.spend_opf : s.spend.opf = s.opf := rfl
@[simp] theorem State.spend_rmp : s.spend.rmp = s.rmp := rfl
@[simp] theorem State.spend_exs : s.spend.exs = s.exs := rfl
@[simp] theorem State.spend_dly : s.spend.dly = s.dly := rfl
@[simp] theorem State.spend_rpt : s.spend.rpt = s.rpt := rfl
@[simp] theorem State.spend_inbox : s.spend.inbox = s.inbox := rfl
@[simp] theorem State.spend_obs : s.spend.obs = s.obs := rfl
@[simp] theorem State.spend_draws : s.spend.draws = s.draws + 1 := rfl

end spendFields

section writeRFields

variable (s : State) (x : F32)

@[simp] theorem State.writeR_cfg : (s.writeR x).cfg = s.cfg := rfl
@[simp] theorem State.writeR_a0 : (s.writeR x).a0 = s.a0 := rfl
@[simp] theorem State.writeR_a1 : (s.writeR x).a1 = s.a1 := rfl
@[simp] theorem State.writeR_a2 : (s.writeR x).a2 = s.a2 := rfl
@[simp] theorem State.writeR_a3 : (s.writeR x).a3 = s.a3 := rfl
@[simp] theorem State.writeR_r : (s.writeR x).r = ⟨x, true⟩ := rfl
@[simp] theorem State.writeR_va : (s.writeR x).va = s.va := rfl
@[simp] theorem State.writeR_vr : (s.writeR x).vr = s.vr := rfl
@[simp] theorem State.writeR_pc : (s.writeR x).pc = s.pc := rfl
@[simp] theorem State.writeR_st : (s.writeR x).st = s.st := rfl
@[simp] theorem State.writeR_fcmd : (s.writeR x).fcmd = s.fcmd := rfl
@[simp] theorem State.writeR_fs : (s.writeR x).fs = s.fs := rfl
@[simp] theorem State.writeR_k1 : (s.writeR x).k1 = s.k1 := rfl
@[simp] theorem State.writeR_k2 : (s.writeR x).k2 = s.k2 := rfl
@[simp] theorem State.writeR_k3 : (s.writeR x).k3 = s.k3 := rfl
@[simp] theorem State.writeR_w : (s.writeR x).w = s.w := rfl
@[simp] theorem State.writeR_fir : (s.writeR x).fir = s.fir := rfl
@[simp] theorem State.writeR_afs : (s.writeR x).afs = s.afs := rfl
@[simp] theorem State.writeR_opf : (s.writeR x).opf = s.opf := rfl
@[simp] theorem State.writeR_rmp : (s.writeR x).rmp = s.rmp := rfl
@[simp] theorem State.writeR_exs : (s.writeR x).exs = s.exs := rfl
@[simp] theorem State.writeR_dly : (s.writeR x).dly = s.dly := rfl
@[simp] theorem State.writeR_rpt : (s.writeR x).rpt = s.rpt := rfl
@[simp] theorem State.writeR_inbox : (s.writeR x).inbox = s.inbox := rfl
@[simp] theorem State.writeR_obs : (s.writeR x).obs = s.obs := rfl
@[simp] theorem State.writeR_draws : (s.writeR x).draws = s.draws := rfl

end writeRFields

section writeVaFields

variable (s : State) (v : Lanes)

@[simp] theorem State.writeVa_cfg : (s.writeVa v).cfg = s.cfg := rfl
@[simp] theorem State.writeVa_a0 : (s.writeVa v).a0 = s.a0 := rfl
@[simp] theorem State.writeVa_a1 : (s.writeVa v).a1 = s.a1 := rfl
@[simp] theorem State.writeVa_a2 : (s.writeVa v).a2 = s.a2 := rfl
@[simp] theorem State.writeVa_a3 : (s.writeVa v).a3 = s.a3 := rfl
@[simp] theorem State.writeVa_r : (s.writeVa v).r = s.r := rfl
@[simp] theorem State.writeVa_va : (s.writeVa v).va = ⟨v, true⟩ := rfl
@[simp] theorem State.writeVa_vr : (s.writeVa v).vr = s.vr := rfl
@[simp] theorem State.writeVa_pc : (s.writeVa v).pc = s.pc := rfl
@[simp] theorem State.writeVa_st : (s.writeVa v).st = s.st := rfl
@[simp] theorem State.writeVa_fcmd : (s.writeVa v).fcmd = s.fcmd := rfl
@[simp] theorem State.writeVa_fs : (s.writeVa v).fs = s.fs := rfl
@[simp] theorem State.writeVa_k1 : (s.writeVa v).k1 = s.k1 := rfl
@[simp] theorem State.writeVa_k2 : (s.writeVa v).k2 = s.k2 := rfl
@[simp] theorem State.writeVa_k3 : (s.writeVa v).k3 = s.k3 := rfl
@[simp] theorem State.writeVa_w : (s.writeVa v).w = s.w := rfl
@[simp] theorem State.writeVa_fir : (s.writeVa v).fir = s.fir := rfl
@[simp] theorem State.writeVa_afs : (s.writeVa v).afs = s.afs := rfl
@[simp] theorem State.writeVa_opf : (s.writeVa v).opf = s.opf := rfl
@[simp] theorem State.writeVa_rmp : (s.writeVa v).rmp = s.rmp := rfl
@[simp] theorem State.writeVa_exs : (s.writeVa v).exs = s.exs := rfl
@[simp] theorem State.writeVa_dly : (s.writeVa v).dly = s.dly := rfl
@[simp] theorem State.writeVa_rpt : (s.writeVa v).rpt = s.rpt := rfl
@[simp] theorem State.writeVa_inbox : (s.writeVa v).inbox = s.inbox := rfl
@[simp] theorem State.writeVa_obs : (s.writeVa v).obs = s.obs := rfl
@[simp] theorem State.writeVa_draws : (s.writeVa v).draws = s.draws := rfl

end writeVaFields

section writeVrFields

variable (s : State) (v : Lanes)

@[simp] theorem State.writeVr_cfg : (s.writeVr v).cfg = s.cfg := rfl
@[simp] theorem State.writeVr_a0 : (s.writeVr v).a0 = s.a0 := rfl
@[simp] theorem State.writeVr_a1 : (s.writeVr v).a1 = s.a1 := rfl
@[simp] theorem State.writeVr_a2 : (s.writeVr v).a2 = s.a2 := rfl
@[simp] theorem State.writeVr_a3 : (s.writeVr v).a3 = s.a3 := rfl
@[simp] theorem State.writeVr_r : (s.writeVr v).r = s.r := rfl
@[simp] theorem State.writeVr_va : (s.writeVr v).va = s.va := rfl
@[simp] theorem State.writeVr_vr : (s.writeVr v).vr = ⟨v, true⟩ := rfl
@[simp] theorem State.writeVr_pc : (s.writeVr v).pc = s.pc := rfl
@[simp] theorem State.writeVr_st : (s.writeVr v).st = s.st := rfl
@[simp] theorem State.writeVr_fcmd : (s.writeVr v).fcmd = s.fcmd := rfl
@[simp] theorem State.writeVr_fs : (s.writeVr v).fs = s.fs := rfl
@[simp] theorem State.writeVr_k1 : (s.writeVr v).k1 = s.k1 := rfl
@[simp] theorem State.writeVr_k2 : (s.writeVr v).k2 = s.k2 := rfl
@[simp] theorem State.writeVr_k3 : (s.writeVr v).k3 = s.k3 := rfl
@[simp] theorem State.writeVr_w : (s.writeVr v).w = s.w := rfl
@[simp] theorem State.writeVr_fir : (s.writeVr v).fir = s.fir := rfl
@[simp] theorem State.writeVr_afs : (s.writeVr v).afs = s.afs := rfl
@[simp] theorem State.writeVr_opf : (s.writeVr v).opf = s.opf := rfl
@[simp] theorem State.writeVr_rmp : (s.writeVr v).rmp = s.rmp := rfl
@[simp] theorem State.writeVr_exs : (s.writeVr v).exs = s.exs := rfl
@[simp] theorem State.writeVr_dly : (s.writeVr v).dly = s.dly := rfl
@[simp] theorem State.writeVr_rpt : (s.writeVr v).rpt = s.rpt := rfl
@[simp] theorem State.writeVr_inbox : (s.writeVr v).inbox = s.inbox := rfl
@[simp] theorem State.writeVr_obs : (s.writeVr v).obs = s.obs := rfl
@[simp] theorem State.writeVr_draws : (s.writeVr v).draws = s.draws := rfl

end writeVrFields

section setFirFields

variable (s : State) (u : Nat) (f : Fir)

@[simp] theorem State.setFir_cfg : (s.setFir u f).cfg = s.cfg := rfl
@[simp] theorem State.setFir_a0 : (s.setFir u f).a0 = s.a0 := rfl
@[simp] theorem State.setFir_a1 : (s.setFir u f).a1 = s.a1 := rfl
@[simp] theorem State.setFir_a2 : (s.setFir u f).a2 = s.a2 := rfl
@[simp] theorem State.setFir_a3 : (s.setFir u f).a3 = s.a3 := rfl
@[simp] theorem State.setFir_r : (s.setFir u f).r = s.r := rfl
@[simp] theorem State.setFir_va : (s.setFir u f).va = s.va := rfl
@[simp] theorem State.setFir_vr : (s.setFir u f).vr = s.vr := rfl
@[simp] theorem State.setFir_pc : (s.setFir u f).pc = s.pc := rfl
@[simp] theorem State.setFir_st : (s.setFir u f).st = s.st := rfl
@[simp] theorem State.setFir_fcmd : (s.setFir u f).fcmd = s.fcmd := rfl
@[simp] theorem State.setFir_fs : (s.setFir u f).fs = s.fs := rfl
@[simp] theorem State.setFir_k1 : (s.setFir u f).k1 = s.k1 := rfl
@[simp] theorem State.setFir_k2 : (s.setFir u f).k2 = s.k2 := rfl
@[simp] theorem State.setFir_k3 : (s.setFir u f).k3 = s.k3 := rfl
@[simp] theorem State.setFir_w : (s.setFir u f).w = s.w := rfl
@[simp] theorem State.setFir_fir : (s.setFir u f).fir = s.fir.set u f := rfl
@[simp] theorem State.setFir_afs : (s.setFir u f).afs = s.afs := rfl
@[simp] theorem State.setFir_opf : (s.setFir u f).opf = s.opf := rfl
@[simp] theorem State.setFir_rmp : (s.setFir u f).rmp = s.rmp := rfl
@[simp] theorem State.setFir_exs : (s.setFir u f).exs = s.exs := rfl
@[simp] theorem State.setFir_dly : (s.setFir u f).dly = s.dly := rfl
@[simp] theorem State.setFir_rpt : (s.setFir u f).rpt = s.rpt := rfl
@[simp] theorem State.setFir_inbox : (s.setFir u f).inbox = s.inbox := rfl
@[simp] theorem State.setFir_obs : (s.setFir u f).obs = s.obs := rfl
@[simp] theorem State.setFir_draws : (s.setFir u f).draws = s.draws := rfl

end setFirFields

section setAfsFields

variable (s : State) (u : Nat) (f : Afs)

@[simp] theorem State.setAfs_cfg : (s.setAfs u f).cfg = s.cfg := rfl
@[simp] theorem State.setAfs_a0 : (s.setAfs u f).a0 = s.a0 := rfl
@[simp] theorem State.setAfs_a1 : (s.setAfs u f).a1 = s.a1 := rfl
@[simp] theorem State.setAfs_a2 : (s.setAfs u f).a2 = s.a2 := rfl
@[simp] theorem State.setAfs_a3 : (s.setAfs u f).a3 = s.a3 := rfl
@[simp] theorem State.setAfs_r : (s.setAfs u f).r = s.r := rfl
@[simp] theorem State.setAfs_va : (s.setAfs u f).va = s.va := rfl
@[simp] theorem State.setAfs_vr : (s.setAfs u f).vr = s.vr := rfl
@[simp] theorem State.setAfs_pc : (s.setAfs u f).pc = s.pc := rfl
@[simp] theorem State.setAfs_st : (s.setAfs u f).st = s.st := rfl
@[simp] theorem State.setAfs_fcmd : (s.setAfs u f).fcmd = s.fcmd := rfl
@[simp] theorem State.setAfs_fs : (s.setAfs u f).fs = s.fs := rfl
@[simp] theorem State.setAfs_k1 : (s.setAfs u f).k1 = s.k1 := rfl
@[simp] theorem State.setAfs_k2 : (s.setAfs u f).k2 = s.k2 := rfl
@[simp] theorem State.setAfs_k3 : (s.setAfs u f).k3 = s.k3 := rfl
@[simp] theorem State.setAfs_w : (s.setAfs u f).w = s.w := rfl
@[simp] theorem State.setAfs_fir : (s.setAfs u f).fir = s.fir := rfl
@[simp] theorem State.setAfs_afs : (s.setAfs u f).afs = s.afs.set u f := rfl
@[simp] theorem State.setAfs_opf : (s.setAfs u f).opf = s.opf := rfl
@[simp] theorem State.setAfs_rmp : (s.setAfs u f).rmp = s.rmp := rfl
@[simp] theorem State.setAfs_exs : (s.setAfs u f).exs = s.exs := rfl
@[simp] theorem State.setAfs_dly : (s.setAfs u f).dly = s.dly := rfl
@[simp] theorem State.setAfs_rpt : (s.setAfs u f).rpt = s.rpt := rfl
@[simp] theorem State.setAfs_inbox : (s.setAfs u f).inbox = s.inbox := rfl
@[simp] theorem State.setAfs_obs : (s.setAfs u f).obs = s.obs := rfl
@[simp] theorem State.setAfs_draws : (s.setAfs u f).draws = s.draws := rfl

end setAfsFields

section setOpfFields

variable (s : State) (u : Nat) (f : OnePole)

@[simp] theorem State.setOpf_cfg : (s.setOpf u f).cfg = s.cfg := rfl
@[simp] theorem State.setOpf_a0 : (s.setOpf u f).a0 = s.a0 := rfl
@[simp] theorem State.setOpf_a1 : (s.setOpf u f).a1 = s.a1 := rfl
@[simp] theorem State.setOpf_a2 : (s.setOpf u f).a2 = s.a2 := rfl
@[simp] theorem State.setOpf_a3 : (s.setOpf u f).a3 = s.a3 := rfl
@[simp] theorem State.setOpf_r : (s.setOpf u f).r = s.r := rfl
@[simp] theorem State.setOpf_va : (s.setOpf u f).va = s.va := rfl
@[simp] theorem State.setOpf_vr : (s.setOpf u f).vr = s.vr := rfl
@[simp] theorem State.setOpf_pc : (s.setOpf u f).pc = s.pc := rfl
@[simp] theorem State.setOpf_st : (s.setOpf u f).st = s.st := rfl
@[simp] theorem State.setOpf_fcmd : (s.setOpf u f).fcmd = s.fcmd := rfl
@[simp] theorem State.setOpf_fs : (s.setOpf u f).fs = s.fs := rfl
@[simp] theorem State.setOpf_k1 : (s.setOpf u f).k1 = s.k1 := rfl
@[simp] theorem State.setOpf_k2 : (s.setOpf u f).k2 = s.k2 := rfl
@[simp] theorem State.setOpf_k3 : (s.setOpf u f).k3 = s.k3 := rfl
@[simp] theorem State.setOpf_w : (s.setOpf u f).w = s.w := rfl
@[simp] theorem State.setOpf_fir : (s.setOpf u f).fir = s.fir := rfl
@[simp] theorem State.setOpf_afs : (s.setOpf u f).afs = s.afs := rfl
@[simp] theorem State.setOpf_opf : (s.setOpf u f).opf = s.opf.set u f := rfl
@[simp] theorem State.setOpf_rmp : (s.setOpf u f).rmp = s.rmp := rfl
@[simp] theorem State.setOpf_exs : (s.setOpf u f).exs = s.exs := rfl
@[simp] theorem State.setOpf_dly : (s.setOpf u f).dly = s.dly := rfl
@[simp] theorem State.setOpf_rpt : (s.setOpf u f).rpt = s.rpt := rfl
@[simp] theorem State.setOpf_inbox : (s.setOpf u f).inbox = s.inbox := rfl
@[simp] theorem State.setOpf_obs : (s.setOpf u f).obs = s.obs := rfl
@[simp] theorem State.setOpf_draws : (s.setOpf u f).draws = s.draws := rfl

end setOpfFields

section setRmpFields

variable (s : State) (u : Nat) (f : Ramp)

@[simp] theorem State.setRmp_cfg : (s.setRmp u f).cfg = s.cfg := rfl
@[simp] theorem State.setRmp_a0 : (s.setRmp u f).a0 = s.a0 := rfl
@[simp] theorem State.setRmp_a1 : (s.setRmp u f).a1 = s.a1 := rfl
@[simp] theorem State.setRmp_a2 : (s.setRmp u f).a2 = s.a2 := rfl
@[simp] theorem State.setRmp_a3 : (s.setRmp u f).a3 = s.a3 := rfl
@[simp] theorem State.setRmp_r : (s.setRmp u f).r = s.r := rfl
@[simp] theorem State.setRmp_va : (s.setRmp u f).va = s.va := rfl
@[simp] theorem State.setRmp_vr : (s.setRmp u f).vr = s.vr := rfl
@[simp] theorem State.setRmp_pc : (s.setRmp u f).pc = s.pc := rfl
@[simp] theorem State.setRmp_st : (s.setRmp u f).st = s.st := rfl
@[simp] theorem State.setRmp_fcmd : (s.setRmp u f).fcmd = s.fcmd := rfl
@[simp] theorem State.setRmp_fs : (s.setRmp u f).fs = s.fs := rfl
@[simp] theorem State.setRmp_k1 : (s.setRmp u f).k1 = s.k1 := rfl
@[simp] theorem State.setRmp_k2 : (s.setRmp u f).k2 = s.k2 := rfl
@[simp] theorem State.setRmp_k3 : (s.setRmp u f).k3 = s.k3 := rfl
@[simp] theorem State.setRmp_w : (s.setRmp u f).w = s.w := rfl
@[simp] theorem State.setRmp_fir : (s.setRmp u f).fir = s.fir := rfl
@[simp] theorem State.setRmp_afs : (s.setRmp u f).afs = s.afs := rfl
@[simp] theorem State.setRmp_opf : (s.setRmp u f).opf = s.opf := rfl
@[simp] theorem State.setRmp_rmp : (s.setRmp u f).rmp = s.rmp.set u f := rfl
@[simp] theorem State.setRmp_exs : (s.setRmp u f).exs = s.exs := rfl
@[simp] theorem State.setRmp_dly : (s.setRmp u f).dly = s.dly := rfl
@[simp] theorem State.setRmp_rpt : (s.setRmp u f).rpt = s.rpt := rfl
@[simp] theorem State.setRmp_inbox : (s.setRmp u f).inbox = s.inbox := rfl
@[simp] theorem State.setRmp_obs : (s.setRmp u f).obs = s.obs := rfl
@[simp] theorem State.setRmp_draws : (s.setRmp u f).draws = s.draws := rfl

end setRmpFields

section setExsFields

variable (s : State) (u : Nat) (f : Exs)

@[simp] theorem State.setExs_cfg : (s.setExs u f).cfg = s.cfg := rfl
@[simp] theorem State.setExs_a0 : (s.setExs u f).a0 = s.a0 := rfl
@[simp] theorem State.setExs_a1 : (s.setExs u f).a1 = s.a1 := rfl
@[simp] theorem State.setExs_a2 : (s.setExs u f).a2 = s.a2 := rfl
@[simp] theorem State.setExs_a3 : (s.setExs u f).a3 = s.a3 := rfl
@[simp] theorem State.setExs_r : (s.setExs u f).r = s.r := rfl
@[simp] theorem State.setExs_va : (s.setExs u f).va = s.va := rfl
@[simp] theorem State.setExs_vr : (s.setExs u f).vr = s.vr := rfl
@[simp] theorem State.setExs_pc : (s.setExs u f).pc = s.pc := rfl
@[simp] theorem State.setExs_st : (s.setExs u f).st = s.st := rfl
@[simp] theorem State.setExs_fcmd : (s.setExs u f).fcmd = s.fcmd := rfl
@[simp] theorem State.setExs_fs : (s.setExs u f).fs = s.fs := rfl
@[simp] theorem State.setExs_k1 : (s.setExs u f).k1 = s.k1 := rfl
@[simp] theorem State.setExs_k2 : (s.setExs u f).k2 = s.k2 := rfl
@[simp] theorem State.setExs_k3 : (s.setExs u f).k3 = s.k3 := rfl
@[simp] theorem State.setExs_w : (s.setExs u f).w = s.w := rfl
@[simp] theorem State.setExs_fir : (s.setExs u f).fir = s.fir := rfl
@[simp] theorem State.setExs_afs : (s.setExs u f).afs = s.afs := rfl
@[simp] theorem State.setExs_opf : (s.setExs u f).opf = s.opf := rfl
@[simp] theorem State.setExs_rmp : (s.setExs u f).rmp = s.rmp := rfl
@[simp] theorem State.setExs_exs : (s.setExs u f).exs = s.exs.set u f := rfl
@[simp] theorem State.setExs_dly : (s.setExs u f).dly = s.dly := rfl
@[simp] theorem State.setExs_rpt : (s.setExs u f).rpt = s.rpt := rfl
@[simp] theorem State.setExs_inbox : (s.setExs u f).inbox = s.inbox := rfl
@[simp] theorem State.setExs_obs : (s.setExs u f).obs = s.obs := rfl
@[simp] theorem State.setExs_draws : (s.setExs u f).draws = s.draws := rfl

end setExsFields

section setDlyFields

variable (s : State) (u : Nat) (f : Delay)

@[simp] theorem State.setDly_cfg : (s.setDly u f).cfg = s.cfg := rfl
@[simp] theorem State.setDly_a0 : (s.setDly u f).a0 = s.a0 := rfl
@[simp] theorem State.setDly_a1 : (s.setDly u f).a1 = s.a1 := rfl
@[simp] theorem State.setDly_a2 : (s.setDly u f).a2 = s.a2 := rfl
@[simp] theorem State.setDly_a3 : (s.setDly u f).a3 = s.a3 := rfl
@[simp] theorem State.setDly_r : (s.setDly u f).r = s.r := rfl
@[simp] theorem State.setDly_va : (s.setDly u f).va = s.va := rfl
@[simp] theorem State.setDly_vr : (s.setDly u f).vr = s.vr := rfl
@[simp] theorem State.setDly_pc : (s.setDly u f).pc = s.pc := rfl
@[simp] theorem State.setDly_st : (s.setDly u f).st = s.st := rfl
@[simp] theorem State.setDly_fcmd : (s.setDly u f).fcmd = s.fcmd := rfl
@[simp] theorem State.setDly_fs : (s.setDly u f).fs = s.fs := rfl
@[simp] theorem State.setDly_k1 : (s.setDly u f).k1 = s.k1 := rfl
@[simp] theorem State.setDly_k2 : (s.setDly u f).k2 = s.k2 := rfl
@[simp] theorem State.setDly_k3 : (s.setDly u f).k3 = s.k3 := rfl
@[simp] theorem State.setDly_w : (s.setDly u f).w = s.w := rfl
@[simp] theorem State.setDly_fir : (s.setDly u f).fir = s.fir := rfl
@[simp] theorem State.setDly_afs : (s.setDly u f).afs = s.afs := rfl
@[simp] theorem State.setDly_opf : (s.setDly u f).opf = s.opf := rfl
@[simp] theorem State.setDly_rmp : (s.setDly u f).rmp = s.rmp := rfl
@[simp] theorem State.setDly_exs : (s.setDly u f).exs = s.exs := rfl
@[simp] theorem State.setDly_dly : (s.setDly u f).dly = s.dly.set u f := rfl
@[simp] theorem State.setDly_rpt : (s.setDly u f).rpt = s.rpt := rfl
@[simp] theorem State.setDly_inbox : (s.setDly u f).inbox = s.inbox := rfl
@[simp] theorem State.setDly_obs : (s.setDly u f).obs = s.obs := rfl
@[simp] theorem State.setDly_draws : (s.setDly u f).draws = s.draws := rfl

end setDlyFields

section setRptFields

variable (s : State) (u : Nat) (f : RepeatUnit)

@[simp] theorem State.setRpt_cfg : (s.setRpt u f).cfg = s.cfg := rfl
@[simp] theorem State.setRpt_a0 : (s.setRpt u f).a0 = s.a0 := rfl
@[simp] theorem State.setRpt_a1 : (s.setRpt u f).a1 = s.a1 := rfl
@[simp] theorem State.setRpt_a2 : (s.setRpt u f).a2 = s.a2 := rfl
@[simp] theorem State.setRpt_a3 : (s.setRpt u f).a3 = s.a3 := rfl
@[simp] theorem State.setRpt_r : (s.setRpt u f).r = s.r := rfl
@[simp] theorem State.setRpt_va : (s.setRpt u f).va = s.va := rfl
@[simp] theorem State.setRpt_vr : (s.setRpt u f).vr = s.vr := rfl
@[simp] theorem State.setRpt_pc : (s.setRpt u f).pc = s.pc := rfl
@[simp] theorem State.setRpt_st : (s.setRpt u f).st = s.st := rfl
@[simp] theorem State.setRpt_fcmd : (s.setRpt u f).fcmd = s.fcmd := rfl
@[simp] theorem State.setRpt_fs : (s.setRpt u f).fs = s.fs := rfl
@[simp] theorem State.setRpt_k1 : (s.setRpt u f).k1 = s.k1 := rfl
@[simp] theorem State.setRpt_k2 : (s.setRpt u f).k2 = s.k2 := rfl
@[simp] theorem State.setRpt_k3 : (s.setRpt u f).k3 = s.k3 := rfl
@[simp] theorem State.setRpt_w : (s.setRpt u f).w = s.w := rfl
@[simp] theorem State.setRpt_fir : (s.setRpt u f).fir = s.fir := rfl
@[simp] theorem State.setRpt_afs : (s.setRpt u f).afs = s.afs := rfl
@[simp] theorem State.setRpt_opf : (s.setRpt u f).opf = s.opf := rfl
@[simp] theorem State.setRpt_rmp : (s.setRpt u f).rmp = s.rmp := rfl
@[simp] theorem State.setRpt_exs : (s.setRpt u f).exs = s.exs := rfl
@[simp] theorem State.setRpt_dly : (s.setRpt u f).dly = s.dly := rfl
@[simp] theorem State.setRpt_rpt : (s.setRpt u f).rpt = s.rpt.set u f := rfl
@[simp] theorem State.setRpt_inbox : (s.setRpt u f).inbox = s.inbox := rfl
@[simp] theorem State.setRpt_obs : (s.setRpt u f).obs = s.obs := rfl
@[simp] theorem State.setRpt_draws : (s.setRpt u f).draws = s.draws := rfl

end setRptFields

section raiseFields

variable (e : Cause) (cmd : Word) (s : State)

@[simp] theorem raise_cfg : (raise e cmd s).cfg = s.cfg := rfl
@[simp] theorem raise_a0 : (raise e cmd s).a0 = s.a0 := rfl
@[simp] theorem raise_a1 : (raise e cmd s).a1 = s.a1 := rfl
@[simp] theorem raise_a2 : (raise e cmd s).a2 = s.a2 := rfl
@[simp] theorem raise_a3 : (raise e cmd s).a3 = s.a3 := rfl
@[simp] theorem raise_r : (raise e cmd s).r = s.r := rfl
@[simp] theorem raise_va : (raise e cmd s).va = s.va := rfl
@[simp] theorem raise_vr : (raise e cmd s).vr = s.vr := rfl
@[simp] theorem raise_pc : (raise e cmd s).pc = s.pc := rfl
@[simp] theorem raise_st : (raise e cmd s).st = stRaise e s.st := rfl
@[simp] theorem raise_fcmd : (raise e cmd s).fcmd = if s.isFaulted then s.fcmd else cmd := rfl
@[simp] theorem raise_fs : (raise e cmd s).fs = s.fs := rfl
@[simp] theorem raise_k1 : (raise e cmd s).k1 = s.k1 := rfl
@[simp] theorem raise_k2 : (raise e cmd s).k2 = s.k2 := rfl
@[simp] theorem raise_k3 : (raise e cmd s).k3 = s.k3 := rfl
@[simp] theorem raise_w : (raise e cmd s).w = s.w := rfl
@[simp] theorem raise_fir : (raise e cmd s).fir = s.fir := rfl
@[simp] theorem raise_afs : (raise e cmd s).afs = s.afs := rfl
@[simp] theorem raise_opf : (raise e cmd s).opf = s.opf := rfl
@[simp] theorem raise_rmp : (raise e cmd s).rmp = s.rmp := rfl
@[simp] theorem raise_exs : (raise e cmd s).exs = s.exs := rfl
@[simp] theorem raise_dly : (raise e cmd s).dly = s.dly := rfl
@[simp] theorem raise_rpt : (raise e cmd s).rpt = s.rpt := rfl
@[simp] theorem raise_inbox : (raise e cmd s).inbox = s.inbox := rfl
@[simp] theorem raise_obs : (raise e cmd s).obs = s.obs := rfl
@[simp] theorem raise_draws : (raise e cmd s).draws = s.draws := rfl

end raiseFields

section constructFields

variable (fs : F32) (s : State)

@[simp] theorem construct_cfg : (construct fs s).cfg = s.cfg := rfl
@[simp] theorem construct_a0 : (construct fs s).a0 = s.a0 := rfl
@[simp] theorem construct_a1 : (construct fs s).a1 = s.a1 := rfl
@[simp] theorem construct_a2 : (construct fs s).a2 = s.a2 := rfl
@[simp] theorem construct_a3 : (construct fs s).a3 = s.a3 := rfl
@[simp] theorem construct_r : (construct fs s).r = s.r := rfl
@[simp] theorem construct_va : (construct fs s).va = s.va := rfl
@[simp] theorem construct_vr : (construct fs s).vr = s.vr := rfl
@[simp] theorem construct_pc : (construct fs s).pc = s.pc := rfl
@[simp] theorem construct_inbox : (construct fs s).inbox = s.inbox := rfl
@[simp] theorem construct_obs : (construct fs s).obs = s.obs := rfl
@[simp] theorem construct_draws : (construct fs s).draws = s.draws := rfl
@[simp] theorem construct_fs : (construct fs s).fs = fs := rfl
@[simp] theorem construct_st : (construct fs s).st = stConstructed s.st := rfl
@[simp] theorem construct_fcmd : (construct fs s).fcmd = 0 := rfl
@[simp] theorem construct_fir :
    (construct fs s).fir = (List.range s.cfg.nFir).map fun u => newFir s.cfg u s.cfg.l := rfl
@[simp] theorem construct_afs : (construct fs s).afs = List.replicate s.cfg.nAfs newAfs := rfl
@[simp] theorem construct_opf : (construct fs s).opf = List.replicate s.cfg.nOpf OnePole.zero := rfl
@[simp] theorem construct_exs : (construct fs s).exs = List.replicate s.cfg.nExs ⟨OnePole.zero⟩ := rfl
@[simp] theorem construct_rmp : (construct fs s).rmp = List.replicate s.cfg.nRmp ⟨0, 0, 0, 0⟩ := rfl
@[simp] theorem construct_dly :
    (construct fs s).dly = List.replicate s.cfg.nDly ⟨intOf (engineCapf s.cfg s.draw fs), 0, engineScale s.draw fs, []⟩ := rfl
@[simp] theorem construct_rpt : (construct fs s).rpt = List.replicate s.cfg.nRpt newRpt := rfl

end constructFields

end Sys2Proof.Machine
end

