-- ==== Sys2Proof/Laws/Command.lean ====
section
/-! SUPPORT. What the shared control operations can answer: the sequencing of parts, the operand reads, the gate
and the checks. Later proofs cite these and do not unfold the operations. -/

namespace Sys2Proof.Machine

/-! Sequencing -/

@[simp] theorem andThen_next (s : State) (k : State → Result) :
    Result.andThen (Host.Outcome.next s) k = k s := rfl

@[simp] theorem andThen_fault (f : Fault) (k : State → Result) :
    Result.andThen (Host.Outcome.fault f) k = .fault f := rfl

@[simp] theorem andThen_refused (r : Refusal) (k : State → Result) :
    Result.andThen (Host.Outcome.refused r) k = .refused r := rfl

theorem andThen_eq_next {a : Result} {k : State → Result} {t : State} :
    a.andThen k = .next t ↔ ∃ m, a = .next m ∧ k m = .next t := by
  cases a <;> simp [Result.andThen]

theorem andThen_eq_fault {a : Result} {k : State → Result} {f : Fault} :
    a.andThen k = .fault f ↔ a = .fault f ∨ ∃ m, a = .next m ∧ k m = .fault f := by
  cases a <;> simp [Result.andThen]

/-! Operands -/

theorem withOperand_written {reg : PortReg} {p : Port} (h : p.written = true) (k : F32 → Result) :
    withOperand reg p k = k p.val := by simp [withOperand, h]

theorem withOperand_unwritten {reg : PortReg} {p : Port} (h : p.written = false) (k : F32 → Result) :
    withOperand reg p k = .refused (.unwrittenOperand reg) := by simp [withOperand, h]

theorem withOperand_eq_next {reg : PortReg} {p : Port} {k : F32 → Result} {t : State} :
    withOperand reg p k = .next t ↔ p.written = true ∧ k p.val = .next t := by
  unfold withOperand; split <;> simp_all

theorem withOperand_eq_fault {reg : PortReg} {p : Port} {k : F32 → Result} {f : Fault} :
    withOperand reg p k = .fault f ↔ p.written = true ∧ k p.val = .fault f := by
  unfold withOperand; split <;> simp_all

theorem withLanes_written {reg : PortReg} {p : VecPort} (h : p.written = true) (k : Lanes → Result) :
    withLanes reg p k = k p.lanes := by simp [withLanes, h]

theorem withLanes_unwritten {reg : PortReg} {p : VecPort} (h : p.written = false) (k : Lanes → Result) :
    withLanes reg p k = .refused (.unwrittenOperand reg) := by simp [withLanes, h]

theorem withLanes_eq_next {reg : PortReg} {p : VecPort} {k : Lanes → Result} {t : State} :
    withLanes reg p k = .next t ↔ p.written = true ∧ k p.lanes = .next t := by
  unfold withLanes; split <;> simp_all

theorem withLanes_eq_fault {reg : PortReg} {p : VecPort} {k : Lanes → Result} {f : Fault} :
    withLanes reg p k = .fault f ↔ p.written = true ∧ k p.lanes = .fault f := by
  unfold withLanes; split <;> simp_all

theorem withUnit_some {α : Type} {file : List α} {u : Nat} {x : α} (h : file[u]? = some x) (k : α → Result) :
    withUnit file u k = k x := by simp [withUnit, h]

theorem withUnit_eq_next {α : Type} {file : List α} {u : Nat} {k : α → Result} {t : State} :
    withUnit file u k = .next t ↔ ∃ x, file[u]? = some x ∧ k x = .next t := by
  unfold withUnit; split <;> simp_all

theorem withUnit_eq_fault {α : Type} {file : List α} {u : Nat} {k : α → Result} {f : Fault} :
    withUnit file u k = .fault f ↔ file[u]? = none ∨ ∃ x, file[u]? = some x ∧ k x = .fault f := by
  cases f
  unfold withUnit; split <;> simp_all

/-! The gate and the checks -/

/-- In READY the gate lets every word pass (60_exceptions.md R263). -/
theorem gate_ready {cmd : Word} {s : State} (h : s.isReady = true) (k : State → Result) :
    gate cmd s k = (k s).andThen fun t => .next t.tick := by
  simp only [State.isReady, Bool.and_eq_true, Bool.not_eq_true'] at h
  simp [gate, h.1, h.2]

/-- An `ENG.NEW` word passes the gate in every condition (60_exceptions.md R263). -/
theorem gate_engNew {cmd : Word} (h : opcField cmd = 0x01) (s : State) (k : State → Result) :
    gate cmd s k = (k s).andThen fun t => .next t.tick := by simp [gate, h]

/-- What the gate can answer with a next state. -/
theorem gate_eq_next {cmd : Word} {s t : State} {k : State → Result} (h : gate cmd s k = .next t) :
    (opcField cmd ≠ 0x01 ∧ s.isFaulted = true ∧ t = s.tick) ∨
    (opcField cmd ≠ 0x01 ∧ s.isFaulted = false ∧ s.isConfigured = false ∧ t = (raise .noCfg cmd s).tick) ∨
    ((opcField cmd = 0x01 ∨ s.isReady = true) ∧ ∃ m, k s = .next m ∧ t = m.tick) := by
  unfold gate at h
  obtain ⟨m, hm, ht⟩ := andThen_eq_next.mp h
  cases ht
  split at hm
  · rename_i h1
    cases hm
    exact .inl ⟨h1.1, h1.2, rfl⟩
  · rename_i h1
    split at hm
    · rename_i h2
      cases hm
      have hf : s.isFaulted = false := by
        by_contra hc
        exact h1 ⟨h2.1, by simpa using hc⟩
      exact .inr (.inl ⟨h2.1, hf, h2.2, rfl⟩)
    · rename_i h2
      refine .inr (.inr ⟨?_, m, hm, rfl⟩)
      by_cases ho : opcField cmd = 0x01
      · exact .inl ho
      · refine .inr ?_
        simp only [State.isReady, Bool.and_eq_true, Bool.not_eq_true']
        constructor
        · by_contra hc
          exact h2 ⟨ho, by simpa using hc⟩
        · by_contra hc
          exact h1 ⟨ho, by simpa using hc⟩

/-- The gate stops only where what is behind it stops. -/
theorem gate_eq_fault {cmd : Word} {s : State} {k : State → Result} {f : Fault} (h : gate cmd s k = .fault f) :
    (opcField cmd = 0x01 ∨ s.isReady = true) ∧ k s = .fault f := by
  unfold gate at h
  rcases andThen_eq_fault.mp h with hm | ⟨m, _, hm⟩
  · split at hm
    · cases hm
    · rename_i h1
      split at hm
      · cases hm
      · rename_i h2
        refine ⟨?_, hm⟩
        by_cases ho : opcField cmd = 0x01
        · exact .inl ho
        · refine .inr ?_
          simp only [State.isReady, Bool.and_eq_true, Bool.not_eq_true']
          constructor
          · by_contra hc
            exact h2 ⟨ho, by simpa using hc⟩
          · by_contra hc
            exact h1 ⟨ho, by simpa using hc⟩
  · cases hm

/-- In READY, with legal fields, a command is its body and the advance of pc. -/
theorem command_ready {i : Instr} {s : State} (h : s.isReady = true) (hf : fieldCheck s.cfg i = none)
    (body : State → Result) : command i s body = (body s).andThen fun t => .next t.tick := by
  rw [command, gate_ready h, hf]

/-- In READY, with fields that are not legal, a command is the fault of its check. -/
theorem command_ready_illegal {i : Instr} {s : State} {e : Cause} (h : s.isReady = true)
    (hf : fieldCheck s.cfg i = some e) (body : State → Result) :
    command i s body = .next (raise e (encode i) s).tick := by
  rw [command, gate_ready h, hf]
  rfl

/-- What a command can answer with a next state: refused by the core, `E_NOCFG`, a fault of its field check, or its
own body. -/
theorem command_eq_next {i : Instr} {s t : State} {body : State → Result} (h : command i s body = .next t) :
    (opcField (encode i) ≠ 0x01 ∧ s.isFaulted = true ∧ t = s.tick) ∨
    (opcField (encode i) ≠ 0x01 ∧ s.isFaulted = false ∧ s.isConfigured = false ∧
      t = (raise .noCfg (encode i) s).tick) ∨
    ((opcField (encode i) = 0x01 ∨ s.isReady = true) ∧
      ((∃ e, fieldCheck s.cfg i = some e ∧ t = (raise e (encode i) s).tick) ∨
       (fieldCheck s.cfg i = none ∧ ∃ m, body s = .next m ∧ t = m.tick))) := by
  rcases gate_eq_next h with h1 | h1 | ⟨h1, m, hm, ht⟩
  · exact .inl h1
  · exact .inr (.inl h1)
  · refine .inr (.inr ⟨h1, ?_⟩)
    cases hc : fieldCheck s.cfg i with
    | some e =>
      rw [hc] at hm
      cases hm
      exact .inl ⟨e, rfl, ht⟩
    | none =>
      rw [hc] at hm
      exact .inr ⟨rfl, m, hm, ht⟩

/-- A command stops with a fault only where its body does, past the gate and the checks. -/
theorem command_eq_fault {i : Instr} {s : State} {body : State → Result} {f : Fault}
    (h : command i s body = .fault f) :
    (opcField (encode i) = 0x01 ∨ s.isReady = true) ∧ fieldCheck s.cfg i = none ∧ body s = .fault f := by
  obtain ⟨h1, h2⟩ := gate_eq_fault h
  cases hc : fieldCheck s.cfg i with
  | some e =>
    rw [hc] at h2
    cases h2
  | none =>
    rw [hc] at h2
    exact ⟨h1, rfl, h2⟩

end Sys2Proof.Machine
end

