-- ==== Sys2Proof/Laws/Memory.lean ====
section
/-! SUPPORT. The laws of memory: what a read gives after a write, and that every memory operation keeps the
canonical form. -/

namespace Sys2Proof.Machine

@[simp] theorem Memory.read_nil (a : Nat) : Memory.read [] a = blankWord := rfl

theorem Memory.read_cons (b : Nat) (v : Word) (m : Memory) (a : Nat) :
    Memory.read ((b, v) :: m) a = if a = b then v else Memory.read m a := rfl

theorem Memory.wfFrom_mono {lo hi : Nat} {m : Memory} (h : lo ≤ hi) (hm : Memory.wfFrom hi m = true) :
    Memory.wfFrom lo m = true := by
  cases m with
  | nil => rfl
  | cons p rest =>
    obtain ⟨a, v⟩ := p
    simp only [Memory.wfFrom, Bool.and_eq_true, decide_eq_true_eq] at hm ⊢
    exact ⟨⟨le_trans h hm.1.1, hm.1.2⟩, hm.2⟩

/-- Below the first listed index everything is blank. -/
theorem Memory.read_below {lo : Nat} {m : Memory} (hm : Memory.wfFrom lo m = true) {a : Nat} (h : a < lo) :
    Memory.read m a = blankWord := by
  induction m generalizing lo with
  | nil => rfl
  | cons p rest ih =>
    obtain ⟨b, v⟩ := p
    simp only [Memory.wfFrom, Bool.and_eq_true, decide_eq_true_eq] at hm
    rw [Memory.read_cons, if_neg (by omega)]
    exact ih hm.2 (by omega)

theorem Memory.wfFrom_write {lo : Nat} {m : Memory} (hm : Memory.wfFrom lo m = true) {a : Nat} (h : lo ≤ a)
    (v : Word) : Memory.wfFrom lo (Memory.write m a v) = true := by
  induction m generalizing lo with
  | nil =>
    unfold Memory.write
    split
    · rfl
    · simp_all [Memory.wfFrom]
  | cons p rest ih =>
    obtain ⟨b, x⟩ := p
    have hm' := hm
    simp only [Memory.wfFrom, Bool.and_eq_true, decide_eq_true_eq] at hm
    unfold Memory.write
    split
    · split
      · exact hm'
      · simp_all [Memory.wfFrom]
    · split
      · split
        · exact Memory.wfFrom_mono (by omega) hm.2
        · simp_all [Memory.wfFrom]
      · have := ih (lo := b + 1) hm.2 (by omega)
        simp_all [Memory.wfFrom]

/-- A write keeps the canonical form. -/
theorem Memory.wf_write {m : Memory} (hm : m.wf = true) (a : Nat) (v : Word) : (Memory.write m a v).wf = true :=
  Memory.wfFrom_write hm (Nat.zero_le a) v

/-- A read after a write to the same index gives the word written. -/
@[simp] theorem Memory.read_write_same {lo : Nat} {m : Memory} (hm : Memory.wfFrom lo m = true) (a : Nat) (v : Word) :
    Memory.read (Memory.write m a v) a = v := by
  induction m generalizing lo with
  | nil =>
    unfold Memory.write
    split <;> simp_all [Memory.read_cons]
  | cons p rest ih =>
    obtain ⟨b, x⟩ := p
    simp only [Memory.wfFrom, Bool.and_eq_true, decide_eq_true_eq] at hm
    unfold Memory.write
    split
    · rename_i hab
      split
      · rename_i hv
        rw [Memory.read_cons, if_neg (by omega), hv]
        exact Memory.read_below hm.2 (by omega)
      · simp [Memory.read_cons]
    · split
      · rename_i hab
        split
        · rename_i hv
          rw [hv]
          exact Memory.read_below hm.2 (by omega)
        · simp [Memory.read_cons]
      · rename_i h1 h2
        rw [Memory.read_cons, if_neg h2]
        exact ih hm.2

/-- A write leaves every other index as it was. -/
theorem Memory.read_write_other {m : Memory} {a c : Nat} (h : c ≠ a) (v : Word) :
    Memory.read (Memory.write m a v) c = Memory.read m c := by
  induction m with
  | nil =>
    unfold Memory.write
    split
    · rfl
    · simp [Memory.read_cons, h]
  | cons p rest ih =>
    obtain ⟨b, x⟩ := p
    unfold Memory.write
    split
    · split
      · rfl
      · simp [Memory.read_cons, h]
    · split
      · rename_i hab
        split
        · simp [Memory.read_cons, ← hab, h]
        · simp [Memory.read_cons, ← hab, h]
      · simp only [Memory.read_cons, ih]

theorem Memory.wf_writeWords {m : Memory} (hm : m.wf = true) (a : Nat) (vs : List Word) :
    (Memory.writeWords m a vs).wf = true := by
  induction vs generalizing m a with
  | nil => exact hm
  | cons v vs ih => exact ih (Memory.wf_write hm a v) (a + 1)

/-- Outside the words written, nothing changes. -/
theorem Memory.read_writeWords_other {m : Memory} {a c : Nat} {vs : List Word} (h : c < a ∨ a + vs.length ≤ c) :
    Memory.read (Memory.writeWords m a vs) c = Memory.read m c := by
  induction vs generalizing m a with
  | nil => rfl
  | cons v vs ih =>
    simp only [List.length_cons] at h
    rw [Memory.writeWords, ih (by omega), Memory.read_write_other (by omega)]

/-- The words written are there. -/
theorem Memory.read_writeWords_at {m : Memory} (hm : m.wf = true) {a j : Nat} {vs : List Word} (h : j < vs.length) :
    Memory.read (Memory.writeWords m a vs) (a + j) = vs[j] := by
  induction vs generalizing m a j with
  | nil => simp at h
  | cons v vs ih =>
    rw [Memory.writeWords]
    cases j with
    | zero =>
      rw [Memory.read_writeWords_other (by omega)]
      exact Memory.read_write_same hm a v
    | succ j =>
      have h' : j < vs.length := by simpa using h
      have := ih (Memory.wf_write hm a v) (a := a + 1) h'
      rw [show a + (j + 1) = a + 1 + j by omega, this]
      rfl

@[simp] theorem vecOf_length (n : Nat) (f : Nat → F32) : (vecOf n f).length = n := by simp [vecOf]

@[simp] theorem vecOf_getElem {n : Nat} (f : Nat → F32) {j : Nat} (h : j < (vecOf n f).length) :
    (vecOf n f)[j] = f j := by simp [vecOf]

theorem lane_vecOf {n j : Nat} (f : Nat → F32) (h : j < n) : lane (vecOf n f) j = f j := by
  simp [lane, vecOf, List.getD, List.getElem?_range h]

theorem Memory.wf_writeVec {m : Memory} (hm : m.wf = true) (n i : Nat) (v : Lanes) : (m.writeVec n i v).wf = true :=
  Memory.wf_writeWords hm _ _

/-- The element written reads as the lanes written. -/
theorem Memory.readLane_writeVec_same {m : Memory} (hm : m.wf = true) {n i j : Nat} (v : Lanes) (h : j < n) :
    (m.writeVec n i v).readLane n i j = lane v j := by
  have hj : j < (vecOf n (lane v)).length := by simpa using h
  rw [Memory.writeVec, Memory.readLane, Memory.read_writeWords_at hm hj, vecOf_getElem]

/-- Every other element reads as before. -/
theorem Memory.readLane_writeVec_other {m : Memory} {n i e j : Nat} (v : Lanes) (he : e ≠ i) (h : j < n) :
    (m.writeVec n i v).readLane n e j = m.readLane n e j := by
  rw [Memory.writeVec, Memory.readLane, Memory.read_writeWords_other, ← Memory.readLane]
  rw [vecOf_length]
  rcases lt_or_gt_of_ne he with hlt | hgt
  · left
    calc e * n + j < e * n + n := by omega
      _ = (e + 1) * n := by ring
      _ ≤ i * n := Nat.mul_le_mul_right n hlt
  · right
    calc i * n + n = (i + 1) * n := by ring
      _ ≤ e * n := Nat.mul_le_mul_right n hgt
      _ ≤ e * n + j := by omega

theorem Memory.fits_nil (size : Nat) : Memory.fits [] size := by simp [Memory.fits]

theorem Memory.fits_write {m : Memory} {size a : Nat} (hm : m.fits size) (h : a < size) (v : Word) :
    (Memory.write m a v).fits size := by
  induction m with
  | nil =>
    unfold Memory.write
    split
    · exact hm
    · simpa [Memory.fits] using h
  | cons p rest ih =>
    obtain ⟨b, x⟩ := p
    have hr : Memory.fits rest size := fun q hq => hm q (List.mem_cons_of_mem _ hq)
    have hb : b < size := hm (b, x) (by simp)
    unfold Memory.write
    split
    · split
      · exact hm
      · intro q hq
        rcases List.mem_cons.mp hq with rfl | hq
        · exact h
        · exact hm q hq
    · split
      · split
        · exact hr
        · intro q hq
          rcases List.mem_cons.mp hq with rfl | hq
          · exact h
          · exact hr q hq
      · intro q hq
        rcases List.mem_cons.mp hq with rfl | hq
        · exact hb
        · exact ih hr q hq

theorem Memory.fits_writeWords {m : Memory} {size a : Nat} (hm : m.fits size) {vs : List Word}
    (h : a + vs.length ≤ size) : (Memory.writeWords m a vs).fits size := by
  induction vs generalizing m a with
  | nil => exact hm
  | cons v vs ih =>
    simp only [List.length_cons] at h
    exact ih (Memory.fits_write hm (by omega) v) (by omega)

theorem Memory.fits_writeVec {m : Memory} {elems n i : Nat} (hm : m.fits (elems * n)) (h : i < elems) (v : Lanes) :
    (m.writeVec n i v).fits (elems * n) := by
  refine Memory.fits_writeWords hm ?_
  rw [vecOf_length]
  calc i * n + n = (i + 1) * n := by ring
    _ ≤ elems * n := Nat.mul_le_mul_right n h

/-- Two memories in canonical form that read alike are equal. -/
theorem Memory.ext_of_wf {lo : Nat} {m m' : Memory} (hm : Memory.wfFrom lo m = true)
    (hm' : Memory.wfFrom lo m' = true) (h : ∀ a, Memory.read m a = Memory.read m' a) : m = m' := by
  induction m generalizing lo m' with
  | nil =>
    cases m' with
    | nil => rfl
    | cons p rest =>
      obtain ⟨b, x⟩ := p
      have := h b
      simp [Memory.wfFrom, Memory.read_cons] at this hm'
      exact absurd this.symm hm'.1.2
  | cons p rest ih =>
    obtain ⟨b, x⟩ := p
    have hb := hm
    simp only [Memory.wfFrom, Bool.and_eq_true, decide_eq_true_eq, bne_iff_ne, ne_eq] at hb
    cases m' with
    | nil =>
      have := h b
      rw [Memory.read_cons, if_pos rfl, Memory.read_nil] at this
      exact absurd this hb.1.2
    | cons p' rest' =>
      obtain ⟨b', x'⟩ := p'
      have hb' := hm'
      simp only [Memory.wfFrom, Bool.and_eq_true, decide_eq_true_eq, bne_iff_ne, ne_eq] at hb'
      have hbb : b = b' := by
        rcases lt_trichotomy b b' with hlt | heq | hgt
        · have := h b
          rw [Memory.read_cons, if_pos rfl, Memory.read_cons, if_neg (by omega),
            Memory.read_below hb'.2 (by omega)] at this
          exact absurd this hb.1.2
        · exact heq
        · have := h b'
          rw [Memory.read_cons, if_neg (by omega), Memory.read_below hb.2 (by omega), Memory.read_cons,
            if_pos rfl] at this
          exact absurd this.symm hb'.1.2
      subst hbb
      have hx : x = x' := by simpa [Memory.read_cons] using h b
      subst hx
      have : rest = rest' := by
        refine ih hb.2 hb'.2 fun a => ?_
        by_cases hab : a = b
        · rw [hab, Memory.read_below hb.2 (by omega), Memory.read_below hb'.2 (by omega)]
        · simpa [Memory.read_cons, hab] using h a
      rw [this]

end Sys2Proof.Machine
end

