-- ==== Sys2Proof/Laws/Bodies.lean ====
section
/-! SUPPORT. What the body of each command can do: if it answers a next state, then that one. Later proofs cite
these and do not unfold the bodies. -/

namespace Sys2Proof.Machine

/-! FIR and oversampler -/

/-- What one FIR call answers: the unit pushed on and the dot products, and its indices are in their spaces. -/
theorem firStep_eq_some {cfg : Config} {d : Draw} {f g : Fir} {v out : Lanes}
    (h : firStep cfg d f v = some (g, out)) :
    (f.idx < cfg.lMax ∧ f.len ≤ cfg.lMax) ∧ g = firPush cfg f v ∧
      out = vecOf cfg.n fun j => firDot d cfg.n g g.idx j f.len := by
  unfold firStep at h
  split at h
  · rename_i hc
    cases h
    exact ⟨hc, rfl, rfl⟩
  · cases h

theorem firStep_of_inSpace {cfg : Config} {f : Fir} (h : f.idx < cfg.lMax ∧ f.len ≤ cfg.lMax) (d : Draw)
    (v : Lanes) : firStep cfg d f v = some (firPush cfg f v,
      vecOf cfg.n fun j => firDot d cfg.n (firPush cfg f v) (firPush cfg f v).idx j f.len) := by
  simp [firStep, h]

theorem withFirStep_eq_next {u : Nat} {v : Lanes} {s t : State} {k : State → Lanes → Result}
    (h : withFirStep u v s k = .next t) :
    ∃ f g out, s.fir[u]? = some f ∧ firStep s.cfg s.draw f v = some (g, out) ∧ k (s.setFir u g) out = .next t := by
  obtain ⟨f, hf, h⟩ := withUnit_eq_next.mp h
  cases hs : firStep s.cfg s.draw f v with
  | none => simp [hs] at h
  | some p =>
    obtain ⟨g, out⟩ := p
    rw [hs] at h
    exact ⟨f, g, out, hf, hs, h⟩

theorem withFirStep_eq_fault {u : Nat} {v : Lanes} {s : State} {k : State → Lanes → Result} {e : Fault}
    (h : withFirStep u v s k = .fault e) :
    s.fir[u]? = none ∨ (∃ f, s.fir[u]? = some f ∧ ¬ (f.idx < s.cfg.lMax ∧ f.len ≤ s.cfg.lMax)) ∨
      ∃ t out, k t out = .fault e := by
  rcases withUnit_eq_fault.mp h with h | ⟨f, hf, h⟩
  · exact .inl h
  · cases hs : firStep s.cfg s.draw f v with
    | none =>
      refine .inr (.inl ⟨f, hf, fun hc => ?_⟩)
      rw [firStep_of_inSpace hc] at hs
      cases hs
    | some p =>
      obtain ⟨g, out⟩ := p
      rw [hs] at h
      exact .inr (.inr ⟨_, _, h⟩)

theorem withFirStep_of_some {u : Nat} {s : State} {f g : Fir} {v out : Lanes} (hf : s.fir[u]? = some f)
    (hs : firStep s.cfg s.draw f v = some (g, out)) (k : State → Lanes → Result) :
    withFirStep u v s k = k (s.setFir u g) out := by
  rw [withFirStep, withUnit_some hf]; simp [hs]

theorem firNewBody_eq_next {u len : Nat} {s t : State} (h : firNewBody u len s = .next t) :
    u < s.fir.length ∧ t = s.setFir u (newFir s.cfg u len) := by
  obtain ⟨f, hf, h⟩ := withUnit_eq_next.mp h
  cases h
  exact ⟨(List.getElem?_eq_some_iff.mp hf).1, rfl⟩

theorem firProcBody_eq_next {u : Nat} {s t : State} (h : firProcBody u s = .next t) :
    s.va.written = true ∧ ∃ f g out, s.fir[u]? = some f ∧ firStep s.cfg s.draw f s.va.lanes = some (g, out) ∧
      t = ((s.setFir u g).writeVr out).spend := by
  obtain ⟨hw, h⟩ := withLanes_eq_next.mp h
  obtain ⟨f, g, out, hf, hs, h⟩ := withFirStep_eq_next h
  cases h
  exact ⟨hw, f, g, out, hf, hs, rfl⟩

theorem ovsUpBody_eq_next {o : Nat} {s t : State} (h : ovsUpBody o s = .next t) :
    s.a0.written = true ∧ ∃ f g out, s.fir[2 * o]? = some f ∧
      firStep s.cfg s.draw f (splat s.cfg.n (fmul s.draw s.a0.val (f32 s.cfg.n))) = some (g, out) ∧
      t = ((s.setFir (2 * o) g).writeVr out).spend := by
  obtain ⟨hw, h⟩ := withOperand_eq_next.mp h
  obtain ⟨f, g, out, hf, hs, h⟩ := withFirStep_eq_next h
  cases h
  exact ⟨hw, f, g, out, hf, hs, rfl⟩

theorem ovsDnBody_eq_next {o : Nat} {s t : State} (h : ovsDnBody o s = .next t) :
    s.va.written = true ∧ ∃ f g out, s.fir[2 * o + 1]? = some f ∧
      firStep s.cfg s.draw f s.va.lanes = some (g, out) ∧
      t = (((s.setFir (2 * o + 1) g).writeVr out).writeR
        (fmul s.draw (hsum s.draw s.cfg.n out) (gOvsOf s.cfg o))).spend := by
  obtain ⟨hw, h⟩ := withLanes_eq_next.mp h
  obtain ⟨f, g, out, hf, hs, h⟩ := withFirStep_eq_next h
  cases h
  exact ⟨hw, f, g, out, hf, hs, rfl⟩

/-! Waveshaper -/

theorem wsRatBody_eq_next {s t : State} (h : wsRatBody s = .next t) :
    s.va.written = true ∧
      t = (s.writeVr (vecOf s.cfg.n fun j =>
        ratShape s.cfg.wsC1 s.cfg.wsC3 (j :: s.draw) (lane s.va.lanes j))).spend := by
  obtain ⟨hw, h⟩ := withLanes_eq_next.mp h
  cases h
  exact ⟨hw, rfl⟩

theorem wsDiodeBody_eq_next {s t : State} (h : wsDiodeBody s = .next t) :
    s.va.written = true ∧
      t = (s.writeVr (vecOf s.cfg.n fun j => diodeShape s.cfg (j :: s.draw) (lane s.va.lanes j))).spend := by
  obtain ⟨hw, h⟩ := withLanes_eq_next.mp h
  cases h
  exact ⟨hw, rfl⟩

/-- Either waveshaper, as far as the state but VR goes. -/
theorem shapeBody_eq_next {fn : Nat} {s t : State} (h : (if fn = 0 then wsRatBody s else wsDiodeBody s) = .next t) :
    s.va.written = true ∧ ∃ out, out.length = s.cfg.n ∧ t = (s.writeVr out).spend := by
  split at h
  · obtain ⟨hw, rfl⟩ := wsRatBody_eq_next h
    exact ⟨hw, _, vecOf_length _ _, rfl⟩
  · obtain ⟨hw, rfl⟩ := wsDiodeBody_eq_next h
    exact ⟨hw, _, vecOf_length _ _, rfl⟩

/-- `OVS.PROC` is its three parts. -/
theorem ovsProcBody_eq_next {o fn : Nat} {s t : State} (h : ovsProcBody o fn s = .next t) :
    ∃ t1 t2, ovsUpBody o s = .next t1 ∧
      (if fn = 0 then wsRatBody (vaFromVr t1) else wsDiodeBody (vaFromVr t1)) = .next t2 ∧
      ovsDnBody o (vaFromVr t2) = .next t := by
  obtain ⟨t1, h1, h⟩ := andThen_eq_next.mp h
  obtain ⟨t2, h2, h⟩ := andThen_eq_next.mp h
  exact ⟨t1, t2, h1, h2, h⟩

/-! Analog filter stage and one-pole filter -/

theorem afsCoefBody_eq_next {u : Nat} {s t : State} (h : afsCoefBody u s = .next t) :
    s.a1.written = true ∧ ∃ f, s.afs[u]? = some f ∧ t = (s.setAfs u (afsCoefs s u s.a1.val f)).spend := by
  obtain ⟨hw, h⟩ := withOperand_eq_next.mp h
  obtain ⟨f, hf, h⟩ := withUnit_eq_next.mp h
  cases h
  exact ⟨hw, f, hf, rfl⟩

theorem afsStepBody_eq_next {u : Nat} {s t : State} (h : afsStepBody u s = .next t) :
    s.a0.written = true ∧ ∃ f, s.afs[u]? = some f ∧
      t = ((s.setAfs u (afsAdvance s.draw f s.a0.val (afsOutput s.draw f s.a0.val))).writeR
        (afsOutput s.draw f s.a0.val)).spend := by
  obtain ⟨hw, h⟩ := withOperand_eq_next.mp h
  obtain ⟨f, hf, h⟩ := withUnit_eq_next.mp h
  cases h
  exact ⟨hw, f, hf, rfl⟩

theorem afsGainBody_eq_next {u : Nat} {s t : State} (h : afsGainBody u s = .next t) :
    ∃ f, s.afs[u]? = some f ∧
      t = ((s.setAfs u { f with gc := onePole s.w s.draw f.gc s.r.val f.gfc }).writeR
        (onePole s.w s.draw f.gc s.r.val f.gfc).z).spend := by
  obtain ⟨f, hf, h⟩ := withUnit_eq_next.mp h
  cases h
  exact ⟨f, hf, rfl⟩

/-- `AFS.PROC` is its parts. -/
theorem afsProcBody_eq_next {u : Nat} {s t : State} (h : afsProcBody u s = .next t) :
    ∃ t1 t2, afsCoefBody u s = .next t1 ∧ afsStepBody u t1 = .next t2 ∧ afsGainBody u t2 = .next t := by
  obtain ⟨t2, h1, h⟩ := andThen_eq_next.mp h
  obtain ⟨t1, h1, h2⟩ := andThen_eq_next.mp h1
  exact ⟨t1, t2, h1, h2, h⟩

theorem opfProcBody_eq_next {u : Nat} {s t : State} (h : opfProcBody u s = .next t) :
    s.a0.written = true ∧ s.a1.written = true ∧ ∃ f, s.opf[u]? = some f ∧
      t = ((s.setOpf u (onePole s.w s.draw f s.a0.val s.a1.val)).writeR
        (onePole s.w s.draw f s.a0.val s.a1.val).z).spend := by
  obtain ⟨hw, h⟩ := withOperand_eq_next.mp h
  obtain ⟨hw', h⟩ := withOperand_eq_next.mp h
  obtain ⟨f, hf, h⟩ := withUnit_eq_next.mp h
  cases h
  exact ⟨hw, hw', f, hf, rfl⟩

/-! Smoothers -/

theorem rmpSetBody_eq_next {u : Nat} {s t : State} (h : rmpSetBody u s = .next t) :
    s.a0.written = true ∧ ∃ f, s.rmp[u]? = some f ∧
      t = (s.setRmp u (rampSet (rampSamplesOf s.cfg u) s.draw s.a0.val f)).spend := by
  obtain ⟨hw, h⟩ := withOperand_eq_next.mp h
  obtain ⟨f, hf, h⟩ := withUnit_eq_next.mp h
  cases h
  exact ⟨hw, f, hf, rfl⟩

theorem rmpStepBody_eq_next {u : Nat} {s t : State} (h : rmpStepBody u s = .next t) :
    ∃ f, s.rmp[u]? = some f ∧ t = ((s.setRmp u (rampStep s.draw f)).writeR (rampStep s.draw f).cur).spend := by
  obtain ⟨f, hf, h⟩ := withUnit_eq_next.mp h
  cases h
  exact ⟨f, hf, rfl⟩

/-- `RMP.PROC` is its two parts. -/
theorem rmpProcBody_eq_next {u : Nat} {s t : State} (h : rmpProcBody u s = .next t) :
    ∃ t1, rmpSetBody u s = .next t1 ∧ rmpStepBody u t1 = .next t := andThen_eq_next.mp h

theorem rmpInitBody_eq_next {u : Nat} {s t : State} (h : rmpInitBody u s = .next t) :
    s.a0.written = true ∧ u < s.rmp.length ∧ t = s.setRmp u (rampAt s.a0.val) := by
  obtain ⟨hw, h⟩ := withOperand_eq_next.mp h
  obtain ⟨f, hf, h⟩ := withUnit_eq_next.mp h
  cases h
  exact ⟨hw, (List.getElem?_eq_some_iff.mp hf).1, rfl⟩

theorem exsProcBody_eq_next {u : Nat} {s t : State} (h : exsProcBody u s = .next t) :
    s.a0.written = true ∧ ∃ f, s.exs[u]? = some f ∧
      t = ((s.setExs u ⟨onePole s.w s.draw f.op s.a0.val (exsFcOf s.cfg u)⟩).writeR
        (onePole s.w s.draw f.op s.a0.val (exsFcOf s.cfg u)).z).spend := by
  obtain ⟨hw, h⟩ := withOperand_eq_next.mp h
  obtain ⟨f, hf, h⟩ := withUnit_eq_next.mp h
  cases h
  exact ⟨hw, f, hf, rfl⟩

theorem exsInitBody_eq_next {u : Nat} {s t : State} (h : exsInitBody u s = .next t) :
    s.a0.written = true ∧ ∃ f, s.exs[u]? = some f ∧ t = s.setExs u ⟨{ f.op with z := s.a0.val }⟩ := by
  obtain ⟨hw, h⟩ := withOperand_eq_next.mp h
  obtain ⟨f, hf, h⟩ := withUnit_eq_next.mp h
  cases h
  exact ⟨hw, f, hf, rfl⟩

/-! Delay buffer and repeat engine -/

theorem delayInSpace_of_good {cfg : Config} {f : Delay} (h : delayGood cfg f) : delayInSpace cfg f = true := by
  obtain ⟨_, h2, h3⟩ := h
  simp [delayInSpace]
  omega

theorem dlyWrBody_eq_next {u : Nat} {s t : State} (h : dlyWrBody u s = .next t) :
    s.a0.written = true ∧ ∃ f, s.dly[u]? = some f ∧ delayInSpace s.cfg f = true ∧
      t = s.setDly u (delayWrite f s.a0.val) := by
  obtain ⟨hw, h⟩ := withOperand_eq_next.mp h
  obtain ⟨f, hf, h⟩ := withUnit_eq_next.mp h
  split at h
  · rename_i hc
    cases h
    exact ⟨hw, f, hf, hc, rfl⟩
  · cases h

theorem dlyRdBody_eq_next {u mode : Nat} {s t : State} (h : dlyRdBody u mode s = .next t) :
    s.a0.written = true ∧ ∃ f, s.dly[u]? = some f ∧ delayInSpace s.cfg f = true ∧
      ((∃ v, delayRead s.draw f s.a0.val = some v ∧ t = (s.writeR v).spend) ∨
       (delayRead s.draw f s.a0.val = none ∧ t = raise .dlyRange (encode (.dlyRd u mode)) s)) := by
  obtain ⟨hw, h⟩ := withOperand_eq_next.mp h
  obtain ⟨f, hf, h⟩ := withUnit_eq_next.mp h
  split at h
  · rename_i hc
    refine ⟨hw, f, hf, hc, ?_⟩
    cases hr : delayRead s.draw f s.a0.val with
    | none =>
      rw [hr] at h
      cases h
      exact .inr ⟨rfl, rfl⟩
    | some v =>
      rw [hr] at h
      cases h
      exact .inl ⟨v, rfl, rfl⟩
  · cases h

theorem rptProcBody_eq_next {u count : Nat} {s t : State} (h : rptProcBody u count s = .next t) :
    (s.a0.written = true ∧ s.a1.written = true ∧ s.a2.written = true ∧ s.a3.written = true) ∧
    ∃ e f, s.rpt[u]? = some e ∧ s.dly[u]? = some f ∧ delayInSpace s.cfg f = true ∧
      ((∃ e' out, rptEvaluate s.cfg s.draw (rptDetect s.cfg s.draw e ⟨count, s.a1.val, s.a2.val, s.a3.val⟩) s.a0.val
          (delayWrite f s.a0.val) = some (e', out) ∧
        t = (((s.setRpt u e').setDly u (delayWrite f s.a0.val)).writeR out).spend) ∨
       (rptEvaluate s.cfg s.draw (rptDetect s.cfg s.draw e ⟨count, s.a1.val, s.a2.val, s.a3.val⟩) s.a0.val
          (delayWrite f s.a0.val) = none ∧ t = raise .dlyRange (encode (.rptProc u count)) s)) := by
  obtain ⟨h0, h⟩ := withOperand_eq_next.mp h
  obtain ⟨h1, h⟩ := withOperand_eq_next.mp h
  obtain ⟨h2, h⟩ := withOperand_eq_next.mp h
  obtain ⟨h3, h⟩ := withOperand_eq_next.mp h
  obtain ⟨e, he, h⟩ := withUnit_eq_next.mp h
  obtain ⟨f, hf, h⟩ := withUnit_eq_next.mp h
  split at h
  · rename_i hc
    refine ⟨⟨h0, h1, h2, h3⟩, e, f, he, hf, hc, ?_⟩
    dsimp only at h
    cases hr : rptEvaluate s.cfg s.draw (rptDetect s.cfg s.draw e ⟨count, s.a1.val, s.a2.val, s.a3.val⟩) s.a0.val
      (delayWrite f s.a0.val) with
    | none =>
      rw [hr] at h
      cases h
      exact .inr ⟨rfl, rfl⟩
    | some p =>
      obtain ⟨e', out⟩ := p
      rw [hr] at h
      cases h
      exact .inl ⟨e', out, rfl, rfl⟩
  · cases h

/-- The engine after evaluation is the engine after change detection, with its fade advanced if one runs. -/
theorem rptEvaluate_eq_some {cfg : Config} {d : Draw} {e e' : RepeatUnit} {input out : F32} {f : Delay}
    (h : rptEvaluate cfg d e input f = some (e', out)) :
    e' = if 0 < e.xf.cnt then { e with xf := fadeAdvance d e.xf } else e := by
  unfold rptEvaluate at h
  split at h
  · rename_i hc
    rw [if_pos hc]
    split at h
    · cases h; rfl
    · cases h
  · rename_i hc
    rw [if_neg hc]
    split at h
    · cases h; rfl
    · cases h

theorem rptInitBody_eq_next {u count : Nat} {s t : State} (h : rptInitBody u count s = .next t) :
    (s.a1.written = true ∧ s.a2.written = true ∧ s.a3.written = true) ∧ u < s.rpt.length ∧
      t = s.setRpt u ⟨⟨count, s.a1.val, s.a2.val, s.a3.val⟩, ⟨count, s.a1.val, s.a2.val, s.a3.val⟩, ⟨0, 0, 0⟩⟩ := by
  obtain ⟨h1, h⟩ := withOperand_eq_next.mp h
  obtain ⟨h2, h⟩ := withOperand_eq_next.mp h
  obtain ⟨h3, h⟩ := withOperand_eq_next.mp h
  obtain ⟨e, he, h⟩ := withUnit_eq_next.mp h
  cases h
  exact ⟨⟨h1, h2, h3⟩, (List.getElem?_eq_some_iff.mp he).1, rfl⟩

/-! Engine -/

theorem engNewBody_eq_next {s t : State} (h : engNewBody s = .next t) :
    s.a0.written = true ∧
      ((∃ e, engineCheck s.cfg s.draw s.a0.val = some e ∧ t = raise e (encode .engNew) s) ∨
       (engineCheck s.cfg s.draw s.a0.val = none ∧ t = (construct s.a0.val s).spend)) := by
  obtain ⟨hw, h⟩ := withOperand_eq_next.mp h
  refine ⟨hw, ?_⟩
  cases hc : engineCheck s.cfg s.draw s.a0.val with
  | none =>
    rw [hc] at h
    cases h
    exact .inr ⟨rfl, rfl⟩
  | some e =>
    rw [hc] at h
    cases h
    exact .inl ⟨e, rfl, rfl⟩

end Sys2Proof.Machine
end

