-- ==== Sys2Proof/Laws/Encoding.lean ====
section
/-! SUPPORT. The fields of a packed word, and what the decoder reads at each opcode. -/

namespace Sys2Proof

theorem packWord_toNat {opc : Nat} (h : opc < 2 ^ 8) (u imm : Nat) :
    (packWord opc u imm).toNat = opc * 2 ^ 24 + u % 2 ^ 8 * 2 ^ 16 + imm % 2 ^ 16 := by
  rw [packWord, BitVec.toNat_ofNat, Nat.mod_eq_of_lt]
  omega

theorem opcField_packWord {opc : Nat} (h : opc < 2 ^ 8) (u imm : Nat) : opcField (packWord opc u imm) = opc := by
  rw [opcField, packWord_toNat h]; omega

theorem unitField_packWord {opc : Nat} (h : opc < 2 ^ 8) (u imm : Nat) :
    unitField (packWord opc u imm) = u % 2 ^ 8 := by
  rw [unitField, packWord_toNat h]; omega

theorem immField_packWord {opc : Nat} (h : opc < 2 ^ 8) (u imm : Nat) :
    immField (packWord opc u imm) = imm % 2 ^ 16 := by
  rw [immField, packWord_toNat h]; omega

/-- A word is its three fields. -/
theorem packWord_fields (w : Word) : packWord (opcField w) (unitField w) (immField w) = w := by
  apply BitVec.eq_of_toNat_eq
  have hw := w.isLt
  rw [packWord, BitVec.toNat_ofNat, opcField, unitField, immField, Nat.mod_eq_of_lt] <;> omega

theorem opcodeOf_lt (i : Instr) : opcodeOf i < 2 ^ 8 := by cases i <;> simp [opcodeOf]

@[simp] theorem opcField_encode (i : Instr) : opcField (encode i) = opcodeOf i := opcField_packWord (opcodeOf_lt i) _ _

theorem unitField_encode {i : Instr} (h : i.wellFormed = true) : unitField (encode i) = i.unitIndex := by
  simp only [Instr.wellFormed, Instr.unitFits, Bool.and_eq_true, decide_eq_true_eq] at h
  rw [encode, unitField_packWord (opcodeOf_lt i), Nat.mod_eq_of_lt h.1]

theorem immField_encode {i : Instr} (h : i.wellFormed = true) : immField (encode i) = i.imm := by
  simp only [Instr.wellFormed, Instr.immFits, Bool.and_eq_true, decide_eq_true_eq] at h
  rw [encode, immField_packWord (opcodeOf_lt i), Nat.mod_eq_of_lt h.2]

/-- Only `ENG.NEW` has opcode 0x01 (30_encoding.md R94). -/
theorem opcodeOf_eq_one {i : Instr} : opcodeOf i = 0x01 ↔ i = .engNew := by cases i <;> simp [opcodeOf]

/-! The masks of the three formats (30_encoding.md R91) -/

theorem and_maskUI (w : Word) : w &&& maskUI = (w >>> 24) <<< 24 := by
  ext i hi
  simp only [maskUI, BitVec.getElem_and, BitVec.getElem_shiftLeft]
  interval_cases i <;> simp [BitVec.getLsbD_eq_getElem]

theorem and_maskU (w : Word) : w &&& maskU = (w >>> 24) <<< 24 ||| (w <<< 16) >>> 16 := by
  ext i hi
  simp only [maskU, BitVec.getElem_and, BitVec.getElem_or, BitVec.getElem_shiftLeft, BitVec.getElem_ushiftRight,
    BitVec.getLsbD_shiftLeft]
  interval_cases i <;> simp [BitVec.getLsbD_eq_getElem]

theorem and_maskZ (w : Word) : w &&& maskZ = w := by
  ext i hi
  simp only [maskZ, BitVec.getElem_and]
  interval_cases i <;> simp

/-- A row of format UI matches exactly the words with its opcode. -/
theorem hits_maskUI {m : String} {opc : Nat} (h : opc < 2 ^ 8) (w : Word) :
    (OpcodeRow.mk m (BitVec.ofNat 32 (opc * 2 ^ 24)) maskUI).hits w = true ↔ opcField w = opc := by
  have hw := w.isLt
  rw [OpcodeRow.hits, beq_iff_eq, and_maskUI, BitVec.toNat_eq, BitVec.toNat_shiftLeft, BitVec.toNat_ushiftRight,
    BitVec.toNat_ofNat, Nat.shiftLeft_eq, Nat.shiftRight_eq_div_pow, opcField]
  omega

/-- A row of format U matches exactly the words with its opcode and a zero immediate. -/
theorem hits_maskU {m : String} {opc : Nat} (h : opc < 2 ^ 8) (w : Word) :
    (OpcodeRow.mk m (BitVec.ofNat 32 (opc * 2 ^ 24)) maskU).hits w = true ↔ opcField w = opc ∧ immField w = 0 := by
  have hw := w.isLt
  have hdisj : (w >>> 24) <<< 24 &&& (w <<< 16) >>> 16 = 0 := by
    ext i hi
    simp only [BitVec.getElem_and, BitVec.getElem_shiftLeft, BitVec.getElem_ushiftRight, BitVec.getLsbD_shiftLeft]
    interval_cases i <;> simp
  rw [OpcodeRow.hits, beq_iff_eq, and_maskU, ← BitVec.add_eq_or_of_and_eq_zero _ _ hdisj, BitVec.toNat_eq,
    BitVec.toNat_add, BitVec.toNat_shiftLeft, BitVec.toNat_ushiftRight, BitVec.toNat_ushiftRight,
    BitVec.toNat_shiftLeft, BitVec.toNat_ofNat, Nat.shiftLeft_eq, Nat.shiftLeft_eq, Nat.shiftRight_eq_div_pow,
    Nat.shiftRight_eq_div_pow, opcField, immField]
  omega

/-- A row of format Z matches exactly its one word. -/
theorem hits_maskZ {m : String} {opc : Nat} (h : opc < 2 ^ 8) (w : Word) :
    (OpcodeRow.mk m (BitVec.ofNat 32 (opc * 2 ^ 24)) maskZ).hits w = true ↔
      opcField w = opc ∧ unitField w = 0 ∧ immField w = 0 := by
  have hw := w.isLt
  rw [OpcodeRow.hits, beq_iff_eq, and_maskZ, BitVec.toNat_eq, BitVec.toNat_ofNat, opcField, unitField, immField]
  omega

/-! What the decoder answers -/

/-- The command is what the decoder rebuilds from the shape and the command's own fields. -/
def Shape.fits (sh : Shape) (i : Instr) : Prop :=
  match sh with
  | .z j => j = i ∧ i.unitIndex = 0 ∧ i.imm = 0
  | .u mk => mk i.unitIndex = i ∧ i.imm = 0
  | .ui mk => mk i.unitIndex i.imm = i

theorem shapeOf_opcodeOf (i : Instr) : ∃ sh, shapeOf (opcodeOf i) = some sh ∧ sh.fits i := by
  cases i <;> exact ⟨_, rfl, by simp [Shape.fits, Instr.unitIndex, Instr.imm]⟩

/-- A word decodes to a command exactly when its three fields are the command's (30_encoding.md R91, R94, R95). -/
theorem decode_eq_ok_iff (w : Word) (i : Instr) :
    decode w = .ok i ↔ opcField w = opcodeOf i ∧ unitField w = i.unitIndex ∧ immField w = i.imm := by
  constructor
  · intro h
    unfold decode at h
    generalize opcField w = o at *
    unfold shapeOf at h
    split at h
    · cases h
    all_goals
      rename_i hs
      split at hs <;> cases hs
      all_goals
        first
        | (split at h
           · rename_i hc
             cases h
             first | exact ⟨rfl, hc.1, hc.2⟩ | exact ⟨rfl, rfl, hc⟩
           · cases h)
        | (cases h; exact ⟨rfl, rfl, rfl⟩)
  · rintro ⟨ho, hu, hi⟩
    obtain ⟨sh, hs, hf⟩ := shapeOf_opcodeOf i
    rw [decode, ho, hs]
    cases sh with
    | z j =>
      obtain ⟨rfl, h1, h2⟩ := hf
      simp [hu, hi, h1, h2]
    | u mk =>
      obtain ⟨h1, h2⟩ := hf
      simp [hu, hi, h1, h2]
    | ui mk =>
      simp only [Shape.fits] at hf
      simp [hu, hi, hf]

end Sys2Proof
end

