-- ==== Sys2Proof/Laws/Exec.lean ====
section
/-! SUPPORT. Every command has one form: the gate, the checks of its fields, its body, the advance of pc. What
`exec` and `issueWord` can answer, said once; and what each body can answer with a next state. -/

namespace Sys2Proof.Machine

/-- What a command does past the gate and its checks. -/
def commandBody : Instr → State → Result
  | .engNew => engNewBody
  | .firNew u len => firNewBody u len
  | .firProc u => firProcBody u
  | .ovsUp o => ovsUpBody o
  | .ovsDn o => ovsDnBody o
  | .ovsProc o fn => ovsProcBody o fn
  | .wsRat => wsRatBody
  | .wsDiode => wsDiodeBody
  | .afsCoef u => afsCoefBody u
  | .afsStep u => afsStepBody u
  | .afsProc u => afsProcBody u
  | .opfProc u => opfProcBody u
  | .rmpSet u => rmpSetBody u
  | .rmpStep u => rmpStepBody u
  | .rmpProc u => rmpProcBody u
  | .rmpInit u => rmpInitBody u
  | .exsProc u => exsProcBody u
  | .exsInit u => exsInitBody u
  | .dlyWr u => dlyWrBody u
  | .dlyRd u mode => dlyRdBody u mode
  | .rptProc u count => rptProcBody u count
  | .rptInit u count => rptInitBody u count

theorem exec_eq_command (i : Instr) (s : State) : exec i s = command i s (commandBody i) := by cases i <;> rfl

/-- In READY, with legal fields, a command is its body and the advance of pc. -/
theorem exec_ready {i : Instr} {s : State} (h : s.isReady = true) (hf : fieldCheck s.cfg i = none) :
    exec i s = (commandBody i s).andThen fun t => .next t.tick := by
  rw [exec_eq_command, command_ready h hf]

/-- In READY, where the body answers a next state, so does the command. -/
theorem exec_ready_next {i : Instr} {s t : State} (h : s.isReady = true) (hf : fieldCheck s.cfg i = none)
    (hb : commandBody i s = .next t) : exec i s = .next t.tick := by
  rw [exec_ready h hf, hb]; rfl

/-- In READY, with fields that are not legal, a command raises the cause of its check. -/
theorem exec_ready_illegal {i : Instr} {s : State} {e : Cause} (h : s.isReady = true)
    (hf : fieldCheck s.cfg i = some e) : exec i s = .next (raise e (encode i) s).tick := by
  rw [exec_eq_command, command_ready_illegal h hf]

/-- `ENG.NEW` passes the gate in every condition (60_exceptions.md R263). -/
theorem exec_engNew (s : State) : exec .engNew s = (engNewBody s).andThen fun t => .next t.tick := by
  rw [exec_eq_command, command, gate_engNew (opcField_encode _)]
  rfl

/-- What `exec` can answer with a next state. -/
theorem exec_eq_next {i : Instr} {s t : State} (h : exec i s = .next t) :
    (i ≠ .engNew ∧ s.isFaulted = true ∧ t = s.tick) ∨
    (i ≠ .engNew ∧ s.isFaulted = false ∧ s.isConfigured = false ∧ t = (raise .noCfg (encode i) s).tick) ∨
    ((i = .engNew ∨ s.isReady = true) ∧
      ((∃ e, fieldCheck s.cfg i = some e ∧ t = (raise e (encode i) s).tick) ∨
       (fieldCheck s.cfg i = none ∧ ∃ m, commandBody i s = .next m ∧ t = m.tick))) := by
  rw [exec_eq_command] at h
  have h' := command_eq_next h
  simpa only [opcField_encode, opcodeOf_eq_one, ne_eq] using h'

/-- `exec` stops with a fault only where a body does, past the gate and the checks. -/
theorem exec_eq_fault {i : Instr} {s : State} {f : Fault} (h : exec i s = .fault f) :
    (i = .engNew ∨ s.isReady = true) ∧ fieldCheck s.cfg i = none ∧ commandBody i s = .fault f := by
  rw [exec_eq_command] at h
  simpa only [opcField_encode, opcodeOf_eq_one] using command_eq_fault h

/-- What a word that is no command can do. -/
theorem illegalWord_eq_next {w : Word} {s t : State} (h : illegalWord w s = .next t) :
    (opcField w ≠ 0x01 ∧ s.isFaulted = true ∧ t = s.tick) ∨
    (opcField w ≠ 0x01 ∧ s.isFaulted = false ∧ s.isConfigured = false ∧ t = (raise .noCfg w s).tick) ∨
    ((opcField w = 0x01 ∨ s.isReady = true) ∧ t = (raise .illegal w s).tick) := by
  rcases gate_eq_next h with h | h | ⟨h, m, hm, ht⟩
  · exact .inl h
  · exact .inr (.inl h)
  · cases hm
    exact .inr (.inr ⟨h, ht⟩)

theorem illegalWord_ne_fault (w : Word) (s : State) (f : Fault) : illegalWord w s ≠ .fault f := by
  intro h
  cases (gate_eq_fault h).2

/-- The word of a decoded command is its encoding. -/
theorem encode_of_decode {w : Word} {i : Instr} (h : decode w = .ok i) : encode i = w := by
  obtain ⟨ho, hu, hi⟩ := (decode_eq_ok_iff w i).mp h
  rw [encode, ← ho, ← hu, ← hi, packWord_fields]

end Sys2Proof.Machine
end

