-- ==== Sys2Proof/Laws/Float.lean ====
section
/-! SUPPORT. The laws of the numerics: patterns and their parts, the value of a pattern in units of `2^-149`, the one
narrowing `roundUnits`, and the comparisons (00_scope.md R10, R11). -/

namespace Sys2Proof.Machine

/-! Patterns -/

theorem magPat_lt (x : F32) : magPat x < 2 ^ 31 := Nat.mod_lt _ (by norm_num)

theorem toNat_eq_parts (x : F32) : x.toNat = (if signBit x then 2 ^ 31 else 0) + magPat x := by
  have hx := x.isLt
  have hs : signBit x = decide (2 ^ 31 ≤ x.toNat) := by
    rw [signBit, ← BitVec.msb_eq_getLsbD_last, BitVec.msb_eq_decide]
  rw [hs, magPat]
  split <;> simp_all <;> omega

theorem packF_toNat (b : Bool) {p : Nat} (h : p < 2 ^ 31) :
    (packF b p).toNat = (if b then 2 ^ 31 else 0) + p := by
  rw [packF, BitVec.toNat_ofNat, Nat.mod_eq_of_lt]
  split <;> omega

@[simp] theorem magPat_packF (b : Bool) {p : Nat} (h : p < 2 ^ 31) : magPat (packF b p) = p := by
  rw [magPat, packF_toNat b h]
  split <;> omega

@[simp] theorem signBit_packF (b : Bool) {p : Nat} (h : p < 2 ^ 31) : signBit (packF b p) = b := by
  have h1 := toNat_eq_parts (packF b p)
  rw [packF_toNat b h, magPat_packF b h] at h1
  cases b <;> cases hs : signBit (packF _ p) <;> simp_all

/-- A pattern is its sign and its magnitude. -/
@[simp] theorem packF_parts (x : F32) : packF (signBit x) (magPat x) = x := by
  apply BitVec.eq_of_toNat_eq
  rw [packF_toNat _ (magPat_lt x), ← toNat_eq_parts]

/-- Two patterns with the same sign and magnitude are the same. -/
theorem eq_of_parts {x y : F32} (h1 : signBit x = signBit y) (h2 : magPat x = magPat y) : x = y := by
  rw [← packF_parts x, ← packF_parts y, h1, h2]

/-- Turning the top bit over is turning the sign over. -/
theorem xor_sign (x : F32) : x ^^^ 0x80000000 = packF (!signBit x) (magPat x) := by
  have hs : signBit (x ^^^ 0x80000000) = !signBit x := by simp [signBit]
  have hm : magPat (x ^^^ 0x80000000) = magPat x := by
    have : (x ^^^ 0x80000000).setWidth 31 = x.setWidth 31 := by
      ext i hi
      simp only [BitVec.getElem_setWidth, BitVec.getLsbD_xor]
      interval_cases i <;> simp
    have h2 := congrArg BitVec.toNat this
    rwa [BitVec.toNat_setWidth, BitVec.toNat_setWidth] at h2
  exact eq_of_parts (by rw [signBit_packF _ (magPat_lt x), hs]) (by rw [magPat_packF _ (magPat_lt x), hm])

@[simp] theorem signBit_fneg (x : F32) : signBit (fneg x) = !signBit x := signBit_packF _ (magPat_lt x)

@[simp] theorem magPat_fneg (x : F32) : magPat (fneg x) = magPat x := magPat_packF _ (magPat_lt x)

@[simp] theorem signBit_fabs (x : F32) : signBit (fabs x) = false := signBit_packF _ (magPat_lt x)

@[simp] theorem magPat_fabs (x : F32) : magPat (fabs x) = magPat x := magPat_packF _ (magPat_lt x)

@[simp] theorem signBit_fcopysign (x y : F32) : signBit (fcopysign x y) = signBit y := signBit_packF _ (magPat_lt x)

@[simp] theorem magPat_fcopysign (x y : F32) : magPat (fcopysign x y) = magPat x := magPat_packF _ (magPat_lt x)

theorem fneg_eq_xor (x : F32) : fneg x = x ^^^ 0x80000000 := (xor_sign x).symm

/-- A drawn NaN is a NaN. -/
@[simp] theorem isNaN_nanResult (d : Draw) (op : FOp) (x y : F32) : isNaN (nanResult d op x y) = true := by
  have hp := (Config.nanPayload d op x y).isLt
  rw [nanResult, isNaN, magPat_packF _ (by unfold infPat; omega)]
  simp only [decide_eq_true_eq]
  omega

theorem expPat_le_infPat (x : F32) : expPat x ≤ infPat := by
  have h1 : magPat one32 ≤ infPat := by decide
  unfold expPat
  split
  · exact h1
  · split
    · exact le_trans (Nat.min_le_left _ _) h1
    · exact Nat.min_le_left _ _

/-- What `fexp` answers: a NaN for a NaN, and for any other operand a value that is no NaN, in its order the pattern
`expPat` (whatever the sign of a zero). -/
theorem fexp_spec (d : Draw) (x : F32) :
    (isNaN x = true → isNaN (fexp d x) = true) ∧
    (isNaN x = false → isNaN (fexp d x) = false ∧ magPat (fexp d x) = expPat x ∧ orderKey (fexp d x) = expPat x) := by
  have hp : expPat x < 2 ^ 31 := lt_of_le_of_lt (expPat_le_infPat x) (by unfold infPat; norm_num)
  refine ⟨fun h => by simp [fexp, h], fun h => ?_⟩
  have hm := magPat_packF (expPat x == 0 && Config.expZeroSign x) hp
  have hs := signBit_packF (expPat x == 0 && Config.expZeroSign x) hp
  have hf : fexp d x = packF (expPat x == 0 && Config.expZeroSign x) (expPat x) := by simp [fexp, h]
  refine ⟨?_, by rw [hf, hm], ?_⟩
  · rw [hf, isNaN, hm]
    simpa using expPat_le_infPat x
  · rw [hf, orderKey, hs, hm]
    split
    · simp_all
    · rfl

theorem isFinite_iff (x : F32) : isFinite x = true ↔ isNaN x = false ∧ isInf x = false := by
  simp [isFinite, isNaN, isInf]
  omega

/-! The value of a pattern -/

/-- The units of a magnitude pattern. -/
def unitsOf (p : Nat) : Nat := if p / 2 ^ 23 = 0 then p else (2 ^ 23 + p % 2 ^ 23) * 2 ^ (p / 2 ^ 23 - 1)

theorem units_eq (x : F32) : units x = unitsOf (magPat x) := by
  rfl

/-- A multiple of a quantum, as a pattern: `k * 2^s` units with a fraction `k` of at most 24 bits, or exactly
`2^24`. -/
theorem unitsOf_quantum {s k : Nat} (h : 2 ^ 23 ≤ k ∨ s = 0) (hk : k ≤ 2 ^ 24) :
    unitsOf (s * 2 ^ 23 + k) = k * 2 ^ s := by
  unfold unitsOf
  by_cases h0 : k < 2 ^ 23
  · have hs : s = 0 := by omega
    subst hs
    rw [if_pos (by omega)]
    omega
  · by_cases h1 : k = 2 ^ 24
    · subst h1
      have e1 : (s * 2 ^ 23 + 2 ^ 24) / 2 ^ 23 = s + 2 := by omega
      have e2 : (s * 2 ^ 23 + 2 ^ 24) % 2 ^ 23 = 0 := by omega
      rw [e1, e2, if_neg (by omega), show s + 2 - 1 = s + 1 by omega, pow_succ]
      omega
    · have e1 : (s * 2 ^ 23 + k) / 2 ^ 23 = s + 1 := by omega
      have e2 : (s * 2 ^ 23 + k) % 2 ^ 23 = k - 2 ^ 23 := by omega
      have e3 : 2 ^ 23 + (k - 2 ^ 23) = k := by omega
      rw [e1, e2, if_neg (by omega), show s + 1 - 1 = s by omega, e3]

/-- Every pattern is a multiple of its quantum. -/
theorem exists_quantum (p : Nat) :
    ∃ s k, p = s * 2 ^ 23 + k ∧ (2 ^ 23 ≤ k ∨ s = 0) ∧ k < 2 ^ 24 ∧ unitsOf p = k * 2 ^ s := by
  by_cases h : p < 2 ^ 23
  · refine ⟨0, p, by omega, .inr rfl, by omega, ?_⟩
    have hq := unitsOf_quantum (s := 0) (k := p) (.inr rfl) (by omega)
    rwa [Nat.zero_mul, Nat.zero_add] at hq
  · have hp : p = (p / 2 ^ 23 - 1) * 2 ^ 23 + (p % 2 ^ 23 + 2 ^ 23) := by omega
    refine ⟨p / 2 ^ 23 - 1, p % 2 ^ 23 + 2 ^ 23, hp, .inl (by omega), by omega, ?_⟩
    conv_lhs => rw [hp]
    exact unitsOf_quantum (.inl (by omega)) (by omega)

theorem unitsOf_succ_lt (p : Nat) : unitsOf p < unitsOf (p + 1) := by
  obtain ⟨s, k, hp, hk, hlt, hu⟩ := exists_quantum p
  have h1 : unitsOf (p + 1) = (k + 1) * 2 ^ s := by
    rw [hp, add_assoc]
    exact unitsOf_quantum (hk.imp_left (by omega)) (by omega)
  rw [hu, h1]
  exact Nat.mul_lt_mul_of_pos_right (Nat.lt_succ_self k) (by positivity)

/-- The magnitude rises with the pattern. -/
theorem unitsOf_strictMono : StrictMono unitsOf := strictMono_nat_of_lt_succ unitsOf_succ_lt

theorem unitsOf_lt_iff {p q : Nat} : unitsOf p < unitsOf q ↔ p < q := unitsOf_strictMono.lt_iff_lt

theorem unitsOf_le_iff {p q : Nat} : unitsOf p ≤ unitsOf q ↔ p ≤ q := unitsOf_strictMono.le_iff_le

theorem unitsOf_zero : unitsOf 0 = 0 := rfl

theorem unitsOf_eq_zero {p : Nat} : unitsOf p = 0 ↔ p = 0 := by
  constructor
  · intro h
    by_contra hc
    have := unitsOf_lt_iff (p := 0) (q := p)
    rw [unitsOf_zero] at this
    omega
  · rintro rfl
    rfl

theorem isZero_iff_units (x : F32) : isZero x = true ↔ units x = 0 := by
  rw [units_eq, unitsOf_eq_zero]
  simp [isZero]

/-! Rounding -/

/-- `halfEven n d` is a nearest integer to `n / d`, and the even one of two. -/
theorem halfEven_nearest (n : Nat) {d : Nat} (hd : 0 < d) (m : Nat) :
    |((halfEven n d : Int) * d - n)| ≤ |((m : Int) * d - n)| ∧
      (m ≠ halfEven n d → |((halfEven n d : Int) * d - n)| = |((m : Int) * d - n)| → halfEven n d % 2 = 0) := by
  have hn := Nat.div_add_mod n d
  have hr := Nat.mod_lt n hd
  generalize hq : n / d = q at *
  generalize hr' : n % d = r at *
  have hN : (n : Int) = d * q + r := by exact_mod_cast hn.symm
  have hD : (0 : Int) < d := by exact_mod_cast hd
  have hR : (r : Int) < d := by exact_mod_cast hr
  have hR0 : (0 : Int) ≤ r := by positivity
  have habs : ∀ m : Nat, (m ≤ q → |((m : Int) * d - n)| = ((q : Int) - m) * d + r) ∧
      (q + 1 ≤ m → |((m : Int) * d - n)| = ((m : Int) - q) * d - r) := by
    intro m
    constructor
    · intro h
      have : (m : Int) ≤ q := by exact_mod_cast h
      rw [abs_of_nonpos (by rw [hN]; nlinarith)]
      rw [hN]; ring
    · intro h
      have : (q : Int) + 1 ≤ m := by exact_mod_cast h
      rw [abs_of_nonneg (by rw [hN]; nlinarith)]
      rw [hN]; ring
  unfold halfEven
  rw [hq, hr']
  split
  · rename_i hc
    rw [(habs (q + 1)).2 le_rfl]
    push_cast
    rcases Nat.lt_or_ge q m with hm | hm
    · rw [(habs m).2 hm]
      have hm' : (q : Int) + 1 ≤ m := by exact_mod_cast hm
      refine ⟨by nlinarith, fun hne he => ?_⟩
      exfalso
      have : (q : Int) + 1 < m := by
        have : q + 1 ≠ m := fun h => hne h.symm
        have : q + 1 < m := by omega
        exact_mod_cast this
      nlinarith
    · rw [(habs m).1 hm]
      have hm' : (m : Int) ≤ q := by exact_mod_cast hm
      have hc' : (d : Int) ≤ 2 * r := by
        rcases hc with hc | hc
        · exact_mod_cast hc.le
        · exact_mod_cast hc.1.ge
      refine ⟨by nlinarith, fun hne he => ?_⟩
      rcases hc with hc | hc
      · exfalso
        have : (d : Int) < 2 * r := by exact_mod_cast hc
        nlinarith
      · omega
  · rename_i hc
    rw [(habs q).1 le_rfl]
    rcases Nat.lt_or_ge q m with hm | hm
    · rw [(habs m).2 hm]
      have hm' : (q : Int) + 1 ≤ m := by exact_mod_cast hm
      have hc' : 2 * (r : Int) ≤ d := by
        have : 2 * r ≤ d := by omega
        exact_mod_cast this
      refine ⟨by nlinarith, fun hne he => ?_⟩
      have h2 : 2 * r = d := by
        have : (d : Int) ≤ 2 * r := by nlinarith
        have : d ≤ 2 * r := by exact_mod_cast this
        omega
      omega
    · rw [(habs m).1 hm]
      have hm' : (m : Int) ≤ q := by exact_mod_cast hm
      refine ⟨by nlinarith, fun hne he => ?_⟩
      exfalso
      have : (m : Int) < q := by
        have : m < q := by omega
        exact_mod_cast this
      nlinarith

theorem halfEven_le {n d k : Nat} (hd : 0 < d) (h : n ≤ k * d) : halfEven n d ≤ k := by
  have hn := Nat.div_add_mod n d
  have hr := Nat.mod_lt n hd
  have hq : n / d ≤ k := Nat.div_le_of_le_mul (by rw [mul_comm]; exact h)
  unfold halfEven
  split
  · rcases Nat.lt_or_ge (n / d) k with h1 | h1
    · omega
    · have : n / d = k := by omega
      rw [this, mul_comm] at hn
      omega
  · exact hq

theorem le_halfEven {n d k : Nat} (hd : 0 < d) (h : k * d ≤ n) : k ≤ halfEven n d := by
  have : k ≤ n / d := (Nat.le_div_iff_mul_le hd).mpr h
  unfold halfEven
  split <;> omega

theorem halfEven_exact {d : Nat} (hd : 0 < d) (k : Nat) : halfEven (k * d) d = k :=
  le_antisymm (halfEven_le hd le_rfl) (le_halfEven hd le_rfl)

/-- What `roundUnits` answers below infinity: a quantum `2^s` and the nearest multiple `k` of it, with the value in
the binade of the quantum. -/
theorem roundUnits_cases (n : Nat) {d : Nat} (hd : 0 < d) :
    ∃ s k, roundUnits n d = min (s * 2 ^ 23 + k) infPat ∧ k = halfEven n (d * 2 ^ s) ∧ (2 ^ 23 ≤ k ∨ s = 0) ∧
      k ≤ 2 ^ 24 ∧ (s = 0 ∨ 2 ^ 23 * (d * 2 ^ s) ≤ n) := by
  refine ⟨(n / d).log2 - 23, halfEven n (d * 2 ^ ((n / d).log2 - 23)), rfl, rfl, ?_, ?_, ?_⟩
  all_goals
    have hlt : n < d * (n / d + 1) := by
      have := Nat.div_add_mod n d
      have := Nat.mod_lt n hd
      rw [mul_add]; omega
    have hup : n / d + 1 ≤ 2 ^ ((n / d).log2 + 1) := Nat.lt_log2_self
  · by_cases h : 23 < (n / d).log2
    · left
      refine le_halfEven (by positivity) ?_
      have h2 : n / d ≠ 0 := by
        intro h0
        rw [h0] at h
        simp at h
      have h3 := Nat.log2_self_le h2
      calc 2 ^ 23 * (d * 2 ^ ((n / d).log2 - 23)) = d * 2 ^ (23 + ((n / d).log2 - 23)) := by rw [pow_add]; ring
        _ = d * 2 ^ (n / d).log2 := by rw [show 23 + ((n / d).log2 - 23) = (n / d).log2 by omega]
        _ ≤ d * (n / d) := Nat.mul_le_mul_left d h3
        _ ≤ n := Nat.mul_div_le n d
    · right
      omega
  · refine halfEven_le (by positivity) ?_
    calc n ≤ d * (n / d + 1) := hlt.le
      _ ≤ d * 2 ^ ((n / d).log2 + 1) := Nat.mul_le_mul_left d hup
      _ ≤ d * 2 ^ (24 + ((n / d).log2 - 23)) := by
        refine Nat.mul_le_mul_left d (Nat.pow_le_pow_right (by norm_num) (by omega))
      _ = 2 ^ 24 * (d * 2 ^ ((n / d).log2 - 23)) := by rw [pow_add]; ring
  · by_cases h : 23 < (n / d).log2
    · right
      have h2 : n / d ≠ 0 := by
        intro h0
        rw [h0] at h
        simp at h
      have h3 := Nat.log2_self_le h2
      calc 2 ^ 23 * (d * 2 ^ ((n / d).log2 - 23)) = d * 2 ^ (23 + ((n / d).log2 - 23)) := by rw [pow_add]; ring
        _ = d * 2 ^ (n / d).log2 := by rw [show 23 + ((n / d).log2 - 23) = (n / d).log2 by omega]
        _ ≤ d * (n / d) := Nat.mul_le_mul_left d h3
        _ ≤ n := Nat.mul_div_le n d
    · left
      omega

theorem roundUnits_le_infPat (n d : Nat) : roundUnits n d ≤ infPat := Nat.min_le_right _ _

theorem roundUnits_lt (n d : Nat) : roundUnits n d < 2 ^ 31 :=
  lt_of_le_of_lt (roundUnits_le_infPat n d) (by unfold infPat; norm_num)

/-- Rounding is monotone and exact: it lies on the same side of a representable value as the exact value does. -/
theorem roundUnits_le_of_le {n d p : Nat} (hd : 0 < d) (h : n ≤ unitsOf p * d) :
    roundUnits n d ≤ p := by
  obtain ⟨s, k, hr, hk, hks, hk24, hlow⟩ := roundUnits_cases n hd
  rw [hr]
  obtain ⟨s', k', hp', hks', hk24', hu⟩ := exists_quantum p
  refine le_trans (Nat.min_le_left _ _) ?_
  rw [← unitsOf_le_iff, unitsOf_quantum hks hk24]
  rw [hu] at h ⊢
  rcases Nat.lt_or_ge s' s with hlt | hge
  · have hs0 : s ≠ 0 := by omega
    have h1 : 2 ^ 23 * (d * 2 ^ s) ≤ n := hlow.resolve_left hs0
    exfalso
    have h2 : 2 ^ 23 * (d * 2 ^ s) ≤ k' * 2 ^ s' * d := le_trans h1 h
    have h3 : 2 ^ 23 * 2 ^ s ≤ k' * 2 ^ s' := by
      refine Nat.le_of_mul_le_mul_right ?_ hd
      calc 2 ^ 23 * 2 ^ s * d = 2 ^ 23 * (d * 2 ^ s) := by ring
        _ ≤ _ := h2
    have h4 : 2 ^ (s' + 1) ≤ 2 ^ s := Nat.pow_le_pow_right (by norm_num) hlt
    have h5 : k' * 2 ^ s' < 2 ^ 24 * 2 ^ s' := Nat.mul_lt_mul_of_pos_right hk24' (by positivity)
    have h6 : 2 ^ 24 * 2 ^ s' = 2 ^ 23 * 2 ^ (s' + 1) := by rw [pow_succ]; ring
    have h7 := Nat.mul_le_mul_left (2 ^ 23) h4
    omega
  · have he : k' * 2 ^ s' = k' * 2 ^ (s' - s) * 2 ^ s := by
      rw [mul_assoc, ← pow_add, Nat.sub_add_cancel hge]
    rw [he] at h ⊢
    refine Nat.mul_le_mul_right _ ?_
    rw [hk]
    refine halfEven_le (by positivity) (le_trans h (le_of_eq ?_))
    ring

theorem le_roundUnits_of_le {n d p : Nat} (hd : 0 < d) (h : unitsOf p * d ≤ n) (hp : p ≤ infPat) :
    p ≤ roundUnits n d := by
  obtain ⟨s, k, hr, hk, hks, hk24, hlow⟩ := roundUnits_cases n hd
  rw [hr]
  refine le_min ?_ hp
  obtain ⟨s', k', hp', hks', hk24', hu⟩ := exists_quantum p
  rw [← unitsOf_le_iff, unitsOf_quantum hks hk24]
  rw [hu] at h ⊢
  rcases Nat.lt_or_ge s' s with hlt | hge
  · have hs0 : s ≠ 0 := by omega
    have h23 : 2 ^ 23 ≤ k := hks.resolve_right hs0
    have h4 : 2 ^ (s' + 1) ≤ 2 ^ s := Nat.pow_le_pow_right (by norm_num) hlt
    calc k' * 2 ^ s' ≤ 2 ^ 24 * 2 ^ s' := Nat.mul_le_mul_right _ hk24'.le
      _ = 2 ^ 23 * 2 ^ (s' + 1) := by rw [pow_succ]; ring
      _ ≤ 2 ^ 23 * 2 ^ s := Nat.mul_le_mul_left _ h4
      _ ≤ k * 2 ^ s := Nat.mul_le_mul_right _ h23
  · have he : k' * 2 ^ s' = k' * 2 ^ (s' - s) * 2 ^ s := by
      rw [mul_assoc, ← pow_add, Nat.sub_add_cancel hge]
    rw [he] at h ⊢
    refine Nat.mul_le_mul_right _ ?_
    rw [hk]
    refine le_halfEven (by positivity) (le_trans (le_of_eq ?_) h)
    ring

/-- A value that a pattern has is rounded to that pattern. -/
theorem roundUnits_exact {d p : Nat} (hd : 0 < d) (hp : p ≤ infPat) : roundUnits (unitsOf p * d) d = p :=
  le_antisymm (roundUnits_le_of_le hd le_rfl) (le_roundUnits_of_le hd le_rfl hp)

theorem roundUnits_units {x : F32} (h : isFinite x = true) : roundUnits (units x) 1 = magPat x := by
  have hm : magPat x < infPat := by simpa [isFinite] using h
  have := roundUnits_exact (d := 1) (p := magPat x) one_pos hm.le
  rwa [mul_one, ← units_eq] at this

/-! Integers -/

/-- A natural below `2^24` is the value of a pattern. -/
theorem exists_unitsOf_nat {n : Nat} (h : n ≤ 2 ^ 24) : ∃ p < infPat, unitsOf p = n * 2 ^ 149 := by
  rcases Nat.eq_zero_or_pos n with rfl | hn
  · exact ⟨0, by unfold infPat; norm_num, by simp [unitsOf_zero]⟩
  · have hl : n.log2 ≤ 24 := by
      have := Nat.log2_self_le hn.ne'
      by_contra hc
      have : 2 ^ 25 ≤ 2 ^ n.log2 := Nat.pow_le_pow_right (by norm_num) (by omega)
      omega
    have h1 := Nat.log2_self_le hn.ne'
    have h2 : n < 2 ^ (n.log2 + 1) := Nat.lt_log2_self
    rcases Nat.eq_or_lt_of_le hl with h24 | h24
    · have hn' : n = 2 ^ 24 := by
        rw [h24] at h1
        omega
      subst hn'
      exact ⟨149 * 2 ^ 23 + 2 ^ 24, by unfold infPat; norm_num, unitsOf_quantum (.inl (by norm_num)) le_rfl⟩
    · have e : 2 ^ (n.log2 + 1) * 2 ^ (23 - n.log2) = 2 ^ 24 := by
        rw [← pow_add]
        congr 1
        omega
      have e' : 2 ^ n.log2 * 2 ^ (23 - n.log2) = 2 ^ 23 := by
        rw [← pow_add]
        congr 1
        omega
      have hlo : 2 ^ 23 ≤ n * 2 ^ (23 - n.log2) := e' ▸ Nat.mul_le_mul_right _ h1
      have hhi : n * 2 ^ (23 - n.log2) ≤ 2 ^ 24 := e ▸ Nat.mul_le_mul_right _ h2.le
      refine ⟨(149 - (23 - n.log2)) * 2 ^ 23 + n * 2 ^ (23 - n.log2), ?_, ?_⟩
      · unfold infPat
        omega
      · rw [unitsOf_quantum (.inl hlo) hhi, mul_assoc, ← pow_add]
        congr 2
        omega

/-- `f32(n)` is exact up to `2^24` (R10). -/
theorem units_f32 {n : Nat} (h : n ≤ 2 ^ 24) : units (f32 n) = n * 2 ^ 149 ∧ isFinite (f32 n) = true ∧
    signBit (f32 n) = false := by
  obtain ⟨p, hp, hu⟩ := exists_unitsOf_nat h
  have hr : roundUnits (n * unitsPerOne) 1 = p := by
    have := roundUnits_exact (d := 1) one_pos hp.le
    rwa [mul_one, hu] at this
  have hm := magPat_packF false (roundUnits_lt (n * unitsPerOne) 1)
  refine ⟨?_, ?_, signBit_packF false (roundUnits_lt _ _)⟩
  · rw [units_eq, f32, hm, hr, hu]
  · rw [isFinite, f32, hm, hr]
    simpa using hp

/-- `int(f32(n))` is `n` (R10). -/
theorem intOf_f32 {n : Nat} (h : n ≤ 2 ^ 24) : intOf (f32 n) = n := by
  rw [intOf, (units_f32 h).1]
  exact Nat.mul_div_cancel n (by positivity)

/-! Comparisons -/

theorem fle_iff {x y : F32} :
    fle x y = true ↔ isNaN x = false ∧ isNaN y = false ∧ orderKey x ≤ orderKey y := by
  simp [fle, and_assoc]

theorem flt_iff {x y : F32} :
    flt x y = true ↔ isNaN x = false ∧ isNaN y = false ∧ orderKey x < orderKey y := by
  simp [flt, and_assoc]

theorem feq_iff {x y : F32} :
    feq x y = true ↔ isNaN x = false ∧ isNaN y = false ∧ orderKey x = orderKey y := by
  simp [feq, and_assoc]

/-- A value that is `>= 0` has no sign, or is a zero. -/
theorem orderKey_nonneg {x : F32} (h : 0 ≤ orderKey x) : orderKey x = magPat x := by
  unfold orderKey at h ⊢
  split
  · rename_i hs
    rw [if_pos hs] at h
    omega
  · rfl

theorem orderKey_f32 {n : Nat} : orderKey (f32 n) = magPat (f32 n) := by
  rw [orderKey, f32, signBit_packF false (roundUnits_lt _ _)]
  rfl

/-- A value between two integers has an integer part between them. -/
theorem intOf_le_of_fle {x : F32} {n : Nat} (h0 : fle 0 x = true) (h : fle x (f32 n) = true) (hn : n ≤ 2 ^ 24) :
    intOf x ≤ n := by
  have hx : 0 ≤ orderKey x := (fle_iff.mp h0).2.2
  have hle := (fle_iff.mp h).2.2
  rw [orderKey_nonneg hx, orderKey_f32] at hle
  have hm : magPat x ≤ magPat (f32 n) := by exact_mod_cast hle
  have hu : units x ≤ units (f32 n) := by rw [units_eq, units_eq]; exact unitsOf_le_iff.mpr hm
  rw [(units_f32 hn).1] at hu
  rw [intOf]
  exact Nat.div_le_of_le_mul (by rw [mul_comm]; exact hu)

theorem le_intOf_of_fle {x : F32} {n : Nat} (h : fle (f32 n) x = true) (hn : n ≤ 2 ^ 24) : n ≤ intOf x := by
  have hle := (fle_iff.mp h).2.2
  have hx : 0 ≤ orderKey x := le_trans (by rw [orderKey_f32]; positivity) hle
  rw [orderKey_nonneg hx, orderKey_f32] at hle
  have hm : magPat (f32 n) ≤ magPat x := by exact_mod_cast hle
  have hu : units (f32 n) ≤ units x := by rw [units_eq, units_eq]; exact unitsOf_le_iff.mpr hm
  rw [(units_f32 hn).1] at hu
  rw [intOf, Nat.le_div_iff_mul_le (by unfold unitsPerOne; positivity)]
  exact hu

/-! The square root and the sign -/

/-- `isqrt` is the integer square root. -/
theorem isqrt_spec (m : Nat) : isqrt m * isqrt m ≤ m ∧ m < (isqrt m + 1) * (isqrt m + 1) := by
  have key : ∀ b r, r * r ≤ m → m < (r + 2 ^ b) * (r + 2 ^ b) →
      isqrtFrom m b r * isqrtFrom m b r ≤ m ∧ m < (isqrtFrom m b r + 1) * (isqrtFrom m b r + 1) := by
    intro b
    induction b with
    | zero =>
      intro r h1 h2
      exact ⟨h1, h2⟩
    | succ b ih =>
      intro r h1 h2
      rw [isqrtFrom]
      split
      · rename_i h
        exact ih _ h (by rw [add_assoc, ← two_mul, ← pow_succ']; exact h2)
      · rename_i h
        exact ih _ h1 (by omega)
  refine key _ 0 (by simp) ?_
  have h : m < 2 ^ (m.log2 + 1) := Nat.lt_log2_self
  refine lt_of_lt_of_le h ?_
  rw [Nat.zero_add, ← pow_add]
  exact Nat.pow_le_pow_right (by norm_num) (by omega)

theorem isNaN_fneg (x : F32) : isNaN (fneg x) = isNaN x := by simp [isNaN]

theorem isInf_fneg (x : F32) : isInf (fneg x) = isInf x := by simp [isInf]

theorem isFinite_fneg (x : F32) : isFinite (fneg x) = isFinite x := by simp [isFinite]

theorem isZero_fneg (x : F32) : isZero (fneg x) = isZero x := by simp [isZero]

theorem units_fneg (x : F32) : units (fneg x) = units x := by rw [units_eq, units_eq, magPat_fneg]

theorem sUnits_fneg (x : F32) : sUnits (fneg x) = -sUnits x := by
  unfold sUnits
  rw [units_fneg, signBit_fneg]
  cases signBit x <;> simp

end Sys2Proof.Machine
end

