-- ==== Sys2Proof/Laws/Status.lean ====
section
/-! SUPPORT. The status register after a fault and after a construction, field by field (10_state.md R24;
60_exceptions.md R262; 48_engine.md R243). -/

namespace Sys2Proof.Machine

/-- CAUSE as a bit field. -/
theorem State.cause_eq (s : State) : s.cause = (s.st.extractLsb' 4 4).toNat := by
  simp [State.cause, BitVec.extractLsb'_toNat, Nat.shiftRight_eq_div_pow]

theorem stRaise_fault (e : Cause) (st : Word) : (stRaise e st).getLsbD 1 = true := by simp [stRaise]

theorem stRaise_cfg (e : Cause) (st : Word) : (stRaise e st).getLsbD 0 = false := by simp [stRaise]

/-- With a fault recorded already, CAUSE is kept. -/
theorem stRaise_cause_kept (e : Cause) {st : Word} (h : st.getLsbD 1 = true) :
    (stRaise e st).extractLsb' 4 4 = st.extractLsb' 4 4 := by
  simp only [stRaise, h, if_true]
  ext i hi
  interval_cases i <;> simp

/-- With no fault recorded, CAUSE becomes the code. -/
theorem stRaise_cause_new (e : Cause) {st : Word} (h : st.getLsbD 1 = false) :
    (stRaise e st).extractLsb' 4 4 = BitVec.ofNat 4 e.code := by
  simp only [stRaise, h]
  ext i hi
  cases e <;> interval_cases i <;> simp [Cause.code]

/-- The reserved bits keep what they hold. -/
theorem stRaise_reserved (e : Cause) (st : Word) : stRaise e st &&& 0xFFFFFF0C = st &&& 0xFFFFFF0C := by
  have hc : BitVec.ofNat 32 (e.code * 2 ^ 4) &&& 0xFFFFFF0C = 0 := by cases e <;> rfl
  have h1 : ∀ x : Word, (x ||| 2) &&& 0xFFFFFFFE &&& 0xFFFFFF0C = x &&& 0xFFFFFF0C := by
    intro x
    ext i hi
    interval_cases i <;> simp
  have h2 : ∀ x : Word, x &&& 0xFFFFFF0F &&& 0xFFFFFF0C = x &&& 0xFFFFFF0C := by
    intro x
    rw [BitVec.and_assoc]
    rfl
  simp only [stRaise, h1]
  split
  · rfl
  · rw [BitVec.and_or_distrib_right, hc, h2]
    simp

theorem stConstructed_fault (st : Word) : (stConstructed st).getLsbD 1 = false := by simp [stConstructed]

theorem stConstructed_cfg (st : Word) : (stConstructed st).getLsbD 0 = true := by simp [stConstructed]

theorem stConstructed_cause (st : Word) : (stConstructed st).extractLsb' 4 4 = 0 := by
  simp only [stConstructed]
  ext i hi
  interval_cases i <;> simp

theorem stConstructed_reserved (st : Word) : stConstructed st &&& 0xFFFFFF0C = st &&& 0xFFFFFF0C := by
  simp only [stConstructed]
  ext i hi
  interval_cases i <;> simp

@[simp] theorem raise_isFaulted (e : Cause) (w : Word) (s : State) : (raise e w s).isFaulted = true := stRaise_fault e s.st

@[simp] theorem raise_isConfigured (e : Cause) (w : Word) (s : State) : (raise e w s).isConfigured = false :=
  stRaise_cfg e s.st

theorem raise_cause_new (e : Cause) (w : Word) {s : State} (h : s.isFaulted = false) :
    (raise e w s).cause = e.code := by
  rw [State.cause_eq]
  show ((stRaise e s.st).extractLsb' 4 4).toNat = e.code
  rw [stRaise_cause_new e h]
  cases e <;> rfl

theorem raise_cause_kept (e : Cause) (w : Word) {s : State} (h : s.isFaulted = true) :
    (raise e w s).cause = s.cause := by
  rw [State.cause_eq, State.cause_eq]
  show ((stRaise e s.st).extractLsb' 4 4).toNat = _
  rw [stRaise_cause_kept e h]

theorem raise_fcmd_new (e : Cause) (w : Word) {s : State} (h : s.isFaulted = false) : (raise e w s).fcmd = w := by
  simp [raise, h]

theorem raise_fcmd_kept (e : Cause) (w : Word) {s : State} (h : s.isFaulted = true) :
    (raise e w s).fcmd = s.fcmd := by simp [raise, h]

@[simp] theorem construct_isFaulted (fs : F32) (s : State) : (construct fs s).isFaulted = false := stConstructed_fault s.st

@[simp] theorem construct_isConfigured (fs : F32) (s : State) : (construct fs s).isConfigured = true := stConstructed_cfg s.st

@[simp] theorem construct_isReady (fs : F32) (s : State) : (construct fs s).isReady = true := by
  rw [State.isReady, construct_isConfigured, construct_isFaulted]
  rfl

@[simp] theorem construct_cause (fs : F32) (s : State) : (construct fs s).cause = 0 := by
  rw [State.cause_eq]
  show ((stConstructed s.st).extractLsb' 4 4).toNat = 0
  rw [stConstructed_cause]
  rfl

@[simp] theorem tick_isFaulted (s : State) : s.tick.isFaulted = s.isFaulted := rfl

@[simp] theorem tick_isConfigured (s : State) : s.tick.isConfigured = s.isConfigured := rfl

@[simp] theorem tick_isReady (s : State) : s.tick.isReady = s.isReady := rfl

@[simp] theorem tick_cause (s : State) : s.tick.cause = s.cause := rfl

@[simp] theorem spend_isFaulted (s : State) : s.spend.isFaulted = s.isFaulted := rfl

@[simp] theorem spend_isConfigured (s : State) : s.spend.isConfigured = s.isConfigured := rfl

@[simp] theorem spend_isReady (s : State) : s.spend.isReady = s.isReady := rfl

@[simp] theorem spend_cause (s : State) : s.spend.cause = s.cause := rfl

theorem isReady_iff (s : State) : s.isReady = true ↔ s.isConfigured = true ∧ s.isFaulted = false := by
  simp [State.isReady]

end Sys2Proof.Machine
end

