-- ==== Sys2Proof/Laws/Invariant.lean ====
section
/-! SUPPORT. What each update of State does to the invariant, and what the unit operations do to their records. -/

namespace Sys2Proof.Machine

theorem mem_set_cases {α : Type} {l : List α} {u : Nat} {x y : α} (h : y ∈ l.set u x) : y = x ∨ y ∈ l :=
  (List.mem_or_eq_of_mem_set h).symm

/-- The operand registers, the inbox, the log of reads, pc and the counter of free values are free of the
invariant; VA has to have `N` lanes. -/
theorem Invariant.host {s : State} (h : Invariant s) (a0 a1 a2 a3 : Port) {va : VecPort}
    (hva : va.lanes.length = s.cfg.n) (inbox : List HostAction) (obs : List Observation) (draws pc : Nat) :
    Invariant { s with a0 := a0, a1 := a1, a2 := a2, a3 := a3, va := va, inbox := inbox, obs := obs, draws := draws, pc := pc } :=
  ⟨h.config, ⟨h.status.reserved, h.status.exclusive, h.status.noFault, h.status.fault⟩,
    ⟨h.files.fir, h.files.afs, h.files.opf, h.files.rmp, h.files.exs, h.files.dly, h.files.rpt, hva, h.files.vr⟩,
    ⟨h.spaces.firBuf, h.spaces.firCoef, h.spaces.dlyBuf⟩,
    fun hr => ⟨(h.units hr).fir, (h.units hr).dly, (h.units hr).rmp, (h.units hr).rpt⟩⟩

theorem Invariant.tick {s : State} (h : Invariant s) : Invariant s.tick :=
  h.host s.a0 s.a1 s.a2 s.a3 h.files.va s.inbox s.obs s.draws (s.pc + 1)

theorem Invariant.spend {s : State} (h : Invariant s) : Invariant s.spend :=
  h.host s.a0 s.a1 s.a2 s.a3 h.files.va s.inbox s.obs (s.draws + 1) s.pc

theorem Invariant.writeVa {s : State} (h : Invariant s) {v : Lanes} (hv : v.length = s.cfg.n) :
    Invariant (s.writeVa v) := h.host s.a0 s.a1 s.a2 s.a3 (va := ⟨v, true⟩) hv s.inbox s.obs s.draws s.pc

theorem Invariant.writeR {s : State} (h : Invariant s) (x : F32) : Invariant (s.writeR x) :=
  ⟨h.config, ⟨h.status.reserved, h.status.exclusive, h.status.noFault, h.status.fault⟩,
    ⟨h.files.fir, h.files.afs, h.files.opf, h.files.rmp, h.files.exs, h.files.dly, h.files.rpt, h.files.va, h.files.vr⟩,
    ⟨h.spaces.firBuf, h.spaces.firCoef, h.spaces.dlyBuf⟩,
    fun hr => ⟨(h.units hr).fir, (h.units hr).dly, (h.units hr).rmp, (h.units hr).rpt⟩⟩

theorem Invariant.writeVr {s : State} (h : Invariant s) {v : Lanes} (hv : v.length = s.cfg.n) :
    Invariant (s.writeVr v) :=
  ⟨h.config, ⟨h.status.reserved, h.status.exclusive, h.status.noFault, h.status.fault⟩,
    ⟨h.files.fir, h.files.afs, h.files.opf, h.files.rmp, h.files.exs, h.files.dly, h.files.rpt, h.files.va, hv⟩,
    ⟨h.spaces.firBuf, h.spaces.firCoef, h.spaces.dlyBuf⟩,
    fun hr => ⟨(h.units hr).fir, (h.units hr).dly, (h.units hr).rmp, (h.units hr).rpt⟩⟩

theorem Invariant.setAfs {s : State} (h : Invariant s) (u : Nat) (f : Afs) : Invariant (s.setAfs u f) :=
  ⟨h.config, ⟨h.status.reserved, h.status.exclusive, h.status.noFault, h.status.fault⟩,
    ⟨h.files.fir, by simpa using h.files.afs, h.files.opf, h.files.rmp, h.files.exs, h.files.dly, h.files.rpt,
      h.files.va, h.files.vr⟩,
    ⟨h.spaces.firBuf, h.spaces.firCoef, h.spaces.dlyBuf⟩,
    fun hr => ⟨(h.units hr).fir, (h.units hr).dly, (h.units hr).rmp, (h.units hr).rpt⟩⟩

theorem Invariant.setOpf {s : State} (h : Invariant s) (u : Nat) (f : OnePole) : Invariant (s.setOpf u f) :=
  ⟨h.config, ⟨h.status.reserved, h.status.exclusive, h.status.noFault, h.status.fault⟩,
    ⟨h.files.fir, h.files.afs, by simpa using h.files.opf, h.files.rmp, h.files.exs, h.files.dly, h.files.rpt,
      h.files.va, h.files.vr⟩,
    ⟨h.spaces.firBuf, h.spaces.firCoef, h.spaces.dlyBuf⟩,
    fun hr => ⟨(h.units hr).fir, (h.units hr).dly, (h.units hr).rmp, (h.units hr).rpt⟩⟩

theorem Invariant.setExs {s : State} (h : Invariant s) (u : Nat) (f : Exs) : Invariant (s.setExs u f) :=
  ⟨h.config, ⟨h.status.reserved, h.status.exclusive, h.status.noFault, h.status.fault⟩,
    ⟨h.files.fir, h.files.afs, h.files.opf, h.files.rmp, by simpa using h.files.exs, h.files.dly, h.files.rpt,
      h.files.va, h.files.vr⟩,
    ⟨h.spaces.firBuf, h.spaces.firCoef, h.spaces.dlyBuf⟩,
    fun hr => ⟨(h.units hr).fir, (h.units hr).dly, (h.units hr).rmp, (h.units hr).rpt⟩⟩

/-- A FIR unit whose spaces are good, and whose indices are in READY, may take the place of another. -/
theorem Invariant.setFir {s : State} (h : Invariant s) (u : Nat) {f : Fir}
    (hb : f.buf.wf = true ∧ f.buf.fits (s.cfg.lMax * s.cfg.n)) (hc : f.c.wf = true ∧ f.c.fits (s.cfg.lMax * s.cfg.n))
    (hg : s.isReady = true → firGood s.cfg f) : Invariant (s.setFir u f) :=
  ⟨h.config, ⟨h.status.reserved, h.status.exclusive, h.status.noFault, h.status.fault⟩,
    ⟨by simpa using h.files.fir, h.files.afs, h.files.opf, h.files.rmp, h.files.exs, h.files.dly, h.files.rpt,
      h.files.va, h.files.vr⟩,
    ⟨fun g hm => (mem_set_cases hm).elim (fun e => e ▸ hb) (h.spaces.firBuf g),
      fun g hm => (mem_set_cases hm).elim (fun e => e ▸ hc) (h.spaces.firCoef g), h.spaces.dlyBuf⟩,
    fun hr => ⟨fun g hm => (mem_set_cases hm).elim (fun e => e ▸ hg hr) ((h.units hr).fir g), (h.units hr).dly,
      (h.units hr).rmp, (h.units hr).rpt⟩⟩

theorem Invariant.setDly {s : State} (h : Invariant s) (u : Nat) {f : Delay}
    (hb : f.buf.wf = true ∧ f.buf.fits s.cfg.dlyCapMax) (hg : s.isReady = true → delayGood s.cfg f) :
    Invariant (s.setDly u f) :=
  ⟨h.config, ⟨h.status.reserved, h.status.exclusive, h.status.noFault, h.status.fault⟩,
    ⟨h.files.fir, h.files.afs, h.files.opf, h.files.rmp, h.files.exs, by simpa using h.files.dly, h.files.rpt,
      h.files.va, h.files.vr⟩,
    ⟨h.spaces.firBuf, h.spaces.firCoef, fun g hm => (mem_set_cases hm).elim (fun e => e ▸ hb) (h.spaces.dlyBuf g)⟩,
    fun hr => ⟨(h.units hr).fir, fun g hm => (mem_set_cases hm).elim (fun e => e ▸ hg hr) ((h.units hr).dly g),
      (h.units hr).rmp, (h.units hr).rpt⟩⟩

theorem Invariant.setRmp {s : State} (h : Invariant s) {u : Nat} {f : Ramp}
    (hg : s.isReady = true → f.cnt ≤ rampSamplesOf s.cfg u) : Invariant (s.setRmp u f) :=
  ⟨h.config, ⟨h.status.reserved, h.status.exclusive, h.status.noFault, h.status.fault⟩,
    ⟨h.files.fir, h.files.afs, h.files.opf, by simpa using h.files.rmp, h.files.exs, h.files.dly, h.files.rpt,
      h.files.va, h.files.vr⟩,
    ⟨h.spaces.firBuf, h.spaces.firCoef, h.spaces.dlyBuf⟩,
    fun hr => ⟨(h.units hr).fir, (h.units hr).dly, fun v g hm => by
      rw [State.setRmp_rmp, List.getElem?_set] at hm
      split at hm
      · rename_i huv
        split at hm
        · cases hm
          exact huv ▸ hg hr
        · cases hm
      · exact (h.units hr).rmp v g hm, (h.units hr).rpt⟩⟩

theorem Invariant.setRpt {s : State} (h : Invariant s) (u : Nat) {e : RepeatUnit}
    (hg : s.isReady = true → repeatGood s.cfg e) : Invariant (s.setRpt u e) :=
  ⟨h.config, ⟨h.status.reserved, h.status.exclusive, h.status.noFault, h.status.fault⟩,
    ⟨h.files.fir, h.files.afs, h.files.opf, h.files.rmp, h.files.exs, h.files.dly, by simpa using h.files.rpt,
      h.files.va, h.files.vr⟩,
    ⟨h.spaces.firBuf, h.spaces.firCoef, h.spaces.dlyBuf⟩,
    fun hr => ⟨(h.units hr).fir, (h.units hr).dly, (h.units hr).rmp,
      fun g hm => (mem_set_cases hm).elim (fun x => x ▸ hg hr) ((h.units hr).rpt g)⟩⟩

/-- Raising a fault keeps the invariant: the core leaves READY. -/
theorem Invariant.raise {s : State} (h : Invariant s) (e : Cause) (w : Word) : Invariant (raise e w s) :=
  ⟨h.config,
    { reserved := (stRaise_reserved e s.st).trans h.status.reserved
      exclusive := fun hc => absurd hc (by simp)
      noFault := fun hf => absurd hf (by simp)
      fault := fun _ => by
        cases hs : s.isFaulted with
        | false =>
          rw [raise_cause_new e w hs]
          cases e <;> simp [Cause.code]
        | true =>
          rw [raise_cause_kept e w hs]
          exact h.status.fault hs },
    ⟨h.files.fir, h.files.afs, h.files.opf, h.files.rmp, h.files.exs, h.files.dly, h.files.rpt, h.files.va, h.files.vr⟩,
    ⟨h.spaces.firBuf, h.spaces.firCoef, h.spaces.dlyBuf⟩,
    fun hr => absurd ((isReady_iff _).mp hr).2 (by simp)⟩

/-! The records -/

/-- The table of coefficients is in canonical form and stays in its space. -/
theorem coefTable_good (cfg : Config) (u k : Nat) :
    (coefTable cfg u k).wf = true ∧ (coefTable cfg u k).fits (k * cfg.n) := by
  induction k with
  | zero => exact ⟨rfl, Memory.fits_nil _⟩
  | succ k ih =>
    refine ⟨Memory.wf_writeVec ih.1 _ _ _, ?_⟩
    refine Memory.fits_writeVec (fun p hp => lt_of_lt_of_le (ih.2 p hp) ?_) (Nat.lt_succ_self k) _
    exact Nat.mul_le_mul_right _ (Nat.le_succ k)

/-- The table holds `CFG.C[u]`. -/
theorem coefTable_readLane (cfg : Config) (u k : Nat) {i j : Nat} (hi : i < k) (hj : j < cfg.n) :
    (coefTable cfg u k).readLane cfg.n i j = coefOf cfg u i j := by
  induction k with
  | zero => omega
  | succ k ih =>
    rw [coefTable]
    by_cases h : i = k
    · subst h
      rw [Memory.readLane_writeVec_same (coefTable_good cfg u i).1 _ hj, lane_vecOf _ hj]
    · rw [Memory.readLane_writeVec_other _ h hj]
      exact ih (by omega)

/-- A length that `FIR.NEW` may give. -/
theorem newFir_good {cfg : Config} {u len : Nat} (h : isPow2 len = true) (hl : len ≤ cfg.lMax) :
    firGood cfg (newFir cfg u len) := by
  refine ⟨h, hl, ?_⟩
  have h0 : len ≠ 0 := by
    rintro rfl
    simp [isPow2] at h
  show 0 < len
  omega

/-- A push keeps a FIR unit good. -/
theorem firPush_good {cfg : Config} {f : Fir} (h : firGood cfg f) (v : Lanes) : firGood cfg (firPush cfg f v) := by
  obtain ⟨h1, h2, h3⟩ := h
  refine ⟨h1, h2, ?_⟩
  show (f.idx + 1) &&& (f.len - 1) < f.len
  have := Nat.and_le_right (n := f.idx + 1) (m := f.len - 1)
  omega

theorem firPush_buf {cfg : Config} {f : Fir} (hb : f.buf.wf = true ∧ f.buf.fits (cfg.lMax * cfg.n))
    (hi : f.idx < cfg.lMax) (v : Lanes) :
    (firPush cfg f v).buf.wf = true ∧ (firPush cfg f v).buf.fits (cfg.lMax * cfg.n) :=
  ⟨Memory.wf_writeVec hb.1 _ _ _, Memory.fits_writeVec hb.2 hi v⟩

theorem ringIndex_lt {cap : Nat} (h : 0 < cap) (p : Int) : ringIndex cap p < cap := by
  have h1 := Int.emod_lt_of_pos p (by exact_mod_cast h : (0 : Int) < cap)
  have h2 := Int.emod_nonneg p (by exact_mod_cast h.ne' : (cap : Int) ≠ 0)
  unfold ringIndex
  omega

/-- A write keeps a delay buffer good. -/
theorem delayWrite_good {cfg : Config} {f : Delay} (h : delayGood cfg f) (x : F32) :
    delayGood cfg (delayWrite f x) := by
  obtain ⟨h1, h2, h3⟩ := h
  have h4 := ringIndex_lt (cap := f.cap) (by omega) (f.w + 1)
  exact ⟨h1, h2, h4⟩

theorem delayWrite_buf {cfg : Config} {f : Delay} (hb : f.buf.wf = true ∧ f.buf.fits cfg.dlyCapMax)
    (hi : delayInSpace cfg f = true) (x : F32) :
    (delayWrite f x).buf.wf = true ∧ (delayWrite f x).buf.fits cfg.dlyCapMax := by
  simp only [delayInSpace, Bool.and_eq_true, decide_eq_true_eq] at hi
  exact ⟨Memory.wf_write hb.1 _ _, Memory.fits_write hb.2 hi.1 x⟩

theorem rampSet_cnt {rs : Nat} {d : Draw} {x : F32} {f : Ramp} (h : f.cnt ≤ rs) : (rampSet rs d x f).cnt ≤ rs := by
  unfold rampSet
  split
  · exact le_rfl
  · exact h

theorem rampStep_cnt (d : Draw) (f : Ramp) : (rampStep d f).cnt = f.cnt - 1 := by
  unfold rampStep
  split
  · rfl
  · omega

theorem rptDetect_good {cfg : Config} {d : Draw} {e : RepeatUnit} {q : TapSet} (h : repeatGood cfg e)
    (hq : q.count ≤ cfg.rptMaxTaps) : repeatGood cfg (rptDetect cfg d e q) := by
  unfold rptDetect
  split
  · exact ⟨le_rfl, hq, h.2.1⟩
  · exact h

theorem rptEvaluate_good {cfg : Config} {d : Draw} {e e' : RepeatUnit} {input out : F32} {f : Delay}
    (h : repeatGood cfg e) (hs : rptEvaluate cfg d e input f = some (e', out)) : repeatGood cfg e' := by
  rw [rptEvaluate_eq_some hs]
  split
  · exact ⟨le_trans (Nat.sub_le _ _) h.1, h.2.1, h.2.2⟩
  · exact h

end Sys2Proof.Machine
end

