-- ==== Sys2Proof/Laws/Masks.lean ====
section
/-! SUPPORT. Powers of two and the masks made of them (40_fir.md R121; 20_memory.md R65). -/

namespace Sys2Proof.Machine

theorem isPow2_iff (n : Nat) : isPow2 n = true ↔ ∃ e, n = 2 ^ e := by
  simp only [isPow2, Bool.and_eq_true, bne_iff_ne, beq_iff_eq]
  constructor
  · rintro ⟨h, h'⟩
    exact (Nat.and_sub_one_eq_zero_iff_isPowerOfTwo h).mp h'
  · rintro ⟨e, rfl⟩
    exact ⟨by positivity, (Nat.and_sub_one_eq_zero_iff_isPowerOfTwo (by positivity)).mpr ⟨e, rfl⟩⟩

/-- `p & (len - 1)` is `p mod len`. -/
theorem and_mask {len : Nat} (h : isPow2 len = true) (p : Nat) : p &&& (len - 1) = p % len := by
  obtain ⟨e, rfl⟩ := (isPow2_iff len).mp h
  exact Nat.and_two_pow_sub_one_eq_mod p e

end Sys2Proof.Machine
end

