-- ==== Sys2Proof/Laws/Outcomes.lean ====
section
/-! SUPPORT. What a command word can do to the status register, FCMD, pc, the operand registers and CFG, said once
for all commands. -/

namespace Sys2Proof.Machine

/-- The fields no command but a fault or a construction touches are the same in `m` as in `s`. -/
structure Quiet (s m : State) : Prop where
  cfg : m.cfg = s.cfg
  a0 : m.a0 = s.a0
  a1 : m.a1 = s.a1
  a2 : m.a2 = s.a2
  a3 : m.a3 = s.a3
  pc : m.pc = s.pc
  st : m.st = s.st
  fcmd : m.fcmd = s.fcmd
  consts : m.fs = s.fs ∧ m.k1 = s.k1 ∧ m.k2 = s.k2 ∧ m.k3 = s.k3 ∧ m.w = s.w
  inbox : m.inbox = s.inbox
  obs : m.obs = s.obs

theorem Quiet.self (s : State) : Quiet s s :=
  ⟨rfl, rfl, rfl, rfl, rfl, rfl, rfl, rfl, ⟨rfl, rfl, rfl, rfl, rfl⟩, rfl, rfl⟩

theorem Quiet.comp {s m t : State} (h : Quiet s m) (h' : Quiet m t) : Quiet s t :=
  ⟨h'.cfg.trans h.cfg, h'.a0.trans h.a0, h'.a1.trans h.a1, h'.a2.trans h.a2, h'.a3.trans h.a3, h'.pc.trans h.pc,
    h'.st.trans h.st, h'.fcmd.trans h.fcmd,
    ⟨h'.consts.1.trans h.consts.1, h'.consts.2.1.trans h.consts.2.1, h'.consts.2.2.1.trans h.consts.2.2.1,
      h'.consts.2.2.2.1.trans h.consts.2.2.2.1, h'.consts.2.2.2.2.trans h.consts.2.2.2.2⟩,
    h'.inbox.trans h.inbox, h'.obs.trans h.obs⟩

theorem Quiet.spend {s m : State} (h : Quiet s m) : Quiet s (m.spend) :=
  h.comp ⟨rfl, rfl, rfl, rfl, rfl, rfl, rfl, rfl, ⟨rfl, rfl, rfl, rfl, rfl⟩, rfl, rfl⟩

theorem Quiet.writeR {s m : State} (h : Quiet s m) (x : F32) : Quiet s (m.writeR x) :=
  h.comp ⟨rfl, rfl, rfl, rfl, rfl, rfl, rfl, rfl, ⟨rfl, rfl, rfl, rfl, rfl⟩, rfl, rfl⟩

theorem Quiet.writeVa {s m : State} (h : Quiet s m) (v : Lanes) : Quiet s (m.writeVa v) :=
  h.comp ⟨rfl, rfl, rfl, rfl, rfl, rfl, rfl, rfl, ⟨rfl, rfl, rfl, rfl, rfl⟩, rfl, rfl⟩

theorem Quiet.writeVr {s m : State} (h : Quiet s m) (v : Lanes) : Quiet s (m.writeVr v) :=
  h.comp ⟨rfl, rfl, rfl, rfl, rfl, rfl, rfl, rfl, ⟨rfl, rfl, rfl, rfl, rfl⟩, rfl, rfl⟩

theorem Quiet.setFir {s m : State} (h : Quiet s m) (u : Nat) (f : Fir) : Quiet s (m.setFir u f) :=
  h.comp ⟨rfl, rfl, rfl, rfl, rfl, rfl, rfl, rfl, ⟨rfl, rfl, rfl, rfl, rfl⟩, rfl, rfl⟩

theorem Quiet.setAfs {s m : State} (h : Quiet s m) (u : Nat) (f : Afs) : Quiet s (m.setAfs u f) :=
  h.comp ⟨rfl, rfl, rfl, rfl, rfl, rfl, rfl, rfl, ⟨rfl, rfl, rfl, rfl, rfl⟩, rfl, rfl⟩

theorem Quiet.setOpf {s m : State} (h : Quiet s m) (u : Nat) (f : OnePole) : Quiet s (m.setOpf u f) :=
  h.comp ⟨rfl, rfl, rfl, rfl, rfl, rfl, rfl, rfl, ⟨rfl, rfl, rfl, rfl, rfl⟩, rfl, rfl⟩

theorem Quiet.setRmp {s m : State} (h : Quiet s m) (u : Nat) (f : Ramp) : Quiet s (m.setRmp u f) :=
  h.comp ⟨rfl, rfl, rfl, rfl, rfl, rfl, rfl, rfl, ⟨rfl, rfl, rfl, rfl, rfl⟩, rfl, rfl⟩

theorem Quiet.setExs {s m : State} (h : Quiet s m) (u : Nat) (f : Exs) : Quiet s (m.setExs u f) :=
  h.comp ⟨rfl, rfl, rfl, rfl, rfl, rfl, rfl, rfl, ⟨rfl, rfl, rfl, rfl, rfl⟩, rfl, rfl⟩

theorem Quiet.setDly {s m : State} (h : Quiet s m) (u : Nat) (f : Delay) : Quiet s (m.setDly u f) :=
  h.comp ⟨rfl, rfl, rfl, rfl, rfl, rfl, rfl, rfl, ⟨rfl, rfl, rfl, rfl, rfl⟩, rfl, rfl⟩

theorem Quiet.setRpt {s m : State} (h : Quiet s m) (u : Nat) (f : RepeatUnit) : Quiet s (m.setRpt u f) :=
  h.comp ⟨rfl, rfl, rfl, rfl, rfl, rfl, rfl, rfl, ⟨rfl, rfl, rfl, rfl, rfl⟩, rfl, rfl⟩

theorem ovsUpBody_quiet {o : Nat} {s t : State} (h : ovsUpBody o s = .next t) : Quiet s t := by
  obtain ⟨_, f, g, out, _, _, rfl⟩ := ovsUpBody_eq_next h
  exact (((Quiet.self s).setFir _ _).writeVr _).spend

theorem ovsDnBody_quiet {o : Nat} {s t : State} (h : ovsDnBody o s = .next t) : Quiet s t := by
  obtain ⟨_, f, g, out, _, _, rfl⟩ := ovsDnBody_eq_next h
  exact ((((Quiet.self s).setFir _ _).writeVr _).writeR _).spend

theorem shapeBody_quiet {fn : Nat} {s t : State} (h : (if fn = 0 then wsRatBody s else wsDiodeBody s) = .next t) :
    Quiet s t := by
  obtain ⟨_, out, _, rfl⟩ := shapeBody_eq_next h
  exact ((Quiet.self s).writeVr _).spend

theorem vaFromVr_quiet (s : State) : Quiet s (vaFromVr s) := (Quiet.self s).writeVa _

theorem afsCoefBody_quiet {u : Nat} {s t : State} (h : afsCoefBody u s = .next t) : Quiet s t := by
  obtain ⟨_, f, _, rfl⟩ := afsCoefBody_eq_next h
  exact ((Quiet.self s).setAfs _ _).spend

theorem afsStepBody_quiet {u : Nat} {s t : State} (h : afsStepBody u s = .next t) : Quiet s t := by
  obtain ⟨_, f, _, rfl⟩ := afsStepBody_eq_next h
  exact (((Quiet.self s).setAfs _ _).writeR _).spend

theorem afsGainBody_quiet {u : Nat} {s t : State} (h : afsGainBody u s = .next t) : Quiet s t := by
  obtain ⟨f, _, rfl⟩ := afsGainBody_eq_next h
  exact (((Quiet.self s).setAfs _ _).writeR _).spend

theorem rmpSetBody_quiet {u : Nat} {s t : State} (h : rmpSetBody u s = .next t) : Quiet s t := by
  obtain ⟨_, f, _, rfl⟩ := rmpSetBody_eq_next h
  exact ((Quiet.self s).setRmp _ _).spend

theorem rmpStepBody_quiet {u : Nat} {s t : State} (h : rmpStepBody u s = .next t) : Quiet s t := by
  obtain ⟨f, _, rfl⟩ := rmpStepBody_eq_next h
  exact (((Quiet.self s).setRmp _ _).writeR _).spend

/-- A body does one of three things: raise a fault, construct the core, or leave the quiet fields alone. -/
theorem commandBody_eq_next {i : Instr} {s m : State} (h : commandBody i s = .next m) :
    (∃ e, m = raise e (encode i) s) ∨
    (i = .engNew ∧ engineCheck s.cfg s.draw s.a0.val = none ∧ m = (construct s.a0.val s).spend) ∨
    Quiet s m := by
  have q := Quiet.self s
  cases i with
  | engNew =>
    obtain ⟨_, ⟨e, _, hm⟩ | ⟨hc, hm⟩⟩ := engNewBody_eq_next h
    · exact .inl ⟨e, hm⟩
    · exact .inr (.inl ⟨rfl, hc, hm⟩)
  | firNew u len => obtain ⟨_, rfl⟩ := firNewBody_eq_next h; exact .inr (.inr (q.setFir _ _))
  | firProc u =>
    obtain ⟨_, f, g, out, _, _, rfl⟩ := firProcBody_eq_next h
    exact .inr (.inr ((q.setFir _ _).writeVr _).spend)
  | ovsUp o => exact .inr (.inr (ovsUpBody_quiet h))
  | ovsDn o => exact .inr (.inr (ovsDnBody_quiet h))
  | ovsProc o fn =>
    obtain ⟨t1, t2, h1, h2, h3⟩ := ovsProcBody_eq_next h
    exact .inr (.inr ((((ovsUpBody_quiet h1).comp (vaFromVr_quiet t1)).comp (shapeBody_quiet h2)).comp
      ((vaFromVr_quiet t2).comp (ovsDnBody_quiet h3))))
  | wsRat => obtain ⟨_, rfl⟩ := wsRatBody_eq_next h; exact .inr (.inr (q.writeVr _).spend)
  | wsDiode => obtain ⟨_, rfl⟩ := wsDiodeBody_eq_next h; exact .inr (.inr (q.writeVr _).spend)
  | afsCoef u => exact .inr (.inr (afsCoefBody_quiet h))
  | afsStep u => exact .inr (.inr (afsStepBody_quiet h))
  | afsProc u =>
    obtain ⟨t1, t2, h1, h2, h3⟩ := afsProcBody_eq_next h
    exact .inr (.inr (((afsCoefBody_quiet h1).comp (afsStepBody_quiet h2)).comp (afsGainBody_quiet h3)))
  | opfProc u =>
    obtain ⟨_, _, f, _, rfl⟩ := opfProcBody_eq_next h
    exact .inr (.inr ((q.setOpf _ _).writeR _).spend)
  | rmpSet u => exact .inr (.inr (rmpSetBody_quiet h))
  | rmpStep u => exact .inr (.inr (rmpStepBody_quiet h))
  | rmpProc u =>
    obtain ⟨t1, h1, h2⟩ := rmpProcBody_eq_next h
    exact .inr (.inr ((rmpSetBody_quiet h1).comp (rmpStepBody_quiet h2)))
  | rmpInit u => obtain ⟨_, _, rfl⟩ := rmpInitBody_eq_next h; exact .inr (.inr (q.setRmp _ _))
  | exsProc u =>
    obtain ⟨_, f, _, rfl⟩ := exsProcBody_eq_next h
    exact .inr (.inr ((q.setExs _ _).writeR _).spend)
  | exsInit u => obtain ⟨_, f, _, rfl⟩ := exsInitBody_eq_next h; exact .inr (.inr (q.setExs _ _))
  | dlyWr u => obtain ⟨_, f, _, _, rfl⟩ := dlyWrBody_eq_next h; exact .inr (.inr (q.setDly _ _))
  | dlyRd u mode =>
    obtain ⟨_, f, _, _, ⟨v, _, rfl⟩ | ⟨_, rfl⟩⟩ := dlyRdBody_eq_next h
    · exact .inr (.inr (q.writeR _).spend)
    · exact .inl ⟨_, rfl⟩
  | rptProc u count =>
    obtain ⟨_, e, f, _, _, _, ⟨e', out, _, rfl⟩ | ⟨_, rfl⟩⟩ := rptProcBody_eq_next h
    · exact .inr (.inr (((q.setRpt _ _).setDly _ _).writeR _).spend)
    · exact .inl ⟨_, rfl⟩
  | rptInit u count => obtain ⟨_, _, rfl⟩ := rptInitBody_eq_next h; exact .inr (.inr (q.setRpt _ _))

/-- A command, on a core that may run it or not, does one of five things. -/
theorem exec_cases {i : Instr} {s t : State} (h : exec i s = .next t) :
    (i ≠ .engNew ∧ s.isFaulted = true ∧ t = s.tick) ∨
    (∃ e, t = (raise e (encode i) s).tick ∧ (i = .engNew ∨ s.isFaulted = false)) ∨
    (i = .engNew ∧ engineCheck s.cfg s.draw s.a0.val = none ∧ t = (construct s.a0.val s).spend.tick) ∨
    (s.isReady = true ∧ fieldCheck s.cfg i = none ∧ ∃ m, commandBody i s = .next m ∧ Quiet s m ∧ t = m.tick) := by
  rcases exec_eq_next h with h | ⟨_, hf, _, ht⟩ | ⟨hi, h⟩
  · exact .inl h
  · exact .inr (.inl ⟨_, ht, .inr hf⟩)
  · have hrf : i = .engNew ∨ s.isFaulted = false := by
      rcases hi with hi | hr
      · exact .inl hi
      · exact .inr ((isReady_iff s).mp hr).2
    rcases h with ⟨e, _, ht⟩ | ⟨hc, m, hm, ht⟩
    · exact .inr (.inl ⟨e, ht, hrf⟩)
    · rcases commandBody_eq_next hm with ⟨e, rfl⟩ | ⟨rfl, hc', rfl⟩ | hq
      · exact .inr (.inl ⟨e, ht, hrf⟩)
      · exact .inr (.inr (.inl ⟨rfl, hc', ht⟩))
      · rcases hi with rfl | hr
        · obtain ⟨_, ⟨e, _, rfl⟩ | ⟨hc', rfl⟩⟩ := engNewBody_eq_next hm
          · exact .inr (.inl ⟨e, ht, .inl rfl⟩)
          · exact .inr (.inr (.inl ⟨rfl, hc', ht⟩))
        · exact .inr (.inr (.inr ⟨hr, hc, m, hm, hq, ht⟩))

/-- An issued word, a command or not, does one of four things. -/
theorem issueWord_cases {w : Word} {s t : State} (h : issueWord w s = .next t) :
    (opcField w ≠ 0x01 ∧ s.isFaulted = true ∧ t = s.tick) ∨
    (∃ e, t = (raise e w s).tick ∧ (opcField w = 0x01 ∨ s.isFaulted = false)) ∨
    (w = encode .engNew ∧ engineCheck s.cfg s.draw s.a0.val = none ∧ t = (construct s.a0.val s).spend.tick) ∨
    (∃ i, decode w = .ok i ∧ s.isReady = true ∧ fieldCheck s.cfg i = none ∧
      ∃ m, commandBody i s = .next m ∧ Quiet s m ∧ t = m.tick) := by
  unfold issueWord at h
  cases hd : decode w with
  | error e =>
    rw [hd] at h
    rcases illegalWord_eq_next h with h | ⟨_, hf, _, ht⟩ | ⟨hg, ht⟩
    · exact .inl h
    · exact .inr (.inl ⟨_, ht, .inr hf⟩)
    · refine .inr (.inl ⟨_, ht, ?_⟩)
      rcases hg with hg | hg
      · exact .inl hg
      · exact .inr ((isReady_iff s).mp hg).2
  | ok i =>
    rw [hd] at h
    have he := encode_of_decode hd
    have ho : i = .engNew ↔ opcField w = 1 := by rw [← he, opcField_encode, opcodeOf_eq_one]
    rcases exec_cases h with ⟨h1, h2⟩ | ⟨e, h1, h2⟩ | ⟨h1, h2⟩ | ⟨h1, h2⟩
    · exact .inl ⟨fun hc => h1 (ho.mpr hc), h2⟩
    · exact .inr (.inl ⟨e, he ▸ h1, by rw [← ho]; exact h2⟩)
    · subst h1
      exact .inr (.inr (.inl ⟨he.symm, h2⟩))
    · exact .inr (.inr (.inr ⟨i, rfl, h1, h2⟩))

/-- A word stops the model with a fault only where the body of its command does. -/
theorem issueWord_eq_fault {w : Word} {s : State} {f : Fault} (h : issueWord w s = .fault f) :
    ∃ i, decode w = .ok i ∧ (i = .engNew ∨ s.isReady = true) ∧ fieldCheck s.cfg i = none ∧
      commandBody i s = .fault f := by
  unfold issueWord at h
  cases hd : decode w with
  | error e =>
    rw [hd] at h
    exact absurd h (illegalWord_ne_fault w s f)
  | ok i =>
    rw [hd] at h
    exact ⟨i, rfl, exec_eq_fault h⟩

/-- What a step can do: nothing, a change of one operand register, of the free-value counter and of what the host
has read; or the command at the head of the inbox. -/
theorem step_cases {s t : State} (h : step s = .next t) :
    (∃ w rest, s.inbox = .issue w :: rest ∧ issueWord w { s with inbox := rest } = .next t) ∨
    (∃ a0 a1 a2 a3 va rest obs draws, (va = s.va ∨ ∃ v : Lanes, va = ⟨v, true⟩ ∧
        (v.length = s.cfg.n ∨ v = lanesShown { s with inbox := rest } s.vr)) ∧
      t = { s with a0 := a0, a1 := a1, a2 := a2, a3 := a3, va := va, inbox := rest, obs := obs, draws := draws }) := by
  unfold step at h
  split at h
  · split at h
    · cases h
      exact .inr ⟨s.a0, s.a1, s.a2, s.a3, s.va, s.inbox, s.obs, s.draws, .inl rfl, rfl⟩
    · rename_i reg x rest _
      cases h
      cases reg
      · exact .inr ⟨_, s.a1, s.a2, s.a3, s.va, rest, s.obs, s.draws, .inl rfl, rfl⟩
      · exact .inr ⟨s.a0, _, s.a2, s.a3, s.va, rest, s.obs, s.draws, .inl rfl, rfl⟩
      · exact .inr ⟨s.a0, s.a1, _, s.a3, s.va, rest, s.obs, s.draws, .inl rfl, rfl⟩
      · exact .inr ⟨s.a0, s.a1, s.a2, _, s.va, rest, s.obs, s.draws, .inl rfl, rfl⟩
    · rename_i lanes rest _
      unfold hostWriteVa at h
      split at h
      · rename_i hl
        cases h
        exact .inr ⟨s.a0, s.a1, s.a2, s.a3, _, rest, s.obs, s.draws, .inr ⟨lanes, rfl, .inl hl⟩, rfl⟩
      · cases h
    · rename_i reg src rest _
      cases h
      cases reg
      · exact .inr ⟨_, s.a1, s.a2, s.a3, s.va, rest, s.obs, _, .inl rfl, rfl⟩
      · exact .inr ⟨s.a0, _, s.a2, s.a3, s.va, rest, s.obs, _, .inl rfl, rfl⟩
      · exact .inr ⟨s.a0, s.a1, _, s.a3, s.va, rest, s.obs, _, .inl rfl, rfl⟩
      · exact .inr ⟨s.a0, s.a1, s.a2, _, s.va, rest, s.obs, _, .inl rfl, rfl⟩
    · rename_i rest _
      cases h
      exact .inr ⟨s.a0, s.a1, s.a2, s.a3, _, rest, s.obs, _, .inr ⟨_, rfl, .inr rfl⟩, rfl⟩
    · rename_i w rest hi
      exact .inl ⟨w, rest, hi, h⟩
    · rename_i reg rest _
      cases h
      exact .inr ⟨s.a0, s.a1, s.a2, s.a3, s.va, rest, _, _, .inl rfl, rfl⟩
  · cases h

end Sys2Proof.Machine
end

