-- ==== Sys2Proof/Laws/PerInstr.lean ====
section
/-! SUPPORT. Facts stated per instruction, one lemma for each constructor of Instr. -/

namespace Sys2Proof.Laws.TableRow

/-- The instruction's encoded word matches the row of the opcode map that bears its opcode, so the fields its format
requires to be zero are zero (30_encoding.md R91, R94). -/
def Statement (i : Instr) : Prop :=
  i.wellFormed = true → ∃ row ∈ opcodeRows, opcField row.pattern = opcodeOf i ∧ row.hits (encode i) = true

theorem engNew : Statement (.engNew) := fun h =>
  ⟨⟨"ENG.NEW", 0x01000000, maskZ⟩, by simp [opcodeRows], rfl,
    (hits_maskZ (opc := 0x01) (by decide) _).mpr (⟨opcField_encode _, unitField_encode h, immField_encode h⟩)⟩

theorem firNew (u imm : Nat) : Statement (.firNew u imm) := fun _ =>
  ⟨⟨"FIR.NEW", 0x10000000, maskUI⟩, by simp [opcodeRows], rfl,
    (hits_maskUI (opc := 0x10) (by decide) _).mpr (opcField_encode _)⟩

theorem firProc (u : Nat) : Statement (.firProc u) := fun h =>
  ⟨⟨"FIR.PROC", 0x11000000, maskU⟩, by simp [opcodeRows], rfl,
    (hits_maskU (opc := 0x11) (by decide) _).mpr (⟨opcField_encode _, immField_encode h⟩)⟩

theorem ovsUp (u : Nat) : Statement (.ovsUp u) := fun h =>
  ⟨⟨"OVS.UP", 0x18000000, maskU⟩, by simp [opcodeRows], rfl,
    (hits_maskU (opc := 0x18) (by decide) _).mpr (⟨opcField_encode _, immField_encode h⟩)⟩

theorem ovsDn (u : Nat) : Statement (.ovsDn u) := fun h =>
  ⟨⟨"OVS.DN", 0x19000000, maskU⟩, by simp [opcodeRows], rfl,
    (hits_maskU (opc := 0x19) (by decide) _).mpr (⟨opcField_encode _, immField_encode h⟩)⟩

theorem ovsProc (u imm : Nat) : Statement (.ovsProc u imm) := fun _ =>
  ⟨⟨"OVS.PROC", 0x1A000000, maskUI⟩, by simp [opcodeRows], rfl,
    (hits_maskUI (opc := 0x1A) (by decide) _).mpr (opcField_encode _)⟩

theorem wsRat : Statement (.wsRat) := fun h =>
  ⟨⟨"WS.RAT", 0x20000000, maskZ⟩, by simp [opcodeRows], rfl,
    (hits_maskZ (opc := 0x20) (by decide) _).mpr (⟨opcField_encode _, unitField_encode h, immField_encode h⟩)⟩

theorem wsDiode : Statement (.wsDiode) := fun h =>
  ⟨⟨"WS.DIODE", 0x21000000, maskZ⟩, by simp [opcodeRows], rfl,
    (hits_maskZ (opc := 0x21) (by decide) _).mpr (⟨opcField_encode _, unitField_encode h, immField_encode h⟩)⟩

theorem afsCoef (u : Nat) : Statement (.afsCoef u) := fun h =>
  ⟨⟨"AFS.COEF", 0x28000000, maskU⟩, by simp [opcodeRows], rfl,
    (hits_maskU (opc := 0x28) (by decide) _).mpr (⟨opcField_encode _, immField_encode h⟩)⟩

theorem afsStep (u : Nat) : Statement (.afsStep u) := fun h =>
  ⟨⟨"AFS.STEP", 0x29000000, maskU⟩, by simp [opcodeRows], rfl,
    (hits_maskU (opc := 0x29) (by decide) _).mpr (⟨opcField_encode _, immField_encode h⟩)⟩

theorem afsProc (u : Nat) : Statement (.afsProc u) := fun h =>
  ⟨⟨"AFS.PROC", 0x2A000000, maskU⟩, by simp [opcodeRows], rfl,
    (hits_maskU (opc := 0x2A) (by decide) _).mpr (⟨opcField_encode _, immField_encode h⟩)⟩

theorem opfProc (u : Nat) : Statement (.opfProc u) := fun h =>
  ⟨⟨"OPF.PROC", 0x30000000, maskU⟩, by simp [opcodeRows], rfl,
    (hits_maskU (opc := 0x30) (by decide) _).mpr (⟨opcField_encode _, immField_encode h⟩)⟩

theorem rmpSet (u : Nat) : Statement (.rmpSet u) := fun h =>
  ⟨⟨"RMP.SET", 0x38000000, maskU⟩, by simp [opcodeRows], rfl,
    (hits_maskU (opc := 0x38) (by decide) _).mpr (⟨opcField_encode _, immField_encode h⟩)⟩

theorem rmpStep (u : Nat) : Statement (.rmpStep u) := fun h =>
  ⟨⟨"RMP.STEP", 0x39000000, maskU⟩, by simp [opcodeRows], rfl,
    (hits_maskU (opc := 0x39) (by decide) _).mpr (⟨opcField_encode _, immField_encode h⟩)⟩

theorem rmpProc (u : Nat) : Statement (.rmpProc u) := fun h =>
  ⟨⟨"RMP.PROC", 0x3A000000, maskU⟩, by simp [opcodeRows], rfl,
    (hits_maskU (opc := 0x3A) (by decide) _).mpr (⟨opcField_encode _, immField_encode h⟩)⟩

theorem rmpInit (u : Nat) : Statement (.rmpInit u) := fun h =>
  ⟨⟨"RMP.INIT", 0x3B000000, maskU⟩, by simp [opcodeRows], rfl,
    (hits_maskU (opc := 0x3B) (by decide) _).mpr (⟨opcField_encode _, immField_encode h⟩)⟩

theorem exsProc (u : Nat) : Statement (.exsProc u) := fun h =>
  ⟨⟨"EXS.PROC", 0x3C000000, maskU⟩, by simp [opcodeRows], rfl,
    (hits_maskU (opc := 0x3C) (by decide) _).mpr (⟨opcField_encode _, immField_encode h⟩)⟩

theorem exsInit (u : Nat) : Statement (.exsInit u) := fun h =>
  ⟨⟨"EXS.INIT", 0x3D000000, maskU⟩, by simp [opcodeRows], rfl,
    (hits_maskU (opc := 0x3D) (by decide) _).mpr (⟨opcField_encode _, immField_encode h⟩)⟩

theorem dlyWr (u : Nat) : Statement (.dlyWr u) := fun h =>
  ⟨⟨"DLY.WR", 0x40000000, maskU⟩, by simp [opcodeRows], rfl,
    (hits_maskU (opc := 0x40) (by decide) _).mpr (⟨opcField_encode _, immField_encode h⟩)⟩

theorem dlyRd (u imm : Nat) : Statement (.dlyRd u imm) := fun _ =>
  ⟨⟨"DLY.RD", 0x41000000, maskUI⟩, by simp [opcodeRows], rfl,
    (hits_maskUI (opc := 0x41) (by decide) _).mpr (opcField_encode _)⟩

theorem rptProc (u imm : Nat) : Statement (.rptProc u imm) := fun _ =>
  ⟨⟨"RPT.PROC", 0x48000000, maskUI⟩, by simp [opcodeRows], rfl,
    (hits_maskUI (opc := 0x48) (by decide) _).mpr (opcField_encode _)⟩

theorem rptInit (u imm : Nat) : Statement (.rptInit u imm) := fun _ =>
  ⟨⟨"RPT.INIT", 0x49000000, maskUI⟩, by simp [opcodeRows], rfl,
    (hits_maskUI (opc := 0x49) (by decide) _).mpr (opcField_encode _)⟩

end Sys2Proof.Laws.TableRow
end

