-- ==== Sys2Proof/Laws/Sequence.lean ====
section
/-! SUPPORT. No command reads pc (10_state.md R23), so a sequence of commands and the fused command differ in pc only
(41_oversampler.md R133; 43_analog_filter.md R157; 45_smoothers.md R183). -/

namespace Sys2Proof.Machine

/-- The state with pc elsewhere. -/
def State.atPc (s : State) (p : Nat) : State := { s with pc := p }

/-- The outcome with pc elsewhere. -/
def Result.atPc (a : Result) (p : Nat) : Result := a.andThen fun t => .next (t.atPc p)

theorem Result.andThen_atPc {a a' : Result} {k k' : State → Result} {p : Nat} (ha : a' = a.atPc p)
    (hk : ∀ t, k' (t.atPc p) = (k t).atPc p) : a'.andThen k' = (a.andThen k).atPc p := by
  rw [ha]
  cases a with
  | next t => exact hk t
  | fault e => rfl
  | refused e => rfl

theorem withOperand_atPc {reg : PortReg} {q : Port} {k k' : F32 → Result} {p : Nat} (h : ∀ x, k' x = (k x).atPc p) :
    withOperand reg q k' = (withOperand reg q k).atPc p := by
  unfold withOperand
  split
  · exact h _
  · rfl

theorem withLanes_atPc {reg : PortReg} {q : VecPort} {k k' : Lanes → Result} {p : Nat} (h : ∀ x, k' x = (k x).atPc p) :
    withLanes reg q k' = (withLanes reg q k).atPc p := by
  unfold withLanes
  split
  · exact h _
  · rfl

theorem withUnit_atPc {α : Type} {file : List α} {u : Nat} {k k' : α → Result} {p : Nat}
    (h : ∀ x, k' x = (k x).atPc p) : withUnit file u k' = (withUnit file u k).atPc p := by
  unfold withUnit
  split
  · exact h _
  · rfl

theorem withFirStep_atPc {u : Nat} {v : Lanes} (s : State) (p : Nat) {k k' : State → Lanes → Result}
    (hk : ∀ t out, k' (t.atPc p) out = (k t out).atPc p) :
    withFirStep u v (s.atPc p) k' = (withFirStep u v s k).atPc p := by
  refine withUnit_atPc fun f => ?_
  show (match firStep s.cfg s.draw f v with | some (g, out) => k' ((s.setFir u g).atPc p) out | none => _) = _
  cases hs : firStep s.cfg s.draw f v with
  | none => rfl
  | some q => exact hk _ _

theorem ovsUpBody_atPc (o : Nat) (s : State) (p : Nat) : ovsUpBody o (s.atPc p) = (ovsUpBody o s).atPc p :=
  withOperand_atPc fun _ => withFirStep_atPc s p fun _ _ => rfl

theorem ovsDnBody_atPc (o : Nat) (s : State) (p : Nat) : ovsDnBody o (s.atPc p) = (ovsDnBody o s).atPc p :=
  withLanes_atPc fun _ => withFirStep_atPc s p fun _ _ => rfl

theorem wsRatBody_atPc (s : State) (p : Nat) : wsRatBody (s.atPc p) = (wsRatBody s).atPc p :=
  withLanes_atPc fun _ => rfl

theorem wsDiodeBody_atPc (s : State) (p : Nat) : wsDiodeBody (s.atPc p) = (wsDiodeBody s).atPc p :=
  withLanes_atPc fun _ => rfl

theorem afsCoefBody_atPc (u : Nat) (s : State) (p : Nat) : afsCoefBody u (s.atPc p) = (afsCoefBody u s).atPc p :=
  withOperand_atPc fun _ => withUnit_atPc fun _ => rfl

theorem afsStepBody_atPc (u : Nat) (s : State) (p : Nat) : afsStepBody u (s.atPc p) = (afsStepBody u s).atPc p :=
  withOperand_atPc fun _ => withUnit_atPc fun _ => rfl

theorem afsGainBody_atPc (u : Nat) (s : State) (p : Nat) : afsGainBody u (s.atPc p) = (afsGainBody u s).atPc p :=
  withUnit_atPc fun _ => rfl

theorem rmpSetBody_atPc (u : Nat) (s : State) (p : Nat) : rmpSetBody u (s.atPc p) = (rmpSetBody u s).atPc p :=
  withOperand_atPc fun _ => withUnit_atPc fun _ => rfl

theorem rmpStepBody_atPc (u : Nat) (s : State) (p : Nat) : rmpStepBody u (s.atPc p) = (rmpStepBody u s).atPc p :=
  withUnit_atPc fun _ => rfl

theorem engNewBody_atPc (s : State) (p : Nat) : engNewBody (s.atPc p) = (engNewBody s).atPc p := by
  refine withOperand_atPc fun fs => ?_
  show (match engineCheck s.cfg s.draw fs with | some e => _ | none => _) = _
  cases h : engineCheck s.cfg s.draw fs <;> rfl

theorem ovsProcBody_atPc (o fn : Nat) (s : State) (p : Nat) :
    ovsProcBody o fn (s.atPc p) = (ovsProcBody o fn s).atPc p := by
  refine Result.andThen_atPc (ovsUpBody_atPc o s p) fun t => Result.andThen_atPc ?_ fun t => ?_
  · split
    · exact wsRatBody_atPc (vaFromVr t) p
    · exact wsDiodeBody_atPc (vaFromVr t) p
  · exact ovsDnBody_atPc o (vaFromVr t) p

theorem dlyWrBody_atPc (u : Nat) (s : State) (p : Nat) : dlyWrBody u (s.atPc p) = (dlyWrBody u s).atPc p := by
  refine withOperand_atPc fun x => withUnit_atPc fun f => ?_
  show (if delayInSpace s.cfg f then _ else _) = _
  split <;> rfl

theorem dlyRdBody_atPc (u mode : Nat) (s : State) (p : Nat) :
    dlyRdBody u mode (s.atPc p) = (dlyRdBody u mode s).atPc p := by
  refine withOperand_atPc fun x => withUnit_atPc fun f => ?_
  show (if delayInSpace s.cfg f then _ else _) = _
  split
  · show (match delayRead s.draw f x with | some v => _ | none => _) = _
    cases h : delayRead s.draw f x <;> rfl
  · rfl

theorem rptProcBody_atPc (u count : Nat) (s : State) (p : Nat) :
    rptProcBody u count (s.atPc p) = (rptProcBody u count s).atPc p := by
  refine withOperand_atPc fun x => withOperand_atPc fun time => withOperand_atPc fun fb => withOperand_atPc fun skew =>
    withUnit_atPc fun e => withUnit_atPc fun f => ?_
  show (if delayInSpace s.cfg f then _ else _) = _
  split
  · dsimp only
    show (match rptEvaluate s.cfg s.draw (rptDetect s.cfg s.draw e ⟨count, time, fb, skew⟩) x (delayWrite f x) with
      | some (e', out) => _ | none => _) = _
    cases h : rptEvaluate s.cfg s.draw (rptDetect s.cfg s.draw e ⟨count, time, fb, skew⟩) x (delayWrite f x) <;> rfl
  · rfl

theorem opfProcBody_atPc (u : Nat) (s : State) (p : Nat) : opfProcBody u (s.atPc p) = (opfProcBody u s).atPc p :=
  withOperand_atPc fun _ => withOperand_atPc fun _ => withUnit_atPc fun _ => rfl

theorem rmpInitBody_atPc (u : Nat) (s : State) (p : Nat) : rmpInitBody u (s.atPc p) = (rmpInitBody u s).atPc p :=
  withOperand_atPc fun _ => withUnit_atPc fun _ => rfl

theorem exsProcBody_atPc (u : Nat) (s : State) (p : Nat) : exsProcBody u (s.atPc p) = (exsProcBody u s).atPc p :=
  withOperand_atPc fun _ => withUnit_atPc fun _ => rfl

theorem exsInitBody_atPc (u : Nat) (s : State) (p : Nat) : exsInitBody u (s.atPc p) = (exsInitBody u s).atPc p :=
  withOperand_atPc fun _ => withUnit_atPc fun _ => rfl

theorem rptInitBody_atPc (u count : Nat) (s : State) (p : Nat) :
    rptInitBody u count (s.atPc p) = (rptInitBody u count s).atPc p :=
  withOperand_atPc fun _ => withOperand_atPc fun _ => withOperand_atPc fun _ => withUnit_atPc fun _ => rfl

/-- No body reads pc. -/
theorem commandBody_atPc (i : Instr) (s : State) (p : Nat) :
    commandBody i (s.atPc p) = (commandBody i s).atPc p := by
  cases i with
  | engNew => exact engNewBody_atPc s p
  | firNew u len => exact withUnit_atPc fun _ => rfl
  | firProc u => exact withLanes_atPc fun _ => withFirStep_atPc s p fun _ _ => rfl
  | ovsUp o => exact ovsUpBody_atPc o s p
  | ovsDn o => exact ovsDnBody_atPc o s p
  | ovsProc o fn => exact ovsProcBody_atPc o fn s p
  | wsRat => exact wsRatBody_atPc s p
  | wsDiode => exact wsDiodeBody_atPc s p
  | afsCoef u => exact afsCoefBody_atPc u s p
  | afsStep u => exact afsStepBody_atPc u s p
  | afsProc u =>
    exact Result.andThen_atPc (Result.andThen_atPc (afsCoefBody_atPc u s p) fun t => afsStepBody_atPc u t p)
      fun t => afsGainBody_atPc u t p
  | opfProc u => exact opfProcBody_atPc u s p
  | rmpSet u => exact rmpSetBody_atPc u s p
  | rmpStep u => exact rmpStepBody_atPc u s p
  | rmpProc u => exact Result.andThen_atPc (rmpSetBody_atPc u s p) fun t => rmpStepBody_atPc u t p
  | rmpInit u => exact rmpInitBody_atPc u s p
  | exsProc u => exact exsProcBody_atPc u s p
  | exsInit u => exact exsInitBody_atPc u s p
  | dlyWr u => exact dlyWrBody_atPc u s p
  | dlyRd u mode => exact dlyRdBody_atPc u mode s p
  | rptProc u count => exact rptProcBody_atPc u count s p
  | rptInit u count => exact rptInitBody_atPc u count s p

/-- No command reads pc: from another pc it does the same, and pc ends one further on. -/
theorem gate_atPc {w : Word} {s t : State} {k : State → Result} (hk : ∀ p, k (s.atPc p) = (k s).atPc p)
    (h : gate w s k = .next t) (n : Nat) : gate w (s.atPc n) k = .next (t.atPc (n + 1)) := by
  have key : ∀ (a a' : Result), a' = a.atPc n → a.andThen (fun t => .next t.tick) = .next t →
      a'.andThen (fun t => .next t.tick) = .next (t.atPc (n + 1)) := by
    intro a a' ha h
    subst ha
    cases a with
    | next m => cases h; rfl
    | fault e => cases h
    | refused e => cases h
  refine key _ _ ?_ h
  show (if opcField w ≠ 0x01 ∧ s.isFaulted then _ else if opcField w ≠ 0x01 ∧ s.isConfigured = false then _ else _) = _
  split
  · rfl
  · split
    · rfl
    · exact hk n

theorem issueWord_atPc {w : Word} {s t : State} (h : issueWord w s = .next t) (n : Nat) :
    issueWord w (s.atPc n) = .next (t.atPc (n + 1)) := by
  unfold issueWord at h ⊢
  cases hd : decode w with
  | ok i =>
    simp only [hd] at h
    show exec i (s.atPc n) = _
    rw [exec_eq_command] at h ⊢
    refine gate_atPc (fun p => ?_) h n
    show (match fieldCheck s.cfg i with | some e => _ | none => _) = _
    cases hf : fieldCheck s.cfg i with
    | some e => rfl
    | none => exact commandBody_atPc i s p
  | error e =>
    simp only [hd] at h
    exact gate_atPc (fun p => rfl) h n

/-! Sums as the claims write them: folds over a range in ascending order (00_scope.md R14) -/

theorem firDot_eq_foldl (d : Draw) (n : Nat) (f : Fir) (start j k : Nat) :
    firDot d n f start j k = (List.range k).foldl
      (fun acc k => fadd (k :: j :: d) acc
        (fmul (k :: j :: d) (f.c.readLane n k j) (f.buf.readLane n ((start + k) &&& (f.len - 1)) j))) 0 := by
  induction k with
  | zero => rfl
  | succ k ih =>
    rw [List.range_succ, List.foldl_append, ← ih]
    rfl

end Sys2Proof.Machine
end

