-- ==== Sys2Proof/Machine/Pipelines.lean ====
section
/-! DEFINITION. The pseudo-instructions (30_encoding.md R98): sequences of host actions without an opcode of their
own. The wiring of units is a parameter of each (48_engine.md R246 to R248). -/

namespace Sys2Proof.Machine

/-- A value the host writes: a literal or a copy (30_encoding.md R97). -/
inductive HostValue where
  | lit (x : F32)
  | port (src : ScalarReg)
  deriving DecidableEq, Repr

/-- `reg = value` (30_encoding.md R97). -/
def setOperand (reg : OperandReg) : HostValue → HostAction
  | .lit x => .write reg x
  | .port src => .copy reg src

/-- Issue a command. -/
def issueOf (i : Instr) : HostAction := .issue (encode i)

/-- `INIT.PARAMS` (48_engine.md R246): the ramp smoothers, the exponential smoothers and the repeat engines the host
uses, each with its initial value. -/
def initParams (ramps exps : List (Nat × F32)) (repeats : List (Nat × TapSet)) : List HostAction :=
  ramps.flatMap (fun (u, x) => [.write .a0 x, issueOf (.rmpInit u)]) ++
  exps.flatMap (fun (u, x) => [.write .a0 x, issueOf (.exsInit u)]) ++
  repeats.flatMap fun (u, q) =>
    [.write .a1 q.time, .write .a2 q.fb, .write .a3 q.skew, issueOf (.rptInit u q.count)]

/-- The smoother of a control in the distortion flow: a ramp smoother, or the exponential smoother that "may stand in
place of either `RMP.PROC`" (48_engine.md R247). -/
inductive ControlSmoother where
  | ramp (u : Nat)
  | exponential (u : Nat)
  deriving DecidableEq, Repr

/-- The command that runs a smoother for one sample (48_engine.md R247). -/
def smootherCommand : ControlSmoother → Instr
  | .ramp u => .rmpProc u
  | .exponential u => .exsProc u

/-- `DIST.SAMPLE` (48_engine.md R247): one sample `x` of the distortion flow with controls `dist` and `tone`, smoothed
by `rd` and `rt`. -/
def distSample (rd rt : ControlSmoother) (ad at' o fn : Nat) (x dist tone : HostValue) : List HostAction :=
  [setOperand .a0 dist, issueOf (smootherCommand rd),
   .copy .a1 .r, setOperand .a0 x, issueOf (.afsProc ad),
   .copy .a0 .r, issueOf (.ovsProc o fn),
   .copy .a2 .r,
   setOperand .a0 tone, issueOf (smootherCommand rt),
   .copy .a1 .r, .copy .a0 .a2, issueOf (.afsProc at')]

/-- `RPT.SAMPLE` (48_engine.md R248): one sample `x` of the repeat flow with the tap set `q`. -/
def rptSample (u : Nat) (x : HostValue) (q : TapSet) : List HostAction :=
  [setOperand .a0 x, .write .a1 q.time, .write .a2 q.fb, .write .a3 q.skew, issueOf (.rptProc u q.count)]

end Sys2Proof.Machine
end

