-- ==== Sys2Proof/Tests/Slice0.lean ====
section
/-! SUPPORT. The model's own tests: the smoke test of WellFormed, a word of 95_test_vectors.md for every constructor,
one or two single steps for every command with the expected values of that file, and for every obligation with
hypotheses a concrete state that meets them (`witness_<Obligation>`). -/

-- One theorem after another: elaborated at once, the evaluations below would each hold a thread.
set_option Elab.async false

open Sys2Proof Sys2Proof.Machine Sys2Proof.Claims

namespace Sys2Proof.Tests

/-! ## Helpers -/

/-- The outcome is a next state of which `p` holds. -/
def nextIs (o : Host.Outcome State Fault Refusal) (p : State → Bool) : Bool :=
  match o with
  | .next t => p t
  | _ => false

theorem exists_of_nextIs {o : Host.Outcome State Fault Refusal} {p : State → Bool} (h : nextIs o p = true) :
    ∃ t, o = .next t ∧ p t = true := by
  cases o with
  | next t => exact ⟨t, rfl, h⟩
  | fault _ => cases h
  | refused _ => cases h

/-- The core fresh after `ENG.NEW ; A0 = 1000.0` under TESTCFG, with operands written: `A0 = 0.5`, `A1 = 2.0`,
`A2 = 0.5`, `A3 = 0.0`, `VA = [1.0, 1.0]`. -/
def ready : State :=
  construct 0x447A0000
    { State.reset with
      a0 := ⟨0x3F000000, true⟩
      a1 := ⟨0x40000000, true⟩
      a2 := ⟨0x3F000000, true⟩
      a3 := ⟨0, true⟩
      va := ⟨[0x3F800000, 0x3F800000], true⟩ }

/-- `ready` with another `A0`. -/
def readyA0 (x : F32) : State := { ready with a0 := ⟨x, true⟩ }

/-- `ready` with another `VA`. -/
def readyVa (v : Lanes) : State := { ready with va := ⟨v, true⟩ }

/-- POWER-ON with `A0` written. -/
def coldA0 (x : F32) : State := { State.reset with a0 := ⟨x, true⟩ }

/-- A core that faulted: `E_DLYRANGE` by `DLY.RD 0, LINEAR` (V-FLT-1). -/
def faulted : State := { ready with st := 0x32, fcmd := 0x41000000 }

/-- The host's script before the core. -/
def withInbox (s : State) (acts : List HostAction) : State := { s with inbox := acts }

/-! ## WellFormed: an ill-formed term for each check -/

theorem test_unit_too_large : (Instr.firProc 256).unitFits = false ∧ (Instr.firProc 256).wellFormed = false := by decide
theorem test_immediate_too_large :
    (Instr.rptInit 0 65536).immFits = false ∧ (Instr.rptInit 0 65536).wellFormed = false := by decide
theorem test_largest_fields_fit : (Instr.rptInit 255 65535).wellFormed = true := by decide

/-! ## Decoding: V-ENC-1, one word for every constructor -/

theorem test_decode_engNew : decode 0x01000000 = .ok .engNew := rfl
theorem test_decode_firNew : decode 0x10010002 = .ok (.firNew 1 2) := rfl
theorem test_decode_firProc : decode 0x11010000 = .ok (.firProc 1) := rfl
theorem test_decode_ovsUp : decode 0x18000000 = .ok (.ovsUp 0) := rfl
theorem test_decode_ovsDn : decode 0x19000000 = .ok (.ovsDn 0) := rfl
theorem test_decode_ovsProc : decode 0x1A000001 = .ok (.ovsProc 0 1) := rfl
theorem test_decode_wsRat : decode 0x20000000 = .ok .wsRat := rfl
theorem test_decode_wsDiode : decode 0x21000000 = .ok .wsDiode := rfl
theorem test_decode_afsCoef : decode 0x28010000 = .ok (.afsCoef 1) := rfl
theorem test_decode_afsStep : decode 0x29010000 = .ok (.afsStep 1) := rfl
theorem test_decode_afsProc : decode 0x2A010000 = .ok (.afsProc 1) := rfl
theorem test_decode_opfProc : decode 0x30010000 = .ok (.opfProc 1) := rfl
theorem test_decode_rmpSet : decode 0x38030000 = .ok (.rmpSet 3) := rfl
theorem test_decode_rmpStep : decode 0x39030000 = .ok (.rmpStep 3) := rfl
theorem test_decode_rmpProc : decode 0x3A020000 = .ok (.rmpProc 2) := rfl
theorem test_decode_rmpInit : decode 0x3B010000 = .ok (.rmpInit 1) := rfl
theorem test_decode_exsProc : decode 0x3C010000 = .ok (.exsProc 1) := rfl
theorem test_decode_exsInit : decode 0x3D010000 = .ok (.exsInit 1) := rfl
theorem test_decode_dlyWr : decode 0x40000000 = .ok (.dlyWr 0) := rfl
theorem test_decode_dlyRd : decode 0x41000000 = .ok (.dlyRd 0 0) := rfl
theorem test_decode_rptProc : decode 0x48000004 = .ok (.rptProc 0 4) := rfl
theorem test_decode_rptInit : decode 0x49000008 = .ok (.rptInit 0 8) := rfl
theorem test_decode_reserved :
    decode 0x00000000 = .error .reservedOpcode ∧ decode 0x12000000 = .error .reservedOpcode ∧
    decode 0x4A000000 = .error .reservedOpcode := ⟨rfl, rfl, rfl⟩
theorem test_decode_must_be_zero :
    decode 0x01000001 = .error .mustBeZero ∧ decode 0x20010000 = .error .mustBeZero ∧
    decode 0x11000001 = .error .mustBeZero := ⟨rfl, rfl, rfl⟩
theorem test_encode_words :
    encode (.firNew 1 2) = 0x10010002 ∧ encode (.ovsProc 0 1) = 0x1A000001 ∧ encode (.rptInit 0 8) = 0x49000008 := by
  decide +kernel
theorem test_table_word : decodeTableWord 32 0x3A020000 = some (.rmpProc 2) ∧ decodeTableWord 32 0x3A020001 = none := by
  decide +kernel
theorem test_fetch_word :
    nextIs (step (State.reset.withFetchWord 32 0x39000000)) (fun t => t.st == 0x52 && t.fcmd == 0x39000000 && t.pc == 1)
      = true := by decide +kernel

/-! ## One step of every command -/

/-- V-ENG-1. -/
theorem test_engNew_constants :
    nextIs (exec .engNew (coldA0 0x447A0000)) (fun t =>
      t.k1 == 0x3A03126F && t.w == 0xBBCDE32E && t.dly == [⟨16, 0, 0x3F800000, []⟩] && t.st == 1) = true := by
  decide +kernel
/-- V-ENG-2: fs = 100.0 gives a capacity of 1. -/
theorem test_engNew_cap_fault :
    nextIs (exec .engNew (coldA0 0x42C80000)) (fun t => t.st == 0x62 && t.fcmd == 0x01000000) = true := by
  decide +kernel
/-- 40_fir.md R121: length 2. -/
theorem test_firNew :
    nextIs (exec (.firNew 1 2) ready) (fun t =>
      (t.fir[1]?).map (fun f => (f.len, f.idx, f.buf, f.c.readLane 2 3 0)) == some (2, 0, [], 0x3F000000)) = true := by
  decide +kernel
/-- S6, call 0. -/
theorem test_firProc :
    nextIs (exec (.firProc 0) ready) (fun t =>
      t.vr == ⟨[0x3EE00000, 0x3F000000], true⟩ && (t.fir[0]?).map Fir.idx == some 1) = true := by decide +kernel
/-- P2, pc 1. -/
theorem test_ovsUp :
    nextIs (exec (.ovsUp 0) (readyA0 0x3F000000)) (fun t => t.vr == ⟨[0x3EE00000, 0x3F000000], true⟩) = true := by
  decide +kernel
/-- P2, pc 2. -/
theorem test_ovsDn :
    nextIs (exec (.ovsDn 0) (readyVa [0x3EE00000, 0x3F000000])) (fun t =>
      t.r == ⟨0x3E100000, true⟩ && t.vr == ⟨[0x3E600000, 0x3D800000], true⟩) = true := by decide +kernel
/-- By hand from R133 and S5: `0.5` gives `[0.4375, 0.5]`; the diode table gives it back; then as P2, pc 2. -/
theorem test_ovsProc_diode :
    nextIs (exec (.ovsProc 0 1) (readyA0 0x3F000000)) (fun t =>
      t.va == ⟨[0x3EE00000, 0x3F000000], true⟩ && t.r == ⟨0x3E100000, true⟩) = true := by decide +kernel
/-- S5, x = 1.0. -/
theorem test_wsRat :
    nextIs (exec .wsRat (readyVa [0x3F800000, 0xBF800000])) (fun t =>
      t.vr == ⟨[0x3F4F0954, 0xBF4F0954], true⟩) = true := by decide +kernel
/-- S5, x = 0.25 and x = -2.0. -/
theorem test_wsDiode :
    nextIs (exec .wsDiode (readyVa [0x3E800000, 0xC0000000])) (fun t =>
      t.vr == ⟨[0x3E800000, 0xBF400000], true⟩) = true := by decide +kernel
/-- 43_analog_filter.md R154: the stage's registers and its one-pole stay; the coefficients themselves are free
here (CFG.AFS_S is opaque). -/
theorem test_afsCoef_keeps_registers :
    nextIs (exec (.afsCoef 1) ready) (fun t =>
      (t.afs[1]?).map (fun f => (f.z0, f.z1, f.z2, f.gc)) == some (0, 0, 0, OnePole.zero)) = true := by decide +kernel
/-- By hand from R155: b0 = 0.5, b1 = 2.0, a1 = 1.0, x = 1.0 gives y = 0.5, z0 = 2.0 - 0.5. -/
theorem test_afsStep :
    nextIs (exec (.afsStep 0) { readyA0 0x3F800000 with
        afs := [⟨0, 0, 0, 0x3F000000, 0x40000000, 0, 0, 0x3F800000, 0, 0, 0, OnePole.zero⟩] }) (fun t =>
      t.r == ⟨0x3F000000, true⟩ && (t.afs[0]?).map Afs.z0 == some 0x3FC00000) = true := by decide +kernel
/-- 43_analog_filter.md R157: both operands stay, the other unit stays. -/
theorem test_afsProc_frame :
    nextIs (exec (.afsProc 0) ready) (fun t =>
      t.a0 == ready.a0 && t.a1 == ready.a1 && t.afs[1]? == ready.afs[1]? && t.r.written) = true := by decide +kernel
/-- By hand from R171 with a cached pole b1 = 0.5: z = 1.0 * (1 - 0.5) + 0.5 * 0.5. -/
theorem test_opfProc_cached :
    nextIs (exec (.opfProc 0) { readyA0 0x3F800000 with opf := [⟨0x3F000000, 0x3F000000, 0x40000000, true⟩] }) (fun t =>
      t.r == ⟨0x3F400000, true⟩) = true := by decide +kernel
/-- S1: RMP.SET to 1.0. -/
theorem test_rmpSet :
    nextIs (exec (.rmpSet 3) (readyA0 0x3F800000)) (fun t =>
      t.rmp[3]? == some ⟨0, 0x3F800000, 0x3E000000, 8⟩ && t.r == ready.r) = true := by decide +kernel
/-- S1, call 8: the last step lands on the target. -/
theorem test_rmpStep_last :
    nextIs (exec (.rmpStep 0) { ready with rmp := [⟨0x3F600000, 0x3F800000, 0x3E000000, 1⟩] }) (fun t =>
      t.rmp == [⟨0x3F800000, 0x3F800000, 0x3E000000, 0⟩] && t.r == ⟨0x3F800000, true⟩) = true := by decide +kernel
/-- S1, call 9: holds. -/
theorem test_rmpStep_holds :
    nextIs (exec (.rmpStep 0) { ready with rmp := [⟨0x3F800000, 0x3F800000, 0x3E000000, 0⟩] }) (fun t =>
      t.rmp == [⟨0x3F800000, 0x3F800000, 0x3E000000, 0⟩] && t.r == ⟨0x3F800000, true⟩) = true := by decide +kernel
/-- S1, call 10: the target moves back. -/
theorem test_rmpProc_reverses :
    nextIs (exec (.rmpProc 0) { readyA0 0 with rmp := [⟨0x3F800000, 0x3F800000, 0x3E000000, 0⟩] }) (fun t =>
      t.rmp == [⟨0x3F600000, 0, 0xBE000000, 7⟩] && t.r == ⟨0x3F600000, true⟩) = true := by decide +kernel
/-- P1, pc 1. -/
theorem test_rmpInit :
    nextIs (exec (.rmpInit 3) (readyA0 0x3E800000)) (fun t =>
      t.rmp[3]? == some ⟨0x3E800000, 0x3E800000, 0, 0⟩ && t.r == ready.r) = true := by decide +kernel
/-- 45_smoothers.md R186 and NUM-P1: `EXS_FC[0] = 0.0` gives the pole `fexp(-0.0) = 1`, so the value is held. -/
theorem test_exsProc_holds :
    nextIs (exec (.exsProc 0) { readyA0 0x3F800000 with exs := [⟨⟨0x3E800000, 0, 0, false⟩⟩] }) (fun t =>
      t.r == ⟨0x3E800000, true⟩ && t.exs == [⟨⟨0x3E800000, 0x3F800000, 0, true⟩⟩]) = true := by decide +kernel
/-- 45_smoothers.md R187. -/
theorem test_exsInit :
    nextIs (exec (.exsInit 1) (readyA0 0x3E800000)) (fun t =>
      t.exs[1]? == some ⟨⟨0x3E800000, 0, 0, false⟩⟩) = true := by decide +kernel
/-- 46_delay.md R201: the cursor wraps at the capacity. -/
theorem test_dlyWr_wraps :
    nextIs (exec (.dlyWr 0) { readyA0 0x3F000000 with dly := [⟨16, 15, 0x3F800000, []⟩] }) (fun t =>
      t.dly == [⟨16, 0, 0x3F800000, [(15, 0x3F000000)]⟩]) = true := by decide +kernel
/-- By hand from R202: newest 0.25, before it 0.5; half way between is 0.375. -/
theorem test_dlyRd_blends :
    nextIs (exec (.dlyRd 0 0) { readyA0 0x3F000000 with
        dly := [⟨16, 2, 0x3F800000, [(0, 0x3F000000), (1, 0x3E800000)]⟩] }) (fun t =>
      t.r == ⟨0x3EC00000, true⟩) = true := by decide +kernel
/-- P5, pc 3. -/
theorem test_dlyRd_out_of_range :
    nextIs (exec (.dlyRd 0 0) (readyA0 0x41700000)) (fun t => t.st == 0x32 && t.fcmd == 0x41000000) = true := by
  decide +kernel
/-- P3, pc 4: set A, the third sample. -/
theorem test_rptProc_steady :
    nextIs (exec (.rptProc 0 2) { readyA0 0x3F800000 with
        dly := [⟨16, 2, 0x3F800000, [(0, 0x3E800000), (1, 0x3F000000)]⟩]
        rpt := [⟨⟨2, 0x40000000, 0x3F000000, 0⟩, ⟨2, 0x40000000, 0x3F000000, 0⟩, ⟨0, 0, 0⟩⟩] }) (fun t =>
      t.r == ⟨0x3F900000, true⟩ && (t.dly[0]?).map Delay.w == some 3) = true := by decide +kernel
/-- P3, pc 7: a new set starts a fade of four samples, this sample the first. -/
theorem test_rptProc_starts_fade :
    nextIs (exec (.rptProc 0 2) { readyA0 0x3F800000 with
        a1 := ⟨0x3F800000, true⟩, a2 := ⟨0x3E800000, true⟩
        rpt := [⟨⟨2, 0x40000000, 0x3F000000, 0⟩, ⟨2, 0x40000000, 0x3F000000, 0⟩, ⟨0, 0, 0⟩⟩] }) (fun t =>
      t.rpt == [⟨⟨2, 0x3F800000, 0x3E800000, 0⟩, ⟨2, 0x40000000, 0x3F000000, 0⟩, ⟨0x3E800000, 0x3E800000, 3⟩⟩]) = true := by
  decide +kernel
/-- P3, pc 1. -/
theorem test_rptInit :
    nextIs (exec (.rptInit 0 2) ready) (fun t =>
      t.rpt == [⟨⟨2, 0x40000000, 0x3F000000, 0⟩, ⟨2, 0x40000000, 0x3F000000, 0⟩, ⟨0, 0, 0⟩⟩]) = true := by decide +kernel

/-! ## Functions with worked values: S3, S4, the gate, the fields, the host -/

/-- S3, the first two rows. -/
theorem test_tap_gains :
    (List.range 4).map (fun i => tapGain Config.test [] i 0x40000000 4) = [0x3F800000, 0x40000000, 0x40800000, 0x41000000] ∧
    (List.range 4).map (fun i => tapGain Config.test [] i 0xC0000000 4) = [0x41000000, 0x40800000, 0x40000000, 0x3F800000] := by
  decide +kernel
/-- S4: 200, 300 and 175. -/
theorem test_tap_times :
    tapTime [] 2 0x42C80000 0 = 0x43480000 ∧ tapTime [] 2 0x42C80000 0x3F800000 = 0x43960000 ∧
    tapTime [] 3 0x42C80000 0xBF800000 = 0x432F0000 := by decide +kernel
/-- V-FLT-1, steps 8 and 9. -/
theorem test_faulted_refuses :
    nextIs (issueWord 0x40000000 faulted) (fun t => t == { faulted with pc := 1 }) = true ∧
    nextIs (issueWord 0x00000000 faulted) (fun t => t == { faulted with pc := 1 }) = true := by decide +kernel
/-- V-FLT-2. -/
theorem test_noCfg_beats_illegal : nextIs (issueWord 0 State.reset) (fun t => t.st == 0x52 && t.fcmd == 0) = true := by
  decide +kernel
/-- V-ENC-2: a length that is no power of two, and one above L_MAX. -/
theorem test_length_faults :
    nextIs (issueWord 0x10000003 ready) (fun t => t.st == 0x22 && t.fcmd == 0x10000003) = true ∧
    nextIs (issueWord 0x10000008 ready) (fun t => t.st == 0x42 && t.fcmd == 0x10000008) = true := by decide +kernel
/-- 93 U11 and log 11: lengths that are no power of two are left to `ENG.NEW`; a power of two above `L_MAX` is illegal. -/
theorem test_legal_lengths :
    ([0, 3, 6, 4].all fun l => legalConfig { Config.test with l := l }) = true ∧
    legalConfig { Config.test with l := 8 } = false := by decide +kernel
theorem test_unwritten_operand :
    exec .engNew State.reset = .refused (.unwrittenOperand .a0) := by rfl
theorem test_host_copies :
    nextIs (step (withInbox { ready with r := ⟨0x3E800000, true⟩ } [.copy .a1 .r])) (fun t =>
      t.a1 == ⟨0x3E800000, true⟩ && t.pc == 0) = true := by decide +kernel
/-- 48_engine.md R247: the five commands of one distortion sample, the tone control through an exponential smoother. -/
theorem test_dist_sample_commands :
    ((distSample (.ramp 0) (.exponential 1) 0 1 0 0 (.lit 0x3E800000) (.lit 0x3F000000) (.lit 0x3E800000)).filterMap
      fun a =>
        match a with
        | .issue w => some w
        | _ => none) = [0x3A000000, 0x2A000000, 0x1A000000, 0x3C010000, 0x2A010000] := by decide +kernel

/-! ## Witnesses: encoding -/

theorem witness_DecodeOfEncode : (Instr.rptProc 255 65535).wellFormed = true ∧ Instr.engNew.wellFormed = true := by decide
theorem witness_EncodeOfDecode : decode 0x49FFFFFF = .ok (.rptInit 255 65535) := rfl
theorem witness_DecodeIsTheMap :
    ∃ row ∈ opcodeRows, row.hits 0x3AFF0000 = true ∧ ∃ row' ∈ opcodeRows, row'.hits 0x3AFF0000 = true := by decide +kernel
theorem witness_StepRunsDecodedCommand :
    legalConfig ready.cfg = true ∧ (withInbox ready [.issue 0x3A000000]).inbox = .issue 0x3A000000 :: [] ∧
    decode 0x3A000000 = .ok (.rmpProc 0) := ⟨by decide +kernel, rfl, rfl⟩
theorem witness_GateRule :
    (opcField 0x39000000 ≠ 0x01 ∧ faulted.isFaulted = true) ∧
    (opcField 0x00000000 ≠ 0x01 ∧ State.reset.isFaulted = false ∧ State.reset.isConfigured = false) ∧
    (opcField 0x39000000 ≠ 0x01 ∧ ready.isReady = true ∧ decode 0x39000000 = .ok (.rmpStep 0) ∧
      decode 0x02000000 = .error .reservedOpcode) ∧
    (opcField 0x01000001 = 0x01 ∧ (0x01000001 : Word) ≠ 0x01000000) :=
  ⟨by decide +kernel, by decide +kernel, ⟨by decide +kernel, by decide +kernel, rfl, rfl⟩, by decide +kernel⟩

theorem three_is_no_power : ¬ ∃ e, 3 = 2 ^ e := by
  rintro ⟨_ | e, h⟩
  · simp at h
  · rw [Nat.pow_succ] at h
    omega

theorem zero_is_no_power : ¬ ∃ e, 0 = 2 ^ e := by
  rintro ⟨e, h⟩
  exact absurd h.symm (Nat.pos_iff_ne_zero.mp (Nat.two_pow_pos e))

theorem witness_FieldsChecked :
    ready.isReady = true ∧
    (ready.cfg.nFir ≤ 2 ∧ ready.cfg.nOvs ≤ 1 ∧ ready.cfg.nAfs ≤ 2 ∧ ready.cfg.nOpf ≤ 2 ∧ ready.cfg.nRmp ≤ 4 ∧
      ready.cfg.nExs ≤ 2 ∧ ready.cfg.nDly ≤ 1 ∧ ready.cfg.nRpt ≤ 1) ∧
    (1 < ready.cfg.nFir ∧ (¬ ∃ e, 3 = 2 ^ e) ∧ ¬ ∃ e, 0 = 2 ^ e) ∧
    ((∃ e, 8 = 2 ^ e) ∧ ready.cfg.lMax < 8) ∧
    (0 < ready.cfg.nOvs ∧ 1 < 2) ∧ (0 < ready.cfg.nDly ∧ 1 ≠ 0) ∧ (0 < ready.cfg.nRpt ∧ ready.cfg.rptMaxTaps < 9) :=
  ⟨by decide +kernel, by decide +kernel, ⟨by decide +kernel, three_is_no_power, zero_is_no_power⟩,
    ⟨⟨3, rfl⟩, by decide +kernel⟩, by decide +kernel, by decide +kernel, by decide +kernel⟩

/-! ## Witnesses: faults, the gate and the life cycle -/

theorem witness_RaiseRecordsFirstFault : ready.isFaulted = false ∧ faulted.isFaulted = true := by decide +kernel
theorem witness_FaultsArePrecise : ∃ t, issueWord 0x41000000 (readyA0 0x41700000) = .next t ∧ t.isFaulted = true :=
  exists_of_nextIs (by decide +kernel)
theorem witness_ConditionChanges :
    (∃ t, issueWord 0x39000000 ready = .next t ∧ t.isReady = true) ∧
    (∃ t, issueWord 0x01000000 { faulted with a0 := ⟨0x447A0000, true⟩ } = .next t ∧ t.isReady = true) ∧
    ∃ t, issueWord 0x39000000 State.reset = .next t ∧ t.isFaulted = true :=
  ⟨exists_of_nextIs (by decide +kernel), exists_of_nextIs (by decide +kernel), exists_of_nextIs (by decide +kernel)⟩
theorem witness_FirstFaultIsSticky :
    faulted.isFaulted = true ∧
    ∃ t, step (withInbox { faulted with a0 := ⟨0, true⟩ } [.issue 0x01000000]) = .next t ∧ t.isFaulted = true :=
  ⟨by decide +kernel, exists_of_nextIs (by decide +kernel)⟩
theorem witness_EveryCommandAdvancesPc :
    (∃ t, issueWord 0x39000000 ready = .next t ∧ t.isReady = true) ∧
    (∃ t, issueWord 0x41000000 (readyA0 0x41700000) = .next t ∧ t.isFaulted = true) ∧
    ∃ t, issueWord 0x39000000 faulted = .next t ∧ t.isFaulted = true :=
  ⟨exists_of_nextIs (by decide +kernel), exists_of_nextIs (by decide +kernel), exists_of_nextIs (by decide +kernel)⟩

theorem ready_files : FilesGood ready :=
  ⟨by decide +kernel, by decide +kernel, by decide +kernel, by decide +kernel, by decide +kernel, by decide +kernel,
    by decide +kernel, by decide +kernel, by decide +kernel⟩

/-- `ready` before anything has written `A0` and `A1`. -/
def unwritten : State := { ready with a0 := ⟨0, false⟩, a1 := ⟨0, false⟩ }

theorem unwritten_files : FilesGood unwritten :=
  ⟨by decide +kernel, by decide +kernel, by decide +kernel, by decide +kernel, by decide +kernel, by decide +kernel,
    by decide +kernel, by decide +kernel, by decide +kernel⟩

theorem witness_UnwrittenOperandRefused :
    FilesGood unwritten ∧ unwritten.isReady = true ∧ fieldCheck unwritten.cfg (.afsProc 1) = none ∧
    (∃ reg ∈ readsOf (.afsProc 1), isWritten unwritten reg = false) ∧
    fieldCheck unwritten.cfg .engNew = none ∧ ∃ reg ∈ readsOf .engNew, isWritten unwritten reg = false :=
  ⟨unwritten_files, by decide +kernel, by decide +kernel, by decide +kernel, by decide +kernel, by decide +kernel⟩

/-! ## Witnesses: invariants -/

theorem ready_status : StatusGood ready :=
  ⟨by decide +kernel, by decide +kernel, by decide +kernel, by decide +kernel⟩

theorem ready_spaces : SpacesGood ready :=
  ⟨by unfold Memory.fits; decide +kernel, by unfold Memory.fits; decide +kernel,
    by unfold Memory.fits; decide +kernel⟩

theorem ready_ramps : ∀ (u : Nat) (f : Ramp), ready.rmp[u]? = some f → f.cnt ≤ rampSamplesOf ready.cfg u := by
  intro u f h
  have hf : f = ⟨0, 0, 0, 0⟩ := by
    have : ready.rmp = List.replicate 4 ⟨0, 0, 0, 0⟩ := rfl
    rw [this, List.getElem?_replicate] at h
    split at h
    · exact (Option.some.inj h).symm
    · cases h
  rw [hf]
  exact Nat.zero_le _

theorem ready_units : UnitsGood ready :=
  ⟨by unfold firGood; decide +kernel, by unfold delayGood; decide +kernel, ready_ramps, by
    unfold repeatGood; decide +kernel⟩

theorem ready_invariant : Invariant ready :=
  ⟨by decide +kernel, ready_status, ready_files, ready_spaces, fun _ => ready_units⟩

/-- The inbox is no part of the invariant. -/
theorem ready_inbox_invariant (acts : List HostAction) : Invariant (withInbox ready acts) :=
  ⟨ready_invariant.config, ⟨ready_status.reserved, ready_status.exclusive, ready_status.noFault, ready_status.fault⟩,
    ⟨ready_files.fir, ready_files.afs, ready_files.opf, ready_files.rmp, ready_files.exs, ready_files.dly, ready_files.rpt,
      ready_files.va, ready_files.vr⟩,
    ⟨ready_spaces.firBuf, ready_spaces.firCoef, ready_spaces.dlyBuf⟩,
    fun _ => ⟨ready_units.fir, ready_units.dly, ready_units.rmp, ready_units.rpt⟩⟩

theorem witness_StepKeepsInvariant :
    Invariant (withInbox ready [.issue 0x48000002]) ∧
    ∃ t, step (withInbox ready [.issue 0x48000002]) = .next t ∧ t.isReady = true :=
  ⟨ready_inbox_invariant _, exists_of_nextIs (by decide +kernel)⟩
theorem witness_NoIndexLeavesItsSpace : Invariant (withInbox ready [.issue 0x11010000]) := ready_inbox_invariant _
theorem witness_ConfigNeverChanges : ∃ t, step (withInbox (coldA0 0x447A0000) [.issue 0x01000000]) = .next t ∧ t.isReady = true :=
  exists_of_nextIs (by decide +kernel)
theorem witness_DelayLengthFixed :
    Instr.dlyWr 0 ≠ .engNew ∧ ∃ t, exec (.dlyWr 0) ready = .next t ∧ t.isReady = true :=
  ⟨by decide, exists_of_nextIs (by decide +kernel)⟩
/-- Commands of every unit file, each on a unit with another beside it, and the fields of the last clauses. -/
theorem witness_OtherUnitsUntouched :
    (∃ t, exec (.ovsUp 0) ready = .next t ∧ t.isReady = true) ∧ 1 ∉ firUnitsOf (.ovsUp 0) ∧ (ready.fir[1]?).isSome = true ∧
    (¬ ∃ len, Instr.ovsUp 0 = .firNew 0 len) ∧
    (∃ t, exec (.afsCoef 1) ready = .next t ∧ t.isReady = true) ∧ (ready.afs[1]?).isSome = true ∧
    (∃ t, exec (.afsStep 1) ready = .next t ∧ t.isReady = true) ∧ 0 ≠ (Instr.afsStep 1).unitIndex ∧
    (∃ t, exec (.rmpSet 3) ready = .next t ∧ t.isReady = true) ∧ (ready.rmp[3]?).isSome = true ∧
    (∃ t, exec (.rmpStep 3) ready = .next t ∧ t.isReady = true) ∧
    (∃ t, exec (.exsInit 1) ready = .next t ∧ t.isReady = true) ∧ (ready.exs[1]?).isSome = true ∧
    (∃ t, exec (.dlyWr 0) ready = .next t ∧ t.isReady = true) ∧ (ready.dly[0]?).isSome = true :=
  ⟨exists_of_nextIs (by decide +kernel), by decide, by decide +kernel, by simp, exists_of_nextIs (by decide +kernel),
    by decide +kernel, exists_of_nextIs (by decide +kernel), by decide, exists_of_nextIs (by decide +kernel),
    by decide +kernel, exists_of_nextIs (by decide +kernel), exists_of_nextIs (by decide +kernel), by decide +kernel,
    exists_of_nextIs (by decide +kernel), by decide +kernel⟩
theorem witness_CommandsTouchOnlyListedState :
    (∃ t, exec (.rmpStep 0) ready = .next t ∧ t.isReady = true) ∧ (∃ t, exec (.dlyWr 0) ready = .next t ∧ t.isReady = true) ∧
    (¬ ∃ o k, Instr.rmpStep 0 = .ovsProc o k) ∧
    (¬ ∃ u k, Instr.rmpStep 0 ∈ [Instr.firProc u, .ovsUp u, .ovsDn u, .ovsProc u k, .wsRat, .wsDiode]) ∧
    (¬ ∃ u k, Instr.dlyWr 0 ∈ [Instr.ovsDn u, .ovsProc u k, .afsStep u, .afsProc u, .opfProc u, .rmpStep u, .rmpProc u,
      .exsProc u, .dlyRd u k, .rptProc u k]) ∧
    Instr.rmpStep 0 ≠ .engNew ∧
    (¬ ∃ u k, Instr.rmpStep 0 ∈ [Instr.engNew, .firNew u k, .firProc u, .ovsUp u, .ovsDn u, .ovsProc u k]) ∧
    (¬ ∃ u, Instr.rmpStep 0 ∈ [Instr.engNew, .afsCoef u, .afsStep u, .afsProc u]) ∧
    (¬ ∃ u, Instr.rmpStep 0 ∈ [Instr.engNew, .opfProc u]) ∧
    (¬ ∃ u, Instr.dlyWr 0 ∈ [Instr.engNew, .rmpSet u, .rmpStep u, .rmpProc u, .rmpInit u]) ∧
    (¬ ∃ u, Instr.rmpStep 0 ∈ [Instr.engNew, .exsProc u, .exsInit u]) ∧
    (¬ ∃ u k, Instr.rmpStep 0 ∈ [Instr.engNew, .dlyWr u, .rptProc u k]) ∧
    ¬ ∃ u k, Instr.rmpStep 0 ∈ [Instr.engNew, .rptProc u k, .rptInit u k] := by
  have h : ∃ t, exec (.rmpStep 0) ready = .next t ∧ t.isReady = true := exists_of_nextIs (by decide +kernel)
  have h' : ∃ t, exec (.dlyWr 0) ready = .next t ∧ t.isReady = true := exists_of_nextIs (by decide +kernel)
  exact ⟨h, h', by simp⟩

/-! ## Witnesses: engine, FIR, oversampler -/

/-- POWER-ON with `L = 3`, a length `FIR.NEW` refuses too. -/
def badLength : State := { coldA0 0x447A0000 with cfg := { Config.test with l := 3 } }

/-- The whole number of samples a delay buffer would hold at a sample rate, under TESTCFG. -/
def capacityAt (fs : F32) : F32 := ffloor [0] (fmul [0] fs Config.test.maxDelayS)

/-- Each clause: a rate that is not positive or is infinite; a length that is no power of two; fs = 100.0, capacity 1;
fs = 125.0, capacity 2, the smallest legal one. The last element and lane of a coefficient table. -/
theorem witness_EngNewConstructs :
    ((coldA0 0x80000000).a0 = ⟨0x80000000, true⟩ ∧ ¬ (flt 0 0x80000000 = true ∧ isInf 0x80000000 = false)) ∧
    ((coldA0 0x7F800000).a0 = ⟨0x7F800000, true⟩ ∧ ¬ (flt 0 0x7F800000 = true ∧ isInf 0x7F800000 = false)) ∧
    (badLength.a0 = ⟨0x447A0000, true⟩ ∧ (flt 0 0x447A0000 = true ∧ isInf 0x447A0000 = false) ∧
      isPow2 badLength.cfg.l = false) ∧
    ((coldA0 0x42C80000).a0 = ⟨0x42C80000, true⟩ ∧ (flt 0 0x42C80000 = true ∧ isInf 0x42C80000 = false) ∧
      isPow2 (coldA0 0x42C80000).cfg.l = true ∧
      ¬ (fle 0x40000000 (capacityAt 0x42C80000) = true ∧ fle (capacityAt 0x42C80000) (f32 64) = true)) ∧
    ((coldA0 0x42FA0000).a0 = ⟨0x42FA0000, true⟩ ∧ (flt 0 0x42FA0000 = true ∧ isInf 0x42FA0000 = false) ∧
      isPow2 (coldA0 0x42FA0000).cfg.l = true ∧
      (fle 0x40000000 (capacityAt 0x42FA0000) = true ∧ fle (capacityAt 0x42FA0000) (f32 64) = true)) ∧
    (opcField 0x01FFFFFF = 0x01 ∧ (0x01FFFFFF : Word) ≠ 0x01000000) ∧ (3 < ready.cfg.lMax ∧ 1 < ready.cfg.n) := by
  decide +kernel
theorem witness_FirNewConstructs :
    ready.isReady = true ∧ ready.cfg.nFir ≤ 2 ∧ isPow2 0 = false ∧ isPow2 6 = false ∧
    (1 < ready.cfg.nFir ∧ isPow2 8 = true ∧ ready.cfg.lMax < 8) ∧
    (1 < ready.cfg.nFir ∧ 1 < ready.fir.length ∧ isPow2 4 = true ∧ 4 ≤ ready.cfg.lMax ∧ isPow2 1 = true) ∧
    (3 < ready.cfg.lMax ∧ 1 < ready.cfg.n) := by decide +kernel

/-- A FIR unit of TESTCFG whose index stands at the last entry. -/
def lastFir : Fir := { newFir Config.test 1 4 with idx := 3, buf := [(0, 0x3F800000), (7, 0x40000000)] }

/-- `ready` with FIR units in the middle of their work. -/
def readyFir : State := { ready with fir := [lastFir, lastFir] }

theorem lastFir_inSpace : firInSpace readyFir.cfg lastFir := by
  unfold firInSpace
  decide +kernel

theorem witness_FirProcConvolves :
    readyFir.isReady = true ∧ readyFir.cfg.nFir ≤ 2 ∧ 1 < readyFir.cfg.nFir ∧
    readyFir.va = ⟨[0x3F800000, 0x3F800000], true⟩ ∧ readyFir.fir[1]? = some lastFir ∧ firInSpace readyFir.cfg lastFir :=
  ⟨by decide +kernel, by decide +kernel, by decide +kernel, rfl, rfl, lastFir_inSpace⟩
theorem witness_OvsUpResult :
    readyFir.isReady = true ∧ readyFir.cfg.nOvs ≤ 1 ∧ 0 < readyFir.cfg.nOvs ∧ readyFir.a0 = ⟨0x3F000000, true⟩ ∧
    readyFir.fir[2 * 0]? = some lastFir ∧ firInSpace readyFir.cfg lastFir :=
  ⟨by decide +kernel, by decide +kernel, by decide +kernel, rfl, rfl, lastFir_inSpace⟩
theorem witness_OvsDnResult :
    readyFir.isReady = true ∧ readyFir.cfg.nOvs ≤ 1 ∧ 0 < readyFir.cfg.nOvs ∧
    readyFir.va = ⟨[0x3F800000, 0x3F800000], true⟩ ∧ readyFir.fir[2 * 0 + 1]? = some lastFir ∧
    firInSpace readyFir.cfg lastFir :=
  ⟨by decide +kernel, by decide +kernel, by decide +kernel, rfl, rfl, lastFir_inSpace⟩
theorem witness_OvsProcIsTheSequence :
    readyFir.isReady = true ∧ readyFir.cfg.nOvs ≤ 1 ∧ (0 < readyFir.cfg.nOvs ∧ 1 < 2) ∧
    (0 < readyFir.cfg.nOvs ∧ 1 ≤ 1 ∧ 0 ≤ 1) ∧ readyFir.a0 = ⟨0x3F000000, true⟩ ∧ readyFir.fir[2 * 0]? = some lastFir ∧
    readyFir.fir[2 * 0 + 1]? = some lastFir ∧ firInSpace readyFir.cfg lastFir :=
  ⟨by decide +kernel, by decide +kernel, by decide +kernel, by decide +kernel, rfl, rfl, rfl, lastFir_inSpace⟩

theorem readyFir_spaces : SpacesGood readyFir :=
  ⟨by unfold Memory.fits; decide +kernel, by unfold Memory.fits; decide +kernel, by unfold Memory.fits; decide +kernel⟩

theorem witness_FirCallMemoryFrame :
    SpacesGood readyFir ∧ readyFir.isReady = true ∧ readyFir.fir[1]? = some lastFir ∧
    (∃ t, exec (.firProc 1) readyFir = .next t ∧ t.isReady = true) ∧
    (∃ o, Instr.ovsUp 0 = .ovsUp o ∧ 0 = 2 * o) ∧ (∃ t, exec (.ovsUp 0) readyFir = .next t ∧ t.isReady = true) ∧
    (∃ o, Instr.ovsDn 0 = .ovsDn o ∧ 1 = 2 * o + 1) ∧ ∃ t, exec (.ovsDn 0) readyFir = .next t ∧ t.isReady = true :=
  ⟨readyFir_spaces, by decide +kernel, rfl, exists_of_nextIs (by decide +kernel), ⟨0, rfl, rfl⟩,
    exists_of_nextIs (by decide +kernel), ⟨0, rfl, rfl⟩, exists_of_nextIs (by decide +kernel)⟩
theorem witness_FirHistoryShifts :
    lastFir.buf.wf = true ∧ firGood Config.test lastFir ∧ 1 < Config.test.n ∧ 3 < lastFir.len ∧ 3 = lastFir.len - 1 ∧
    0 < lastFir.len ∧ 0 ≠ lastFir.len - 1 := by
  unfold firGood
  decide +kernel

/-! ## Witnesses: waveshaper, filters, smoothers -/

theorem witness_WsRatResult : ready.isReady = true ∧ ready.va = ⟨[0x3F800000, 0x3F800000], true⟩ := by decide +kernel
theorem witness_WsDiodeResult : ready.isReady = true ∧ ready.va = ⟨[0x3F800000, 0x3F800000], true⟩ := by decide +kernel
theorem witness_WsRatOddSymmetry : signBit Config.test.wsC1 = false ∧ signBit 0 = false := by decide +kernel
theorem witness_WsDiodeOddAndClamped :
    fle (f32 (Config.test.dtTab.length - 1)) (fmul [] (fabs 0xBF800000) Config.test.dtScale) = true := by decide +kernel

/-- A filter stage in the middle of its work. -/
def busyAfs : Afs :=
  ⟨0x3F000000, 0x3F800000, 0xBF000000, 0x3F000000, 0x40000000, 0x3F800000, 0, 0x3F800000, 0x3F000000, 0, 0x42C80000,
    ⟨0x3F000000, 0x3F000000, 0x42C80000, true⟩⟩

/-- `ready` with the filters in the middle of their work. -/
def readyAfs : State :=
  { ready with
    afs := [newAfs, busyAfs]
    opf := [OnePole.zero, ⟨0x3F000000, 0x3F000000, 0x40000000, true⟩]
    exs := [⟨OnePole.zero⟩, ⟨⟨0x3F000000, 0x3F000000, 0x42800000, true⟩⟩] }

theorem witness_AfsCoefResult :
    readyAfs.isReady = true ∧ readyAfs.cfg.nAfs ≤ 2 ∧ 1 < readyAfs.cfg.nAfs ∧ readyAfs.a1 = ⟨0x40000000, true⟩ ∧
    readyAfs.afs[1]? = some busyAfs := by decide +kernel
theorem witness_StageFunctionsAreLegal :
    inUnitInterval 0 ∧ inUnitInterval 0x80000000 ∧ inUnitInterval 0x3F800000 ∧ isFinite ready.k1 = true ∧
    isFinite ready.k2 = true ∧ isFinite ready.k3 = true := by
  unfold inUnitInterval
  decide +kernel
theorem witness_AfsStepResult :
    readyAfs.isReady = true ∧ readyAfs.cfg.nAfs ≤ 2 ∧ 1 < readyAfs.cfg.nAfs ∧ readyAfs.a0 = ⟨0x3F000000, true⟩ ∧
    readyAfs.afs[1]? = some busyAfs := by decide +kernel
theorem witness_AfsProcIsTheSequence :
    readyAfs.isReady = true ∧ readyAfs.cfg.nAfs ≤ 2 ∧ 1 < readyAfs.cfg.nAfs ∧ readyAfs.a0 = ⟨0x3F000000, true⟩ ∧
    readyAfs.a1 = ⟨0x40000000, true⟩ ∧ readyAfs.afs[1]? = some busyAfs := by decide +kernel
theorem witness_OpfProcResult :
    readyAfs.isReady = true ∧ readyAfs.cfg.nOpf ≤ 2 ∧ 1 < readyAfs.cfg.nOpf ∧ readyAfs.a0 = ⟨0x3F000000, true⟩ ∧
    readyAfs.a1 = ⟨0x40000000, true⟩ ∧ readyAfs.opf[1]? = some ⟨0x3F000000, 0x3F000000, 0x40000000, true⟩ := by
  decide +kernel
/-- The largest finite cutoff, and a `W` that makes the product overflow. -/
def steepPole (f : OnePole) : State := { readyAfs with a1 := ⟨0x7F7FFFFF, true⟩, w := 0xC0000000, opf := [f, f] }

/-- With nothing cached; with a pole cached for that cutoff. -/
theorem witness_PoleInUnitInterval :
    (steepPole OnePole.zero).isReady = true ∧ 1 < (steepPole OnePole.zero).cfg.nOpf ∧
    (steepPole OnePole.zero).a0 = ⟨0x3F000000, true⟩ ∧ (steepPole OnePole.zero).a1 = ⟨0x7F7FFFFF, true⟩ ∧
    (steepPole OnePole.zero).opf[1]? = some OnePole.zero ∧
    (steepPole ⟨0, 0x3F000000, 0x7F7FFFFF, true⟩).opf[1]? = some ⟨0, 0x3F000000, 0x7F7FFFFF, true⟩ ∧
    isFinite 0x7F7FFFFF = true ∧ fle 0 0x7F7FFFFF = true ∧ isFinite 0xC0000000 = true ∧ fle 0xC0000000 0 = true ∧
    fmul [] 0x7F7FFFFF 0xC0000000 = 0xFF800000 ∧ OnePole.zero.valid = false ∧ inUnitInterval 0x3F000000 := by
  unfold inUnitInterval
  decide +kernel
theorem witness_RmpSetResult :
    ready.isReady = true ∧ ready.cfg.nRmp ≤ 4 ∧ 3 < ready.cfg.nRmp ∧ ready.a0 = ⟨0x3F000000, true⟩ ∧
    ready.rmp[3]? = some ⟨0, 0, 0, 0⟩ ∧ feq 0x3F000000 0 = false ∧ feq 0x80000000 0 = true := by decide +kernel
theorem witness_RmpStepResult :
    ready.isReady = true ∧ ready.cfg.nRmp ≤ 4 ∧ 3 < ready.cfg.nRmp ∧ ready.rmp[3]? = some ⟨0, 0, 0, 0⟩ := by
  decide +kernel
theorem witness_RmpProcIsTheSequence :
    ready.isReady = true ∧ ready.cfg.nRmp ≤ 4 ∧ 3 < ready.cfg.nRmp ∧ ready.a0 = ⟨0x3F000000, true⟩ ∧
    ready.rmp[3]? = some ⟨0, 0, 0, 0⟩ := by decide +kernel
theorem witness_SmootherInitResults :
    readyAfs.isReady = true ∧ readyAfs.cfg.nRmp ≤ 4 ∧ readyAfs.cfg.nExs ≤ 2 ∧ readyAfs.a0 = ⟨0x3F000000, true⟩ ∧
    (3 < readyAfs.cfg.nRmp ∧ 3 < readyAfs.rmp.length) ∧
    (1 < readyAfs.cfg.nExs ∧ readyAfs.exs[1]? = some ⟨⟨0x3F000000, 0x3F000000, 0x42800000, true⟩⟩) := by decide +kernel
theorem witness_ExsProcResult :
    readyAfs.isReady = true ∧ readyAfs.cfg.nExs ≤ 2 ∧ 1 < readyAfs.cfg.nExs ∧ readyAfs.a0 = ⟨0x3F000000, true⟩ ∧
    readyAfs.exs[1]? = some ⟨⟨0x3F000000, 0x3F000000, 0x42800000, true⟩⟩ := by decide +kernel

/-! ## Witnesses: delay buffer and repeat engine -/

/-- A delay buffer of capacity 16 with its cursor at the last element. -/
def lastDelay : Delay := ⟨16, 15, 0x3F800000, [(0, 0x3F800000), (14, 0x3F000000)]⟩

/-- `ready` with that buffer, at a read time and with a repeat engine. -/
def readyDelay (x : F32) (e : RepeatUnit) : State := { readyA0 x with dly := [lastDelay], rpt := [e] }

theorem lastDelay_good : delayGood Config.test lastDelay := by
  unfold delayGood
  decide +kernel

theorem witness_DlyWrResult :
    (readyDelay 0x3F000000 newRpt).isReady = true ∧ Config.test.nDly ≤ 1 ∧ 0 < Config.test.nDly ∧
    (readyDelay 0x3F000000 newRpt).a0 = ⟨0x3F000000, true⟩ ∧ (readyDelay 0x3F000000 newRpt).dly[0]? = some lastDelay ∧
    delayGood (readyDelay 0x3F000000 newRpt).cfg lastDelay :=
  ⟨by decide +kernel, by decide +kernel, by decide +kernel, rfl, rfl, lastDelay_good⟩
/-- 15.0 is the first time out of range, the value just below it (V-DLY) the last in range. -/
theorem witness_DlyRdResult :
    (readyDelay 0x41700000 newRpt).isReady = true ∧ Config.test.nDly ≤ 1 ∧ (1 : Nat) ≠ 0 ∧ 0 < Config.test.nDly ∧
    (readyDelay 0x41700000 newRpt).a0 = ⟨0x41700000, true⟩ ∧ (readyDelay 0x41700000 newRpt).dly[0]? = some lastDelay ∧
    delayGood (readyDelay 0x41700000 newRpt).cfg lastDelay ∧
    (fle 0 (fmul [] 0x416FFFFF lastDelay.scale) = true ∧ flt (fmul [] 0x416FFFFF lastDelay.scale) (f32 15) = true) ∧
    ¬ (fle 0 (fmul [] 0x41700000 lastDelay.scale) = true ∧ flt (fmul [] 0x41700000 lastDelay.scale) (f32 15) = true) :=
  ⟨by decide +kernel, by decide +kernel, by decide, by decide +kernel, rfl, rfl, lastDelay_good, by decide +kernel,
    by decide +kernel⟩
theorem witness_DelayHistoryShifts :
    lastDelay.buf.wf = true ∧ delayGood Config.test lastDelay ∧ 0 < lastDelay.cap ∧ 15 < lastDelay.cap :=
  ⟨by decide +kernel, lastDelay_good, by decide +kernel, by decide +kernel⟩

theorem readyDelay_spaces : SpacesGood (readyDelay 0x3F000000 newRpt) :=
  ⟨by unfold Memory.fits; decide +kernel, by unfold Memory.fits; decide +kernel, by unfold Memory.fits; decide +kernel⟩

theorem witness_DelayMemoryFrame :
    SpacesGood (readyDelay 0x3F000000 newRpt) ∧ (readyDelay 0x3F000000 newRpt).isReady = true ∧
    (readyDelay 0x3F000000 newRpt).dly[0]? = some lastDelay ∧
    (∃ t, exec (.dlyWr 0) (readyDelay 0x3F000000 newRpt) = .next t ∧ t.isReady = true) ∧
    ∃ t, exec (.rptProc 0 2) (readyDelay 0x3F000000 newRpt) = .next t ∧ t.isReady = true :=
  ⟨readyDelay_spaces, by decide +kernel, rfl, exists_of_nextIs (by decide +kernel), exists_of_nextIs (by decide +kernel)⟩
theorem witness_DelayReadsNewest :
    lastDelay.buf.wf = true ∧ 2 ≤ lastDelay.cap ∧ lastDelay.cap < 2 ^ 24 ∧ lastDelay.w < lastDelay.cap ∧
    isFinite lastDelay.scale = true ∧ isZero 0 = true ∧ isZero 0x80000000 = true ∧ isFinite 0xBF400000 = true ∧
    isFinite (fsub [] (delaySample lastDelay 0) 0xBF400000) = true := by decide +kernel
theorem witness_TapTimeAndGain :
    (0 < 1 ∧ feq 0 0 = true) ∧ (0 < 2 ∧ feq 0x3F800000 0 = false) ∧
    (3 < 4 ∧ feq (fabs 0xBF800000) 0x3F800000 = true) ∧
    (3 < 4 ∧ feq (fabs 0x80000000) 0x3F800000 = false ∧ flt (fabs 0x80000000) Config.test.fbMin = true ∧ fle 0 0x80000000 = true) ∧
    (0 < 4 ∧ feq (fabs 0xC0000000) 0x3F800000 = false ∧ fle 0 0xC0000000 = false) := by decide +kernel

/-- Set A of P3, and one whose only tap is out of range. -/
def setA : TapSet := ⟨2, 0x40000000, 0x3F000000, 0⟩
def farSet : TapSet := ⟨2, 0x41A00000, 0x3F000000, 0⟩

theorem only_one (i : Nat) (h : 0 < i) (h' : i < 2) : i = 1 := by omega

theorem witness_TapsAreTheSum :
    (∀ i, 0 < i → i < setA.count → delayInRange lastDelay (tapOffset [] setA lastDelay i) = true) ∧
    ∃ i, 0 < i ∧ i < farSet.count ∧ delayInRange lastDelay (tapOffset [] farSet lastDelay i) = false := by
  refine ⟨fun i h h' => ?_, 1, by decide, by decide, by decide +kernel⟩
  rw [only_one i h h']
  decide +kernel

/-- The engine with set A in effect and no fade; with a fade in its last sample. -/
def steady : RepeatUnit := ⟨setA, setA, ⟨0, 0, 0⟩⟩
def fading : RepeatUnit := ⟨setA, setA, ⟨0x3F400000, 0x3E800000, 1⟩⟩

/-- The state a sample is processed in: `A1` is the time of the set supplied, its other values those of set A. -/
def readyRpt (time : F32) (e : RepeatUnit) : State := { readyDelay 0x3F000000 e with a1 := ⟨time, true⟩ }

/-- The premises the statements about `RPT.PROC` share, for that state. -/
def RptPremises (time : F32) (e : RepeatUnit) : Prop :=
  (readyRpt time e).isReady = true ∧ 0 < (readyRpt time e).cfg.nRpt ∧ 2 ≤ (readyRpt time e).cfg.rptMaxTaps ∧
  (readyRpt time e).a0 = ⟨0x3F000000, true⟩ ∧ (readyRpt time e).a1 = ⟨time, true⟩ ∧
  (readyRpt time e).a2 = ⟨0x3F000000, true⟩ ∧ (readyRpt time e).a3 = ⟨0, true⟩ ∧ (readyRpt time e).rpt[0]? = some e ∧
  (readyRpt time e).dly[0]? = some lastDelay ∧ delayGood (readyRpt time e).cfg lastDelay ∧
  0 < (readyRpt time e).cfg.xfadeSamples

theorem rpt_premises (time : F32) (e : RepeatUnit) : RptPremises time e :=
  ⟨(by decide +kernel : ready.isReady = true), (by decide : 0 < 1), (by decide : 2 ≤ 8), rfl, rfl, rfl, rfl, rfl, rfl,
    lastDelay_good, (by decide : 0 < 4)⟩

/-- The illegal fields; then the three clauses, each completing and each out of range: no fade and no change; a change
(from the empty set, from and to a set out of range); a fade in its last sample. -/
theorem witness_RptProcResult :
    let g := delayAfter lastDelay 0x3F000000
    let far : RepeatUnit := ⟨farSet, setA, ⟨0, 0, 0⟩⟩
    let farFade : RepeatUnit := ⟨setA, farSet, ⟨0x3F400000, 0x3E800000, 1⟩⟩
    (ready.isReady = true ∧ ready.cfg.nRpt ≤ 1 ∧ 0 < ready.cfg.nRpt ∧ ready.cfg.rptMaxTaps < 9) ∧
    (RptPremises 0x40000000 steady ∧ steady.xf.cnt = 0 ∧ tapSetEq setA steady.cur = true ∧
      (taps Config.test [1, 0] steady.cur 0x3F000000 g).isSome = true) ∧
    (RptPremises 0x41A00000 far ∧ far.xf.cnt = 0 ∧ tapSetEq farSet far.cur = true ∧
      taps Config.test [1, 0] far.cur 0x3F000000 g = none) ∧
    (RptPremises 0x40000000 newRpt ∧ newRpt.xf.cnt = 0 ∧ tapSetEq setA newRpt.cur = false ∧
      (taps Config.test [0, 0] newRpt.cur 0x3F000000 g).isSome = true ∧
      (taps Config.test [1, 0] setA 0x3F000000 g).isSome = true) ∧
    (RptPremises 0x40000000 far ∧ tapSetEq setA far.cur = false ∧ taps Config.test [0, 0] far.cur 0x3F000000 g = none) ∧
    (RptPremises 0x41A00000 steady ∧ tapSetEq farSet steady.cur = false ∧
      taps Config.test [1, 0] farSet 0x3F000000 g = none) ∧
    (RptPremises 0x40000000 fading ∧ 0 < fading.xf.cnt ∧
      (taps Config.test [0, 0] fading.prev 0x3F000000 g).isSome = true ∧
      (taps Config.test [1, 0] fading.cur 0x3F000000 g).isSome = true) ∧
    (RptPremises 0x40000000 farFade ∧ 0 < farFade.xf.cnt ∧ taps Config.test [0, 0] farFade.prev 0x3F000000 g = none) :=
  ⟨by decide +kernel, ⟨rpt_premises _ _, by decide +kernel⟩, ⟨rpt_premises _ _, by decide +kernel⟩,
    ⟨rpt_premises _ _, by decide +kernel⟩, ⟨rpt_premises _ _, by decide +kernel⟩, ⟨rpt_premises _ _, by decide +kernel⟩,
    ⟨rpt_premises _ _, by decide +kernel⟩, rpt_premises _ _, by decide +kernel⟩

/-- The other host supplies another set during the fade. -/
def otherSupply : State := { readyDelay 0x3F000000 fading with a1 := ⟨0x41A00000, true⟩, a2 := ⟨0, true⟩, a3 := ⟨0, true⟩ }

theorem witness_FadeIgnoresSuppliedSet :
    (readyDelay 0x3F000000 fading).isReady = true ∧ (readyDelay 0x3F000000 fading).rpt[0]? = some fading ∧
    0 < fading.xf.cnt ∧
    otherSupply = { readyDelay 0x3F000000 fading with a1 := otherSupply.a1, a2 := otherSupply.a2, a3 := otherSupply.a3 } ∧
    otherSupply.a1.written = true ∧ otherSupply.a2.written = true ∧ otherSupply.a3.written = true ∧
    0 < otherSupply.cfg.nRpt ∧ 8 ≤ otherSupply.cfg.rptMaxTaps ∧ 0 ≤ otherSupply.cfg.rptMaxTaps ∧
    ∃ t, exec (.rptProc 0 8) (readyDelay 0x3F000000 fading) = .next t ∧ t.isReady = true :=
  ⟨rfl, rfl, by decide, rfl, rfl, rfl, rfl, by decide, by decide, by decide, exists_of_nextIs (by decide +kernel)⟩
theorem witness_RptInitResult :
    ready.isReady = true ∧ ready.cfg.nRpt ≤ 1 ∧ (0 < ready.cfg.nRpt ∧ ready.cfg.rptMaxTaps < 9) ∧
    8 ≤ ready.cfg.rptMaxTaps ∧ ready.a1 = ⟨0x40000000, true⟩ ∧ ready.a2 = ⟨0x3F000000, true⟩ ∧ ready.a3 = ⟨0, true⟩ ∧
    0 < ready.rpt.length := by decide +kernel

/-! ## Witnesses: numerics and the host port -/

/-- Half a unit; the last value that is finite and the first that is infinite. -/
theorem witness_RoundsToNearestEven :
    (0 < 2 ∧ 1 < 2 * ((2 ^ 25 - 1) * 2 ^ 252) ∧ 0x7F7FFFFF < 0x7F800000) ∧
    (0 < 3 ∧ 3 * ((2 ^ 25 - 1) * 2 ^ 252) - 1 < 3 * ((2 ^ 25 - 1) * 2 ^ 252) ∧
      roundUnits (3 * ((2 ^ 25 - 1) * 2 ^ 252) - 1) 3 = 0x7F7FFFFF) ∧
    (3 * ((2 ^ 25 - 1) * 2 ^ 252) ≤ 3 * ((2 ^ 25 - 1) * 2 ^ 252) ∧
      roundUnits (3 * ((2 ^ 25 - 1) * 2 ^ 252)) 3 = 0x7F800000) := by decide +kernel
theorem witness_OperationsRoundTheExactResult :
    (isFinite 0x3F800000 = true ∧ isFinite 0x7F7FFFFF = true) ∧
    (sUnits 0x3F800000 + sUnits 0x3F800001 ≠ 0 ∧ sUnits 0x3F800000 - sUnits 0x3F800001 ≠ 0) ∧
    isZero 0x00000001 = false ∧ signBit 0x00000000 = false := by decide +kernel
theorem witness_NumericsNamedProperties :
    (isFinite 0xFF7FFFFF = true ∧ fle 0xFF7FFFFF 0 = true) ∧ (isFinite 0x80000000 = true ∧ fle 0x80000000 0 = true) ∧
    (fle 0xFF800000 0x80000000 = true ∧ fle 0x00000001 0x7F800000 = true) ∧
    isNaN 0x7F800001 = true ∧ (0x3F800000 : F32) ≠ 0 := by decide +kernel
/-- `1.5^5 = 7.59375` and `2^-149`, the least positive value. -/
theorem witness_PowersAreExact :
    (isFinite 0x3FC00000 = true ∧ isFinite 0x40A00000 = true ∧ isFinite 0x40F30000 = true ∧ 0 < valueOf 0x3FC00000 ∧
      valueOf 0x40A00000 = (5 : Int) ∧ signBit 0x40F30000 = false ∧ valueOf 0x40F30000 = valueOf 0x3FC00000 ^ (5 : Int)) ∧
    (isFinite 0x40000000 = true ∧ isFinite 0xC3150000 = true ∧ isFinite 0x00000001 = true ∧ 0 < valueOf 0x40000000 ∧
      valueOf 0xC3150000 = (-149 : Int) ∧ signBit 0x00000001 = false ∧
      valueOf 0x00000001 = valueOf 0x40000000 ^ (-149 : Int)) := by
  unfold valueOf
  decide +kernel
/-- The same powers by the model: with three of the examples of NUM-P4 they are the values that rule gives. -/
theorem test_exact_powers :
    fpow [] 0x3FC00000 0x40A00000 = 0x40F30000 ∧ fpow [] 0x40000000 0xC3150000 = 0x00000001 ∧
    fpow [] 0x40000000 0x40400000 = 0x41000000 ∧ fpow [] 0x3F000000 0x40000000 = 0x3E800000 ∧
    fpow [] 0x40000000 0xBF800000 = 0x3F000000 := by decide +kernel

/-- `ready` with a result in `VR`. -/
def readyVr (v : Lanes) : State := { ready with vr := ⟨v, true⟩, inbox := [.copyVa] }

theorem witness_HostPortActions :
    legalConfig ready.cfg = true ∧ (withInbox ready [.write .a3 0x7FC00000]).inbox = .write .a3 0x7FC00000 :: [] ∧
    (withInbox ready [.writeVa [0, 0]]).inbox = .writeVa [0, 0] :: [] ∧ ([0, 0] : Lanes).length = ready.cfg.n ∧
    (withInbox ready [.read .va]).inbox = .read .va :: [] ∧ ready.va.written = true ∧ ready.a0.written = true ∧
    (withInbox ready [.copy .a1 .a0]).inbox = .copy .a1 .a0 :: [] ∧
    (readyVr [0x3F800000, 0]).inbox = .copyVa :: [] ∧ (readyVr [0x3F800000, 0]).vr.written = true :=
  ⟨by decide +kernel, rfl, rfl, by decide +kernel, rfl, rfl, rfl, rfl, rfl, rfl⟩

end Sys2Proof.Tests
end

section
/-! The command counter pc (10_state.md R23): what it is after a command, and that no command reads it. -/

namespace Sys2Proof.Proofs.CommandCounter

open Sys2Proof.Machine

/-- Whatever an issued word does, pc changes only in the tick that ends it: neither the fault it raises, nor the core
it constructs, nor the body it runs moves pc. -/
theorem issueWord_pc {w : Word} {s t : State} (h : issueWord w s = .next t) : t.pc = s.pc + 1 := by
  rcases issueWord_cases h with ⟨_, _, rfl⟩ | ⟨e, rfl, _⟩ | ⟨_, _, rfl⟩ | ⟨_, _, _, _, m, _, hquiet, rfl⟩
  case inl => exact s.tick_pc
  case inr.inl => simp only [State.tick_pc, raise_pc]
  case inr.inr.inl => simp only [State.tick_pc, State.spend_pc, construct_pc]
  case inr.inr.inr => rw [State.tick_pc, hquiet.pc]

/-- Settles O12: pc advances by the case analysis of an issued word, and from another pc the word does the same
because no part of a command reads pc. -/
theorem everyCommandAdvancesPc : Obligations.EveryCommandAdvancesPc := by
  unfold Obligations.EveryCommandAdvancesPc
  intro s t w h
  exact ⟨issueWord_pc h, issueWord_atPc h⟩

end Sys2Proof.Proofs.CommandCounter
end

section
/-! The commands of one FIR unit (40_fir.md): FIR.NEW constructs it (R121), FIR.PROC runs one call of it (R122). -/

namespace Sys2Proof.Proofs.FirUnit

open Sys2Proof.Machine Sys2Proof.Claims

/-! The checks of the fields (30_encoding.md R92, R95) -/

theorem fieldCheck_firNew_of_unit_ge {cfg : Config} {u : Nat} (len : Nat) (hu : cfg.nFir ≤ u) :
    fieldCheck cfg (.firNew u len) = some .illegal := by simp [fieldCheck, hu]

theorem fieldCheck_firNew_of_not_isPow2 {cfg : Config} {u len : Nat} (hu : u < cfg.nFir) (hp : isPow2 len = false) :
    fieldCheck cfg (.firNew u len) = some .firLen := by simp [fieldCheck, hu, hp]

theorem fieldCheck_firNew_of_gt_lMax {cfg : Config} {u len : Nat} (hu : u < cfg.nFir) (hp : isPow2 len = true)
    (hl : cfg.lMax < len) : fieldCheck cfg (.firNew u len) = some .illegal := by
  simp [fieldCheck, hu, hp, hl]

theorem fieldCheck_firNew_legal {cfg : Config} {u len : Nat} (hu : u < cfg.nFir) (hp : isPow2 len = true)
    (hl : len ≤ cfg.lMax) : fieldCheck cfg (.firNew u len) = none := by simp [fieldCheck, hu, hp, hl]

theorem fieldCheck_firProc_of_unit_ge {cfg : Config} {u : Nat} (hu : cfg.nFir ≤ u) :
    fieldCheck cfg (.firProc u) = some .illegal := by simp [fieldCheck, hu]

theorem fieldCheck_firProc_legal {cfg : Config} {u : Nat} (hu : u < cfg.nFir) :
    fieldCheck cfg (.firProc u) = none := by simp [fieldCheck, hu]

/-! The dot product and the call -/

/-- The recursive accumulation of the model is the fold over ascending `k` of 00_scope.md R14. -/
theorem firDot_eq_foldl (d : Draw) (n : Nat) (f : Fir) (start j k : Nat) :
    firDot d n f start j k = (List.range k).foldl
      (fun acc i => fadd (i :: j :: d) acc
        (fmul (i :: j :: d) (f.c.readLane n i j) (f.buf.readLane n ((start + i) &&& (f.len - 1)) j))) 0 := by
  induction k with
  | zero => rfl
  | succ k ih => rw [firDot, ih, List.range_succ, List.foldl_append, List.foldl_cons, List.foldl_nil]

theorem firPush_eq_firAfter (cfg : Config) (f : Fir) (v : Lanes) : firPush cfg f v = firAfter cfg f v := rfl

theorem firAfter_len (cfg : Config) (f : Fir) (v : Lanes) : (firAfter cfg f v).len = f.len := rfl

/-- The vector of dot products over a whole history is its convolution with the coefficients. -/
theorem vecOf_firDot_eq_firConvolution (cfg : Config) (d : Draw) (g : Fir) :
    vecOf cfg.n (fun j => firDot d cfg.n g g.idx j g.len) = firConvolution cfg d g := by
  simp only [vecOf, firConvolution, firDot_eq_foldl]

/-- One call of a unit whose indices lie in its spaces, in the terms of 40_fir.md R122. -/
theorem firStep_eq_firConvolution {cfg : Config} {f : Fir} (hf : firInSpace cfg f) (d : Draw) (v : Lanes) :
    firStep cfg d f v = some (firAfter cfg f v, firConvolution cfg d (firAfter cfg f v)) := by
  rw [firStep_of_inSpace hf, firPush_eq_firAfter, ← vecOf_firDot_eq_firConvolution, firAfter_len]

/-! The bodies -/

theorem firNewBody_of_lt {u : Nat} {s : State} (hu : u < s.fir.length) (len : Nat) :
    firNewBody u len s = .next (s.setFir u (newFir s.cfg u len)) :=
  withUnit_some (List.getElem?_eq_getElem hu) _

theorem firProcBody_of_inSpace {u : Nat} {s : State} {f : Fir} {v : Lanes} (hva : s.va = ⟨v, true⟩)
    (hfu : s.fir[u]? = some f) (hf : firInSpace s.cfg f) :
    firProcBody u s = .next
      ((s.setFir u (firAfter s.cfg f v)).writeVr (firConvolution s.cfg s.draw (firAfter s.cfg f v))).spend := by
  rw [firProcBody, hva, withLanes_written rfl, withFirStep_of_some hfu (firStep_eq_firConvolution hf _ _)]

/-! The statements -/

/-- Settles O23: the three faults are the checks of the fields in their order; past them the body puts a new unit in
place, whose coefficient memory is the table of `CFG.C[u]`. -/
theorem firNewConstructs : Obligations.FirNewConstructs := by
  unfold Obligations.FirNewConstructs
  intro s u len hr
  refine ⟨fun hu => ?_, fun hu hp => ?_, fun hu hp hl => ?_, fun hu hfile hp hl => ?_⟩
  · exact exec_ready_illegal hr (fieldCheck_firNew_of_unit_ge len hu)
  · exact exec_ready_illegal hr (fieldCheck_firNew_of_not_isPow2 hu hp)
  · exact exec_ready_illegal hr (fieldCheck_firNew_of_gt_lMax hu hp hl)
  · refine ⟨coefTable s.cfg u s.cfg.lMax, ?_, fun k hk j hj => coefTable_readLane s.cfg u s.cfg.lMax hk hj⟩
    exact exec_ready_next hr (fieldCheck_firNew_legal hu hp hl) (firNewBody_of_lt hfile len)

/-- Settles O24: an illegal unit is the fault of the field check; past it the body is one call of the unit, whose
dot products are the convolution. -/
theorem firProcConvolves : Obligations.FirProcConvolves := by
  unfold Obligations.FirProcConvolves
  intro s u hr
  refine ⟨fun hu => ?_, fun f v hu hva hfu hf => ?_⟩
  · exact exec_ready_illegal hr (fieldCheck_firProc_of_unit_ge hu)
  · exact exec_ready_next hr (fieldCheck_firProc_legal hu) (firProcBody_of_inSpace hva hfu hf)

end Sys2Proof.Proofs.FirUnit
end

section
/-! The oversampler (41_oversampler.md): OVS.UP (R131), OVS.DN (R132), and OVS.PROC as the sequence of three commands
(R133). -/

namespace Sys2Proof.Proofs.Oversampler

open Sys2Proof.Machine Sys2Proof.Claims Sys2Proof.Proofs.FirUnit

/-! The checks of the fields (30_encoding.md R92, R95) -/

theorem fieldCheck_ovsUp_of_unit_ge {cfg : Config} {o : Nat} (ho : cfg.nOvs ≤ o) :
    fieldCheck cfg (.ovsUp o) = some .illegal := by simp [fieldCheck, ho]

theorem fieldCheck_ovsUp_legal {cfg : Config} {o : Nat} (ho : o < cfg.nOvs) :
    fieldCheck cfg (.ovsUp o) = none := by simp [fieldCheck, ho]

theorem fieldCheck_ovsDn_of_unit_ge {cfg : Config} {o : Nat} (ho : cfg.nOvs ≤ o) :
    fieldCheck cfg (.ovsDn o) = some .illegal := by simp [fieldCheck, ho]

theorem fieldCheck_ovsDn_legal {cfg : Config} {o : Nat} (ho : o < cfg.nOvs) :
    fieldCheck cfg (.ovsDn o) = none := by simp [fieldCheck, ho]

theorem fieldCheck_ovsProc_of_unit_ge {cfg : Config} {o : Nat} (fn : Nat) (ho : cfg.nOvs ≤ o) :
    fieldCheck cfg (.ovsProc o fn) = some .illegal := by simp [fieldCheck, ho]

theorem fieldCheck_ovsProc_of_fn_gt {cfg : Config} {o fn : Nat} (ho : o < cfg.nOvs) (hfn : 1 < fn) :
    fieldCheck cfg (.ovsProc o fn) = some .illegal := by simp [fieldCheck, ho, hfn]

theorem fieldCheck_ovsProc_legal {cfg : Config} {o fn : Nat} (ho : o < cfg.nOvs) (hfn : fn ≤ 1) :
    fieldCheck cfg (.ovsProc o fn) = none := by simp [fieldCheck, ho, hfn]

/-- The shaper that `fn` of `OVS.PROC` selects has no field to check. -/
theorem fieldCheck_shaper (cfg : Config) (fn : Nat) :
    fieldCheck cfg (if fn = 0 then .wsRat else .wsDiode) = none := by split <;> rfl

/-! The bodies -/

/-- The body of the shaper that `fn` selects is the middle part of `OVS.PROC`. -/
theorem commandBody_shaper (fn : Nat) (s : State) :
    commandBody (if fn = 0 then .wsRat else .wsDiode) s = if fn = 0 then wsRatBody s else wsDiodeBody s := by
  split <;> rfl

theorem splat_eq_replicate (n : Nat) (x : F32) : splat n x = List.replicate n x := by
  simp [splat, vecOf, List.map_const']

theorem ovsUpBody_of_inSpace {o : Nat} {s : State} {f : Fir} {x : F32} (ha : s.a0 = ⟨x, true⟩)
    (hfu : s.fir[2 * o]? = some f) (hf : firInSpace s.cfg f) :
    ovsUpBody o s = .next
      (let g := firAfter s.cfg f (List.replicate s.cfg.n (fmul s.draw x (f32 s.cfg.n)))
       ((s.setFir (2 * o) g).writeVr (firConvolution s.cfg s.draw g)).spend) := by
  rw [ovsUpBody, ha, withOperand_written rfl, splat_eq_replicate,
    withFirStep_of_some hfu (firStep_eq_firConvolution hf _ _)]

/-- The lane sum is the fold over ascending lanes of 00_scope.md R14. -/
theorem hsum_eq_foldl (d : Draw) (n : Nat) (v : Lanes) :
    hsum d n v = (List.range n).foldl (fun acc j => fadd (j :: d) acc (v.getD j 0)) 0 := rfl

theorem ovsDnBody_of_inSpace {o : Nat} {s : State} {f : Fir} {v : Lanes} (hva : s.va = ⟨v, true⟩)
    (hfu : s.fir[2 * o + 1]? = some f) (hf : firInSpace s.cfg f) :
    ovsDnBody o s = .next
      (let g := firAfter s.cfg f v
       let out := firConvolution s.cfg s.draw g
       let total := (List.range s.cfg.n).foldl (fun acc j => fadd (j :: s.draw) acc (out.getD j 0)) 0
       (((s.setFir (2 * o + 1) g).writeVr out).writeR (fmul s.draw total (s.cfg.gOvs.getD o 0))).spend) := by
  rw [ovsDnBody, hva, withLanes_written rfl, withFirStep_of_some hfu (firStep_eq_firConvolution hf _ _),
    hsum_eq_foldl, gOvsOf]

/-- Either shaper completes on a written VA and leaves the FIR units as they were. -/
theorem shapeBody_completes (fn : Nat) {s : State} (hva : s.va.written = true) :
    ∃ m, (if fn = 0 then wsRatBody s else wsDiodeBody s) = .next m ∧ m.fir = s.fir := by
  split
  · exact ⟨_, withLanes_written hva _, rfl⟩
  · exact ⟨_, withLanes_written hva _, rfl⟩

/-- `OVS.UP` completes and leaves the down unit of its oversampler as it was. -/
theorem ovsUpBody_completes {o : Nat} {s : State} {f : Fir} {x : F32} (ha : s.a0 = ⟨x, true⟩)
    (hfu : s.fir[2 * o]? = some f) (hf : firInSpace s.cfg f) :
    ∃ m, ovsUpBody o s = .next m ∧ m.fir[2 * o + 1]? = s.fir[2 * o + 1]? := by
  refine ⟨_, ovsUpBody_of_inSpace ha hfu hf, ?_⟩
  rw [State.spend_fir, State.writeVr_fir, State.setFir_fir, List.getElem?_set_ne (by omega)]

/-- `OVS.PROC` completes: the up call and the shaper leave the down unit as it was, and each transfer `VA <- VR`
writes the operand of the part after it. -/
theorem ovsProcBody_completes {o fn : Nat} {s : State} {f f' : Fir} {x : F32} (ha : s.a0 = ⟨x, true⟩)
    (hup : s.fir[2 * o]? = some f) (hf : firInSpace s.cfg f) (hdn : s.fir[2 * o + 1]? = some f')
    (hf' : firInSpace s.cfg f') : ∃ m, ovsProcBody o fn s = .next m := by
  obtain ⟨m1, h1, hfir1⟩ := ovsUpBody_completes ha hup hf
  obtain ⟨m2, h2, hfir2⟩ := shapeBody_completes fn (s := vaFromVr m1) rfl
  have hcfg : m2.cfg = s.cfg := (((ovsUpBody_quiet h1).comp (vaFromVr_quiet m1)).comp (shapeBody_quiet h2)).cfg
  have hdn2 : m2.fir[2 * o + 1]? = some f' := by rw [hfir2, vaFromVr, State.writeVa_fir, hfir1, hdn]
  rw [ovsProcBody, h1, andThen_next, h2, andThen_next]
  exact ⟨_, ovsDnBody_of_inSpace (s := vaFromVr m2) rfl hdn2 (hcfg.symm ▸ hf')⟩

/-! The sequence -/

/-- A command that completes in READY completes from any pc, and leaves pc one further on. -/
theorem exec_atPc_next {i : Instr} {s m : State} (hr : s.isReady = true) (hf : fieldCheck s.cfg i = none)
    (hb : commandBody i s = .next m) (p : Nat) : exec i (s.atPc p) = .next (m.atPc (p + 1)) := by
  have hb' : commandBody i (s.atPc p) = .next (m.atPc p) := by rw [commandBody_atPc, hb]; rfl
  exact exec_ready_next (s := s.atPc p) hr hf hb'

theorem isReady_of_quiet {s m : State} (h : Quiet s m) (hr : s.isReady = true) : m.isReady = true := by
  rwa [State.isReady, State.isConfigured, State.isFaulted, h.st]

/-- Where `OVS.PROC` completes, its three parts complete as commands of their own, each from the pc the one before it
left; the last leaves the same state but for pc. -/
theorem exec_parts_of_ovsProcBody {o fn : Nat} {s m : State} (hr : s.isReady = true) (ho : o < s.cfg.nOvs)
    (h : ovsProcBody o fn s = .next m) :
    ∃ m1 m2, exec (.ovsUp o) s = .next (m1.atPc (s.pc + 1)) ∧
      exec (if fn = 0 then .wsRat else .wsDiode) ((vaFromVr m1).atPc (s.pc + 1)) = .next (m2.atPc (s.pc + 2)) ∧
      exec (.ovsDn o) ((vaFromVr m2).atPc (s.pc + 2)) = .next (m.atPc (s.pc + 3)) := by
  obtain ⟨m1, m2, h1, h2, h3⟩ := ovsProcBody_eq_next h
  have q1 : Quiet s (vaFromVr m1) := (ovsUpBody_quiet h1).comp (vaFromVr_quiet m1)
  have q2 : Quiet s (vaFromVr m2) := q1.comp ((shapeBody_quiet h2).comp (vaFromVr_quiet m2))
  refine ⟨m1, m2, ?_, ?_, ?_⟩
  · exact exec_atPc_next hr (fieldCheck_ovsUp_legal ho) h1 s.pc
  · have hshape := (commandBody_shaper fn _).trans h2
    exact exec_atPc_next (isReady_of_quiet q1 hr) (fieldCheck_shaper _ fn) hshape (s.pc + 1)
  · exact exec_atPc_next (isReady_of_quiet q2 hr) (fieldCheck_ovsDn_legal (q2.cfg ▸ ho)) h3 (s.pc + 2)

/-! The statements -/

/-- Settles O25: an illegal oversampler is the fault of the field check; past it the body is one call of the up filter
on the broadcast product. -/
theorem ovsUpResult : Obligations.OvsUpResult := by
  unfold Obligations.OvsUpResult
  intro s o hr
  refine ⟨fun ho => ?_, fun f x ho ha hfu hf => ?_⟩
  · exact exec_ready_illegal hr (fieldCheck_ovsUp_of_unit_ge ho)
  · rw [exec_ready_next hr (fieldCheck_ovsUp_legal ho) (ovsUpBody_of_inSpace ha hfu hf)]
    simp only [State.tick, State.spend, State.writeVr, State.setFir, State.draw]

/-- Settles O26: an illegal oversampler is the fault of the field check; past it the body is one call of the down
filter on VA, whose lane sum is scaled once. -/
theorem ovsDnResult : Obligations.OvsDnResult := by
  unfold Obligations.OvsDnResult
  intro s o hr
  refine ⟨fun ho => ?_, fun f v ho hva hfu hf => ?_⟩
  · exact exec_ready_illegal hr (fieldCheck_ovsDn_of_unit_ge ho)
  · rw [exec_ready_next hr (fieldCheck_ovsDn_legal ho) (ovsDnBody_of_inSpace hva hfu hf)]
    simp only [State.tick, State.spend, State.writeR, State.writeVr, State.setFir, State.draw]

/-- Settles O27: the two faults are the checks of the fields in their order; past them the command completes, its
parts are the three commands run from their own pc, and no part reads pc. -/
theorem ovsProcIsTheSequence : Obligations.OvsProcIsTheSequence := by
  unfold Obligations.OvsProcIsTheSequence
  intro s o fn hr
  refine ⟨fun ho => ?_, fun ho hfn => ?_, fun f f' x ho hfn ha hup hf hdn hf' => ?_⟩
  · exact exec_ready_illegal hr (fieldCheck_ovsProc_of_unit_ge fn ho)
  · exact exec_ready_illegal hr (fieldCheck_ovsProc_of_fn_gt ho hfn)
  · obtain ⟨m, hm⟩ := ovsProcBody_completes (fn := fn) ha hup hf hdn hf'
    obtain ⟨m1, m2, hexecUp, hexecShaper, hexecDn⟩ := exec_parts_of_ovsProcBody hr ho hm
    exact ⟨_, _, _, hexecUp, hexecShaper, hexecDn, exec_atPc_next hr (fieldCheck_ovsProc_legal ho hfn) hm s.pc⟩

end Sys2Proof.Proofs.Oversampler
end

section
/-! The nonlinear waveshaper (42_waveshaper.md): WS.RAT (R142) and WS.DIODE (R144), each a function of one lane applied
to every lane of VA. -/

namespace Sys2Proof.Proofs.Waveshaper

open Sys2Proof.Machine

/-! The functions of one lane -/

/-- A value differs from itself exactly when it is a NaN (00_scope.md R10): the first test of the diode table. -/
theorem fne_self (x : F32) : fne x x = isNaN x := by simp [fne, feq]

/-- The saturator of one lane, as the tree of operations of R142. -/
theorem ratShape_eq (c1 c3 : F32) (d : Draw) (x : F32) :
    ratShape c1 c3 d x =
      (let x2 := fmul d x x
       let x3 := fmul d x2 x
       let x5 := fmul d x3 x2
       let a := fadd d (fadd d x (fmul d c1 x3)) (fmul d c3 x5)
       fdiv d a (fsqrt d (fadd d 0x3F800000 (fmul d a a)))) := rfl

/-- The half-table at a position: a NaN is kept, a position at or past the last entry is clamped to it, any other is
interpolated between its neighbours. -/
theorem diodeAt_eq (cfg : Config) (d : Draw) (p : F32) :
    diodeAt cfg d p =
      (let tab := cfg.dtTab
       let i := intOf (ffloor d p)
       if isNaN p = true then p
       else if fle (f32 (tab.length - 1)) p = true then tab.getD (tab.length - 1) 0
       else fadd d (tab.getD i 0) (fmul d (fsub d p (f32 i)) (fsub d (tab.getD (i + 1) 0) (tab.getD i 0)))) := by
  rw [diodeAt, fne_self]

/-! The bodies -/

theorem wsRatBody_of_written {s : State} {v : Lanes} (hva : s.va = ⟨v, true⟩) :
    wsRatBody s = .next
      (s.writeVr (vecOf s.cfg.n fun j => ratShape s.cfg.wsC1 s.cfg.wsC3 (j :: s.draw) (lane v j))).spend := by
  rw [wsRatBody, hva, withLanes_written rfl]

theorem wsDiodeBody_of_written {s : State} {v : Lanes} (hva : s.va = ⟨v, true⟩) :
    wsDiodeBody s = .next
      (s.writeVr (vecOf s.cfg.n fun j => diodeShape s.cfg (j :: s.draw) (lane v j))).spend := by
  rw [wsDiodeBody, hva, withLanes_written rfl]

/-! The statements -/

/-- Settles O30: WS.RAT has no field to check and its body completes on a written VA; each lane is the saturator's
tree of operations. -/
theorem wsRatResult : Obligations.WsRatResult := by
  unfold Obligations.WsRatResult
  intro s v hr hva
  rw [exec_ready_next (i := .wsRat) hr rfl (wsRatBody_of_written hva)]
  simp only [State.tick, State.spend, State.writeVr, State.draw, vecOf, lane, ratShape_eq]

/-- Settles O31: WS.DIODE has no field to check and its body completes on a written VA; each lane is the half-table at
the scaled magnitude, with the sign of the lane put back. -/
theorem wsDiodeResult : Obligations.WsDiodeResult := by
  unfold Obligations.WsDiodeResult
  intro s v hr hva
  rw [exec_ready_next (i := .wsDiode) hr rfl (wsDiodeBody_of_written hva)]
  simp only [State.tick, State.spend, State.writeVr, State.draw, vecOf, lane, diodeShape, diodeAt_eq]

end Sys2Proof.Proofs.Waveshaper
end

section
/-! The one-pole procedure (44_onepole.md R171): the model's two steps, the cache test and the sample, are the one
function the statements are written with. -/

namespace Sys2Proof.Proofs.OnePoleFilter

open Sys2Proof.Machine Sys2Proof.Claims

/-- The pole is computed anew exactly where the record is not valid or the cutoff is not IEEE-equal to the cached one. -/
theorem onePole_eq_onePoleAfter (w : F32) (d : Draw) (f : OnePole) (input cutoff : F32) :
    onePole w d f input cutoff = onePoleAfter w d f input cutoff := by
  unfold onePole refreshPole onePoleAfter
  obtain ⟨z, b1, fcLast, valid⟩ := f
  cases valid with
  | false => rfl
  | true => cases hcut : feq cutoff fcLast <;> simp [fne, hcut, onePoleResult, one32]

end Sys2Proof.Proofs.OnePoleFilter
end

section
/-! The analog filter stage (43_analog_filter.md): AFS.COEF (R153, R154, R156), AFS.STEP (R155), and AFS.PROC as their
sequence with the gain correction (R157). -/

namespace Sys2Proof.Proofs.AnalogFilter

open Sys2Proof.Machine Sys2Proof.Claims Sys2Proof.Proofs.OnePoleFilter Sys2Proof.Proofs.Oversampler

/-! The checks of the fields (30_encoding.md R92, R95) -/

/-- The three commands of a stage have the same check: the index of the stage. -/
theorem fieldCheck_afs {i : Instr} {u : Nat} (hi : i ∈ [.afsCoef u, .afsStep u, .afsProc u]) (cfg : Config) :
    fieldCheck cfg i = if u < cfg.nAfs then none else some .illegal := by
  simp only [List.mem_cons, List.not_mem_nil, or_false] at hi
  rcases hi with rfl | rfl | rfl <;> rfl

theorem fieldCheck_afs_of_unit_ge {i : Instr} {u : Nat} {cfg : Config} (hu : cfg.nAfs ≤ u)
    (hi : i ∈ [.afsCoef u, .afsStep u, .afsProc u] := by simp) : fieldCheck cfg i = some .illegal := by
  rw [fieldCheck_afs hi, if_neg (by omega)]

theorem fieldCheck_afs_legal {i : Instr} {u : Nat} {cfg : Config} (hu : u < cfg.nAfs)
    (hi : i ∈ [.afsCoef u, .afsStep u, .afsProc u] := by simp) : fieldCheck cfg i = none := by
  rw [fieldCheck_afs hi, if_pos hu]

/-! The bodies -/

theorem afsCoefBody_of_written {u : Nat} {s : State} {f : Afs} {control : F32} (ha : s.a1 = ⟨control, true⟩)
    (hf : s.afs[u]? = some f) : afsCoefBody u s = .next (s.setAfs u (afsCoefs s u control f)).spend := by
  rw [afsCoefBody, ha, withOperand_written rfl, withUnit_some hf]

theorem afsStepBody_of_written {u : Nat} {s : State} {f : Afs} {x : F32} (ha : s.a0 = ⟨x, true⟩)
    (hf : s.afs[u]? = some f) :
    afsStepBody u s = .next
      (let y := afsOutput s.draw f x
       ((s.setAfs u (afsAdvance s.draw f x y)).writeR y).spend) := by
  rw [afsStepBody, ha, withOperand_written rfl, withUnit_some hf]

theorem afsGainBody_of_unit {u : Nat} {s : State} {f : Afs} (hf : s.afs[u]? = some f) :
    afsGainBody u s = .next
      (let op := onePoleAfter s.w s.draw f.gc s.r.val f.gfc
       ((s.setAfs u { f with gc := op }).writeR op.z).spend) := by
  rw [afsGainBody, withUnit_some hf, onePole_eq_onePoleAfter]

/-! The sequence -/

/-- With both operands written, the first two parts of `AFS.PROC` complete one after the other; they leave a record of
the stage for the gain correction, and each has drawn its free values. -/
theorem afs_parts_complete {u : Nat} {s : State} {f : Afs} {x control : F32} (hx : s.a0 = ⟨x, true⟩)
    (hcontrol : s.a1 = ⟨control, true⟩) (hf : s.afs[u]? = some f) :
    ∃ m1 m2 g, afsCoefBody u s = .next m1 ∧ afsStepBody u m1 = .next m2 ∧ m2.afs[u]? = some g ∧
      m2.draws = s.draws + 2 := by
  have hf1 : (s.setAfs u (afsCoefs s u control f)).spend.afs[u]? = some (afsCoefs s u control f) :=
    List.getElem?_set_self (List.getElem?_eq_some_iff.mp hf).1
  exact ⟨_, _, _, afsCoefBody_of_written hcontrol hf, afsStepBody_of_written hx hf1,
    List.getElem?_set_self (List.getElem?_eq_some_iff.mp hf1).1, rfl⟩

/-- `AFS.PROC` is its three parts, the last of them on the state the first two leave. -/
theorem afsProcBody_of_parts {u : Nat} {s m1 m2 : State} (h1 : afsCoefBody u s = .next m1)
    (h2 : afsStepBody u m1 = .next m2) : afsProcBody u s = afsGainBody u m2 := by
  rw [afsProcBody, h1, andThen_next, h2, andThen_next]

/-! The statements -/

/-- Settles O34: an illegal stage is the fault of the field check; past it the body stores the two transformed
polynomials, normalised, and the cutoff. -/
theorem afsCoefResult : Obligations.AfsCoefResult := by
  unfold Obligations.AfsCoefResult
  intro s u hr
  refine ⟨fun hu => ?_, fun f control hu ha hf => ?_⟩
  · exact exec_ready_illegal hr (fieldCheck_afs_of_unit_ge hu)
  · rw [exec_ready_next (i := .afsCoef u) hr (fieldCheck_afs_legal hu) (afsCoefBody_of_written ha hf)]
    simp only [State.tick, State.spend, State.setAfs, State.draw, afsCoefs, storeCoefs, gainCutoff, afsRefOf, bilinear,
      negThree32, three32, Matrix.cons_val]

/-- Settles O36: an illegal stage is the fault of the field check; past it the body is one sample of the filter, its
output in R. -/
theorem afsStepResult : Obligations.AfsStepResult := by
  unfold Obligations.AfsStepResult
  intro s u hr
  refine ⟨fun hu => ?_, fun f x hu ha hf => ?_⟩
  · exact exec_ready_illegal hr (fieldCheck_afs_of_unit_ge hu)
  · rw [exec_ready_next (i := .afsStep u) hr (fieldCheck_afs_legal hu) (afsStepBody_of_written ha hf)]
    simp only [State.tick, State.spend, State.writeR, State.setAfs, State.draw, afsOutput, afsAdvance]

/-- Settles O37: an illegal stage is the fault of the field check; past it the first two parts complete as commands of
their own, each from the pc the one before it left, and the gain correction runs on the state they leave, because no
part reads pc. -/
theorem afsProcIsTheSequence : Obligations.AfsProcIsTheSequence := by
  unfold Obligations.AfsProcIsTheSequence
  intro s u hr
  refine ⟨fun hu => ?_, fun f x control hu hx hcontrol hf => ?_⟩
  · exact exec_ready_illegal hr (fieldCheck_afs_of_unit_ge hu)
  obtain ⟨m1, m2, g, h1, h2, hg, hdraws⟩ := afs_parts_complete hx hcontrol hf
  have q1 : Quiet s m1 := afsCoefBody_quiet h1
  have q2 : Quiet s m2 := q1.comp (afsStepBody_quiet h2)
  obtain ⟨_, _, _, _, hw⟩ := q2.consts
  have hproc := (afsProcBody_of_parts h1 h2).trans (afsGainBody_of_unit hg)
  rw [State.draw, hdraws, hw] at hproc
  refine ⟨m1.atPc (s.pc + 1), m2.atPc (s.pc + 2), g, ?_, ?_, hg, ?_⟩
  · exact exec_atPc_next (i := .afsCoef u) hr (fieldCheck_afs_legal hu) h1 s.pc
  · exact exec_atPc_next (i := .afsStep u) (isReady_of_quiet q1 hr) (fieldCheck_afs_legal (q1.cfg ▸ hu)) h2 (s.pc + 1)
  · rw [exec_ready_next (i := .afsProc u) hr (fieldCheck_afs_legal hu) hproc]
    simp only [State.tick, State.spend, State.writeR, State.setAfs, State.atPc, hdraws, q2.pc]

end Sys2Proof.Proofs.AnalogFilter
end

section
/-! OPF.PROC (44_onepole.md R171): one call of the one-pole procedure on a filter of its own. -/

namespace Sys2Proof.Proofs.OnePoleCommand

open Sys2Proof.Machine Sys2Proof.Claims Sys2Proof.Proofs.OnePoleFilter

/-! The check of the fields (30_encoding.md R92, R95) -/

theorem fieldCheck_opfProc_of_unit_ge {u : Nat} {cfg : Config} (hu : cfg.nOpf ≤ u) :
    fieldCheck cfg (.opfProc u) = some .illegal := if_neg (Nat.not_lt.mpr hu)

theorem fieldCheck_opfProc_legal {u : Nat} {cfg : Config} (hu : u < cfg.nOpf) :
    fieldCheck cfg (.opfProc u) = none := if_pos hu

/-! The body -/

/-- Past the reads of its two operands and of its unit, the body is one call of the procedure, stored and in R. -/
theorem opfProcBody_of_written {u : Nat} {s : State} {f : OnePole} {x cutoff : F32} (hx : s.a0 = ⟨x, true⟩)
    (hcutoff : s.a1 = ⟨cutoff, true⟩) (hf : s.opf[u]? = some f) :
    opfProcBody u s = .next
      (let g := onePoleAfter s.w s.draw f x cutoff
       ((s.setOpf u g).writeR g.z).spend) := by
  rw [opfProcBody, hx, withOperand_written rfl, hcutoff, withOperand_written rfl, withUnit_some hf,
    onePole_eq_onePoleAfter]

/-! The statement -/

/-- Settles O38: an illegal filter is the fault of the field check; past it the body is one call of the one-pole
procedure, whose record is stored and whose value is in R. -/
theorem opfProcResult : Obligations.OpfProcResult := by
  unfold Obligations.OpfProcResult
  intro s u hr
  refine ⟨fun hu => ?_, fun f x cutoff hu hx hcutoff hf => ?_⟩
  · exact exec_ready_illegal hr (fieldCheck_opfProc_of_unit_ge hu)
  · exact exec_ready_next hr (fieldCheck_opfProc_legal hu) (opfProcBody_of_written hx hcutoff hf)

end Sys2Proof.Proofs.OnePoleCommand
end

section
/-! The parameter smoothers (45_smoothers.md): the linear ramp RMP.SET (R181), RMP.STEP (R182), RMP.PROC as their
sequence (R183) and RMP.INIT (R184); the exponential smoother EXS.PROC (R186) and EXS.INIT (R187). -/

namespace Sys2Proof.Proofs.Smoothers

open Sys2Proof.Machine Sys2Proof.Claims Sys2Proof.Proofs.OnePoleFilter Sys2Proof.Proofs.Oversampler

/-! The checks of the fields (30_encoding.md R92, R95) -/

/-- The four commands of a ramp have the same check: the index of the ramp. -/
theorem fieldCheck_rmp {i : Instr} {u : Nat} (hi : i ∈ [.rmpSet u, .rmpStep u, .rmpProc u, .rmpInit u])
    (cfg : Config) : fieldCheck cfg i = if u < cfg.nRmp then none else some .illegal := by
  simp only [List.mem_cons, List.not_mem_nil, or_false] at hi
  rcases hi with rfl | rfl | rfl | rfl <;> rfl

theorem fieldCheck_rmp_of_unit_ge {i : Instr} {u : Nat} {cfg : Config} (hu : cfg.nRmp ≤ u)
    (hi : i ∈ [.rmpSet u, .rmpStep u, .rmpProc u, .rmpInit u]) : fieldCheck cfg i = some .illegal := by
  rw [fieldCheck_rmp hi, if_neg (Nat.not_lt.mpr hu)]

theorem fieldCheck_rmp_legal {i : Instr} {u : Nat} {cfg : Config} (hu : u < cfg.nRmp)
    (hi : i ∈ [.rmpSet u, .rmpStep u, .rmpProc u, .rmpInit u]) : fieldCheck cfg i = none := by
  rw [fieldCheck_rmp hi, if_pos hu]

/-- The two commands of an exponential smoother have the same check: the index of the smoother. -/
theorem fieldCheck_exs {i : Instr} {u : Nat} (hi : i ∈ [.exsProc u, .exsInit u]) (cfg : Config) :
    fieldCheck cfg i = if u < cfg.nExs then none else some .illegal := by
  simp only [List.mem_cons, List.not_mem_nil, or_false] at hi
  rcases hi with rfl | rfl <;> rfl

theorem fieldCheck_exs_of_unit_ge {i : Instr} {u : Nat} {cfg : Config} (hu : cfg.nExs ≤ u)
    (hi : i ∈ [.exsProc u, .exsInit u]) : fieldCheck cfg i = some .illegal := by
  rw [fieldCheck_exs hi, if_neg (Nat.not_lt.mpr hu)]

theorem fieldCheck_exs_legal {i : Instr} {u : Nat} {cfg : Config} (hu : u < cfg.nExs)
    (hi : i ∈ [.exsProc u, .exsInit u]) : fieldCheck cfg i = none := by
  rw [fieldCheck_exs hi, if_pos hu]

/-! The ramp -/

/-- A target IEEE-equal to the previous one leaves the ramp alone, any other (a NaN among them) starts it in full. -/
theorem rampSet_eq (rs : Nat) (d : Draw) (t : F32) (f : Ramp) :
    rampSet rs d t f =
      if feq t f.tgt = true then f
      else { cur := f.cur, tgt := t, step := fdiv d (fsub d t f.cur) (f32 rs), cnt := rs } := by
  rw [rampSet, fne]
  cases feq t f.tgt <;> rfl

/-- At counter 0 the step holds the ramp as it is: the truncated decrement keeps the 0. -/
theorem rampStep_eq (d : Draw) (f : Ramp) :
    rampStep d f = { f with cur := if f.cnt = 0 then f.cur else fadd d f.cur f.step, cnt := f.cnt - 1 } := by
  obtain ⟨cur, tgt, step, cnt⟩ := f
  cases cnt with
  | zero => simp only [rampStep, lt_irrefl, if_false, if_true, Nat.zero_sub]
  | succ n => simp only [rampStep, Nat.succ_pos, Nat.succ_ne_zero, if_true, if_false]

/-! The bodies -/

theorem rmpSetBody_of_written {u : Nat} {s : State} {f : Ramp} {x : F32} (hx : s.a0 = ⟨x, true⟩)
    (hf : s.rmp[u]? = some f) :
    rmpSetBody u s = .next (s.setRmp u (rampSet (rampSamplesOf s.cfg u) s.draw x f)).spend := by
  rw [rmpSetBody, hx, withOperand_written rfl, withUnit_some hf]

theorem rmpStepBody_of_unit {u : Nat} {s : State} {f : Ramp} (hf : s.rmp[u]? = some f) :
    rmpStepBody u s = .next ((s.setRmp u (rampStep s.draw f)).writeR (rampStep s.draw f).cur).spend := by
  rw [rmpStepBody, withUnit_some hf]

theorem rmpInitBody_of_written {u : Nat} {s : State} {x : F32} (hx : s.a0 = ⟨x, true⟩) (hu : u < s.rmp.length) :
    rmpInitBody u s = .next (s.setRmp u (rampAt x)) := by
  rw [rmpInitBody, hx, withOperand_written rfl, withUnit_some (List.getElem?_eq_getElem hu)]

/-- Past the reads of its operand and of its unit, the body is one call of the one-pole procedure at the configured
cutoff, stored and in R. -/
theorem exsProcBody_of_written {u : Nat} {s : State} {f : Exs} {x : F32} (hx : s.a0 = ⟨x, true⟩)
    (hf : s.exs[u]? = some f) :
    exsProcBody u s = .next
      (let g := onePoleAfter s.w s.draw f.op x (exsFcOf s.cfg u)
       ((s.setExs u ⟨g⟩).writeR g.z).spend) := by
  rw [exsProcBody, hx, withOperand_written rfl, withUnit_some hf, onePole_eq_onePoleAfter]

theorem exsInitBody_of_written {u : Nat} {s : State} {f : Exs} {x : F32} (hx : s.a0 = ⟨x, true⟩)
    (hf : s.exs[u]? = some f) : exsInitBody u s = .next (s.setExs u ⟨{ f.op with z := x }⟩) := by
  rw [exsInitBody, hx, withOperand_written rfl, withUnit_some hf]

/-! The sequence -/

/-- With its operand written, `RMP.PROC` completes: its set part leaves a record of the ramp for its step part. -/
theorem rmpProcBody_completes {u : Nat} {s : State} {f : Ramp} {x : F32} (hx : s.a0 = ⟨x, true⟩)
    (hf : s.rmp[u]? = some f) : ∃ m, rmpProcBody u s = .next m := by
  have hset (g : Ramp) : (s.setRmp u g).spend.rmp[u]? = some g :=
    List.getElem?_set_self (List.getElem?_eq_some_iff.mp hf).1
  rw [rmpProcBody, rmpSetBody_of_written hx hf, andThen_next]
  exact ⟨_, rmpStepBody_of_unit (hset _)⟩

/-- Where `RMP.PROC` completes, its two parts complete as commands of their own, the second from the pc the first
left; the last leaves the same state but for pc. -/
theorem exec_parts_of_rmpProcBody {u : Nat} {s m : State} (hr : s.isReady = true) (hu : u < s.cfg.nRmp)
    (h : rmpProcBody u s = .next m) :
    ∃ m1 : State, exec (.rmpSet u) s = .next (m1.atPc (s.pc + 1)) ∧
      exec (.rmpStep u) (m1.atPc (s.pc + 1)) = .next (m.atPc (s.pc + 2)) := by
  obtain ⟨m1, h1, h2⟩ := rmpProcBody_eq_next h
  have q1 : Quiet s m1 := rmpSetBody_quiet h1
  refine ⟨m1, ?_, ?_⟩
  · exact exec_atPc_next (i := .rmpSet u) hr (fieldCheck_rmp_legal hu (by simp)) h1 s.pc
  · exact exec_atPc_next (i := .rmpStep u) (isReady_of_quiet q1 hr) (fieldCheck_rmp_legal (q1.cfg ▸ hu) (by simp))
      h2 (s.pc + 1)

/-! The statements -/

/-- Settles O42: an illegal ramp is the fault of the field check; past it the command completes, its parts are the two
commands run from their own pc, and no part reads pc. -/
theorem rmpProcIsTheSequence : Obligations.RmpProcIsTheSequence := by
  unfold Obligations.RmpProcIsTheSequence
  intro s u hr
  refine ⟨fun hu => ?_, fun f x hu hx hf => ?_⟩
  · exact exec_ready_illegal hr (fieldCheck_rmp_of_unit_ge hu (by simp))
  · obtain ⟨m, hm⟩ := rmpProcBody_completes hx hf
    obtain ⟨m1, hset, hstep⟩ := exec_parts_of_rmpProcBody hr hu hm
    exact ⟨_, _, hset, hstep, exec_atPc_next (i := .rmpProc u) hr (fieldCheck_rmp_legal hu (by simp)) hm s.pc⟩

/-- Settles O40: an illegal ramp is the fault of the field check; past it the body sets the ramp's target, which does
something only where the target differs from the previous one. -/
theorem rmpSetResult : Obligations.RmpSetResult := by
  unfold Obligations.RmpSetResult
  intro s u hr
  refine ⟨fun hu => ?_, fun f x hu hx hf => ?_⟩
  · exact exec_ready_illegal hr (fieldCheck_rmp_of_unit_ge hu (by simp))
  · rw [exec_ready_next (i := .rmpSet u) hr (fieldCheck_rmp_legal hu (by simp)) (rmpSetBody_of_written hx hf),
      rampSet_eq]
    rfl

/-- Settles O41: an illegal ramp is the fault of the field check; past it the body is one step of the ramp, its value
in R. -/
theorem rmpStepResult : Obligations.RmpStepResult := by
  unfold Obligations.RmpStepResult
  intro s u hr
  refine ⟨fun hu => ?_, fun f hu hf => ?_⟩
  · exact exec_ready_illegal hr (fieldCheck_rmp_of_unit_ge hu (by simp))
  · rw [exec_ready_next (i := .rmpStep u) hr (fieldCheck_rmp_legal hu (by simp)) (rmpStepBody_of_unit hf),
      rampStep_eq]
    rfl

/-- Settles O43: an illegal smoother of either kind is the fault of the field check; past it the ramp is replaced
whole, and of the exponential smoother only `z`. -/
theorem smootherInitResults : Obligations.SmootherInitResults := by
  unfold Obligations.SmootherInitResults
  intro s u hr
  refine ⟨fun hu => ?_, fun hu => ?_, fun x hx => ⟨fun hu hfile => ?_, fun f hu hf => ?_⟩⟩
  · exact exec_ready_illegal hr (fieldCheck_rmp_of_unit_ge hu (by simp))
  · exact exec_ready_illegal hr (fieldCheck_exs_of_unit_ge hu (by simp))
  · exact exec_ready_next (i := .rmpInit u) hr (fieldCheck_rmp_legal hu (by simp)) (rmpInitBody_of_written hx hfile)
  · exact exec_ready_next (i := .exsInit u) hr (fieldCheck_exs_legal hu (by simp)) (exsInitBody_of_written hx hf)

/-- Settles O44: an illegal smoother is the fault of the field check; past it the body is one call of the one-pole
procedure with the cutoff `EXS_FC[u]`, whose record is stored and whose value is in R. -/
theorem exsProcResult : Obligations.ExsProcResult := by
  unfold Obligations.ExsProcResult
  intro s u hr
  refine ⟨fun hu => ?_, fun f x hu hx hf => ?_⟩
  · exact exec_ready_illegal hr (fieldCheck_exs_of_unit_ge hu (by simp))
  · exact exec_ready_next (i := .exsProc u) hr (fieldCheck_exs_legal hu (by simp)) (exsProcBody_of_written hx hf)

end Sys2Proof.Proofs.Smoothers
end

section
/-! The delay buffer (46_delay.md): DLY.WR (R201) and DLY.RD (R202, R203). -/

namespace Sys2Proof.Proofs.DelayBuffer

open Sys2Proof.Machine Sys2Proof.Claims

/-! The checks of the fields (30_encoding.md R92, R95) -/

theorem fieldCheck_dlyWr_of_unit_ge {u : Nat} {cfg : Config} (hu : cfg.nDly ≤ u) :
    fieldCheck cfg (.dlyWr u) = some .illegal := if_neg (Nat.not_lt.mpr hu)

theorem fieldCheck_dlyWr_legal {u : Nat} {cfg : Config} (hu : u < cfg.nDly) :
    fieldCheck cfg (.dlyWr u) = none := if_pos hu

theorem fieldCheck_dlyRd_of_unit_ge {u : Nat} {cfg : Config} (mode : Nat) (hu : cfg.nDly ≤ u) :
    fieldCheck cfg (.dlyRd u mode) = some .illegal := if_neg (Nat.not_lt.mpr hu)

/-- A mode other than 0 is illegal for every unit, one that does not exist included. -/
theorem fieldCheck_dlyRd_of_mode_ne_zero {mode : Nat} (cfg : Config) (u : Nat) (hmode : mode ≠ 0) :
    fieldCheck cfg (.dlyRd u mode) = some .illegal := by
  by_cases hu : u < cfg.nDly
  · exact (if_pos hu).trans (if_neg fun h => hmode (Nat.le_zero.mp h))
  · exact fieldCheck_dlyRd_of_unit_ge mode (Nat.not_lt.mp hu)

theorem fieldCheck_dlyRd_legal {u : Nat} {cfg : Config} (hu : u < cfg.nDly) :
    fieldCheck cfg (.dlyRd u 0) = none := if_pos hu

/-! The procedures of the buffer -/

/-- The least non-negative residue of a natural position is the remainder. -/
theorem ringIndex_natCast (cap n : Nat) : ringIndex cap (n : Int) = n % cap := by
  rw [ringIndex, ← Int.natCast_mod, Int.toNat_natCast]

theorem delayWrite_eq_delayAfter (f : Delay) (x : F32) : delayWrite f x = delayAfter f x := by
  have hw : ringIndex f.cap ((f.w : Int) + 1) = (f.w + 1) % f.cap := ringIndex_natCast f.cap (f.w + 1)
  rw [delayWrite, delayAfter, hw]

/-- The older of the two bracketing samples lies one more place behind the cursor. -/
theorem delaySample_succ (f : Delay) (i : Nat) :
    delaySample f (i + 1) = f.buf.read (((f.w : Int) - 2 - i) % f.cap).toNat := by
  have hp : (f.w : Int) - 1 - ((i + 1 : Nat) : Int) = (f.w : Int) - 2 - i := by omega
  rw [delaySample, ringIndex, hp]

/-- The blend with both samples read at their positions behind the cursor (46_delay.md R202). -/
theorem delayBlend_eq (d : Draw) (f : Delay) (o : F32) :
    delayBlend d f o =
      (let i := intOf (ffloor d o)
       let x0 := f.buf.read (((f.w : Int) - 1 - i) % f.cap).toNat
       let x1 := f.buf.read (((f.w : Int) - 2 - i) % f.cap).toNat
       fadd d x0 (fmul d (fsub d o (f32 i)) (fsub d x1 x0))) := by
  simp only [delayBlend, delaySample_succ]
  rfl

theorem delayInRange_iff (f : Delay) (o : F32) :
    delayInRange f o = true ↔ fle 0 o = true ∧ flt o (f32 (f.cap - 1)) = true := by
  rw [delayInRange, Bool.and_eq_true]

theorem delayRead_of_inRange {d : Draw} {f : Delay} {t : F32} (h : delayInRange f (fmul d t f.scale) = true) :
    delayRead d f t = some (delayBlend d f (fmul d t f.scale)) := if_pos h

theorem delayRead_of_not_inRange {d : Draw} {f : Delay} {t : F32} (h : ¬ delayInRange f (fmul d t f.scale) = true) :
    delayRead d f t = none := if_neg h

/-! The bodies -/

/-- Past the reads of its operand and of its buffer, the body is one write of the operand. -/
theorem dlyWrBody_of_good {u : Nat} {s : State} {f : Delay} {x : F32} (hx : s.a0 = ⟨x, true⟩)
    (hf : s.dly[u]? = some f) (hg : delayGood s.cfg f) : dlyWrBody u s = .next (s.setDly u (delayAfter f x)) := by
  rw [dlyWrBody, hx, withOperand_written rfl, withUnit_some hf, if_pos (delayInSpace_of_good hg),
    delayWrite_eq_delayAfter]

/-- Past the reads of its operand and of its buffer, the body puts a sample that is read in R. -/
theorem dlyRdBody_of_read {u : Nat} {s : State} {f : Delay} {t v : F32} (mode : Nat) (ht : s.a0 = ⟨t, true⟩)
    (hf : s.dly[u]? = some f) (hg : delayGood s.cfg f) (hv : delayRead s.draw f t = some v) :
    dlyRdBody u mode s = .next (s.writeR v).spend := by
  rw [dlyRdBody, ht, withOperand_written rfl, withUnit_some hf, if_pos (delayInSpace_of_good hg), hv]

/-- Past the reads of its operand and of its buffer, the body raises `E_DLYRANGE` where no sample is read. -/
theorem dlyRdBody_of_no_read {u : Nat} {s : State} {f : Delay} {t : F32} (mode : Nat) (ht : s.a0 = ⟨t, true⟩)
    (hf : s.dly[u]? = some f) (hg : delayGood s.cfg f) (hv : delayRead s.draw f t = none) :
    dlyRdBody u mode s = .next (raise .dlyRange (encode (.dlyRd u mode)) s) := by
  rw [dlyRdBody, ht, withOperand_written rfl, withUnit_some hf, if_pos (delayInSpace_of_good hg), hv]

/-! The statements -/

/-- Settles O45: an illegal buffer is the fault of the field check; past it the body is one write at the cursor, which
in a good buffer lies in its space. -/
theorem dlyWrResult : Obligations.DlyWrResult := by
  unfold Obligations.DlyWrResult
  intro s u hr
  refine ⟨fun hu => ?_, fun f x hu hx hf hg => ?_⟩
  · exact exec_ready_illegal hr (fieldCheck_dlyWr_of_unit_ge hu)
  · exact exec_ready_next (i := .dlyWr u) hr (fieldCheck_dlyWr_legal hu) (dlyWrBody_of_good hx hf hg)

/-- Settles O46: an illegal buffer and an illegal mode are the faults of the field check; past it the range test on the
offset decides between the blend in R and `E_DLYRANGE`. -/
theorem dlyRdResult : Obligations.DlyRdResult := by
  unfold Obligations.DlyRdResult
  intro s u hr
  refine ⟨fun hu => ?_, fun mode hmode => ?_, fun f time hu ht hf hg => ⟨fun hok => ?_, fun hok => ?_⟩⟩
  · exact exec_ready_illegal hr (fieldCheck_dlyRd_of_unit_ge 0 hu)
  · exact exec_ready_illegal hr (fieldCheck_dlyRd_of_mode_ne_zero s.cfg u hmode)
  · have hin : delayInRange f (fmul s.draw time f.scale) = true := (delayInRange_iff f _).mpr hok
    have hv := delayRead_of_inRange hin
    rw [delayBlend_eq] at hv
    exact exec_ready_next (i := .dlyRd u 0) hr (fieldCheck_dlyRd_legal hu) (dlyRdBody_of_read 0 ht hf hg hv)
  · have hout : ¬ delayInRange f (fmul s.draw time f.scale) = true := mt (delayInRange_iff f _).mp hok
    have hv := delayRead_of_not_inRange hout
    exact exec_ready_next (i := .dlyRd u 0) hr (fieldCheck_dlyRd_legal hu) (dlyRdBody_of_no_read 0 ht hf hg hv)

end Sys2Proof.Proofs.DelayBuffer
end

section
/-! The repeat engine (47_repeat.md): the time and the gain of a tap (R211, R212), the tap-reader (R216), RPT.PROC
(R217 to R219) and RPT.INIT (R221). -/

-- One theorem after another, as in the tests: a thread for each proof would take the whole text past its memory limit.
set_option Elab.async false

namespace Sys2Proof.Proofs.RepeatEngine

open Sys2Proof.Machine Sys2Proof.Claims Sys2Proof.Proofs.DelayBuffer

/-! The checks of the fields (30_encoding.md R92, R95) -/

/-- The two commands of a repeat engine have the same checks: the index of the engine, then the number of taps. -/
theorem fieldCheck_rpt {i : Instr} {u count : Nat} (hi : i ∈ [.rptProc u count, .rptInit u count]) (cfg : Config) :
    fieldCheck cfg i =
      if u < cfg.nRpt then (if count ≤ cfg.rptMaxTaps then none else some .illegal) else some .illegal := by
  simp only [List.mem_cons, List.not_mem_nil, or_false] at hi
  rcases hi with rfl | rfl <;> rfl

section
variable {cfg : Config} {i : Instr} {u count : Nat}

theorem fieldCheck_rpt_of_unit_ge (count : Nat) (hu : cfg.nRpt ≤ u)
    (hi : i ∈ [.rptProc u count, .rptInit u count]) : fieldCheck cfg i = some .illegal := by
  rw [fieldCheck_rpt hi, if_neg (Nat.not_lt.mpr hu)]

theorem fieldCheck_rpt_of_count_gt (hu : u < cfg.nRpt) (hc : cfg.rptMaxTaps < count)
    (hi : i ∈ [.rptProc u count, .rptInit u count]) : fieldCheck cfg i = some .illegal := by
  rw [fieldCheck_rpt hi, if_pos hu, if_neg (Nat.not_le.mpr hc)]

theorem fieldCheck_rpt_legal (hu : u < cfg.nRpt) (hc : count ≤ cfg.rptMaxTaps)
    (hi : i ∈ [.rptProc u count, .rptInit u count]) : fieldCheck cfg i = none := by
  rw [fieldCheck_rpt hi, if_pos hu, if_pos hc]

end

/-! The time of a tap (R211) -/

/-- The recursive branch of `TapTime` is the fold over ascending rounds of 00_scope.md R14. -/
theorem tapTimeFrom_eq_foldl (d : Draw) (r time : F32) (n : Nat) :
    tapTimeFrom d r time n = (List.range n).foldl
      (fun t i => fadd (i :: d) (fmul (i :: d) (fpow (i :: d) r (f32 i)) time) t) 0 := by
  induction n with
  | zero => rfl
  | succ n ih => rw [tapTimeFrom, ih, List.range_succ, List.foldl_append, List.foldl_cons, List.foldl_nil]

theorem tapTime_zero (d : Draw) (time skew : F32) : tapTime d 0 time skew = 0 := rfl

theorem tapTime_straight {index : Nat} {skew : F32} (hi : 0 < index) (hs : feq skew 0 = true) (d : Draw) (time : F32) :
    tapTime d index time skew = fmul d time (f32 index) := by
  rw [tapTime, if_neg hi.ne', if_pos hs]

theorem tapTime_skewed {index : Nat} {skew : F32} (hi : 0 < index) (hs : feq skew 0 = false) (d : Draw) (time : F32) :
    tapTime d index time skew = tapTimeFrom d (fpow d two32 skew) time index := by
  rw [tapTime, if_neg hi.ne', if_neg (ne_true_of_eq_false hs)]

/-! The gain of a tap (R212) -/

/-- The base of the power of `TapGain`: the size of the feedback, clamped below by `FB_MIN`. -/
def feedbackSize (cfg : Config) (fb : F32) : F32 := if flt (fabs fb) cfg.fbMin = true then cfg.fbMin else fabs fb

theorem tapGain_unity {fb : F32} (hf : feq (fabs fb) one32 = true) (cfg : Config) (d : Draw) (index count : Nat) :
    tapGain cfg d index fb count = one32 := if_pos hf

theorem tapGain_power {fb : F32} (hf : feq (fabs fb) one32 = false) (cfg : Config) (d : Draw) (index count : Nat) :
    tapGain cfg d index fb count =
      fpow d (feedbackSize cfg fb) (f32 (if fle 0 fb = true then index else count - index - 1)) :=
  if_neg (ne_true_of_eq_false hf)

theorem tapGain_forward {fb : F32} (hf : feq (fabs fb) one32 = false) (hs : fle 0 fb = true) (cfg : Config) (d : Draw)
    (index count : Nat) : tapGain cfg d index fb count = fpow d (feedbackSize cfg fb) (f32 index) := by
  rw [tapGain_power hf, if_pos hs]

theorem tapGain_reversed {fb : F32} (hf : feq (fabs fb) one32 = false) (hs : fle 0 fb = false) (cfg : Config)
    (d : Draw) (index count : Nat) :
    tapGain cfg d index fb count = fpow d (feedbackSize cfg fb) (f32 (count - index - 1)) := by
  rw [tapGain_power hf, if_neg (ne_true_of_eq_false hs)]

/-! The tap-reader (R216) -/

section
variable {cfg : Config} {d : Draw} {q : TapSet} {x : F32} {f : Delay}

/-- What tap `i` of a set in range contributes before its gain: the input, or the blend at the tap's offset. -/
def tapHeard (d : Draw) (q : TapSet) (x : F32) (f : Delay) (i : Nat) : F32 :=
  if i = 0 then x else delayBlend (i :: d) f (tapOffset d q f i)

/-- One round of the ascending sum over taps. -/
def addTap (cfg : Config) (d : Draw) (q : TapSet) (x : F32) (f : Delay) (acc : F32) (i : Nat) : F32 :=
  fadd (i :: d) acc (fmul (i :: d) (tapGain cfg (i :: d) i q.fb q.count) (tapHeard d q x f i))

/-- A tap whose offset is in range is heard; tap 0 reads no delay and has no offset to test. -/
theorem tapSample_of_inRange {i : Nat} (h : 0 < i → delayInRange f (tapOffset d q f i) = true) :
    tapSample (i :: d) q x f i = some (tapHeard d q x f i) := by
  rcases i.eq_zero_or_pos with rfl | hi
  · rw [tapSample, if_pos rfl, tapHeard, if_pos rfl]
  · have hread : delayRead (i :: d) f (tapTime (i :: d) i q.time q.skew) =
        some (delayBlend (i :: d) f (tapOffset d q f i)) := delayRead_of_inRange (h hi)
    rw [tapSample, if_neg hi.ne', hread, tapHeard, if_neg hi.ne']

theorem tapSample_of_not_inRange {i : Nat} (hi : 0 < i) (h : delayInRange f (tapOffset d q f i) = false) :
    tapSample (i :: d) q x f i = none :=
  (if_neg hi.ne').trans (delayRead_of_not_inRange (ne_true_of_eq_false h))

theorem tapsUpTo_succ_of_some {n : Nat} {acc : F32} (hacc : tapsUpTo cfg d q x f n = some acc)
    (hn : tapSample (n :: d) q x f n = some (tapHeard d q x f n)) :
    tapsUpTo cfg d q x f (n + 1) = some (addTap cfg d q x f acc n) := by
  rw [tapsUpTo, hacc, hn, addTap]

theorem tapsUpTo_succ_of_sum_none {n : Nat} (h : tapsUpTo cfg d q x f n = none) :
    tapsUpTo cfg d q x f (n + 1) = none := by
  rw [tapsUpTo, h]

theorem tapsUpTo_succ_of_tap_none {n : Nat} (h : tapSample (n :: d) q x f n = none) :
    tapsUpTo cfg d q x f (n + 1) = none := by
  rw [tapsUpTo, h]
  cases tapsUpTo cfg d q x f n <;> rfl

/-- Where the first `n` taps are in range, they are summed in ascending order from `+0.0`. -/
theorem tapsUpTo_eq_foldl {n : Nat} (h : ∀ i, 0 < i → i < n → delayInRange f (tapOffset d q f i) = true) :
    tapsUpTo cfg d q x f n = some ((List.range n).foldl (addTap cfg d q x f) 0) := by
  induction n with
  | zero => rfl
  | succ n ih =>
    have hsum := ih fun i hi hin => h i hi (Nat.lt_succ_of_lt hin)
    have htap := tapSample_of_inRange (x := x) fun hn => h n hn n.lt_succ_self
    rw [tapsUpTo_succ_of_some hsum htap, List.range_succ, List.foldl_append, List.foldl_cons, List.foldl_nil]

/-- One tap out of range makes every longer sum out of range. -/
theorem tapsUpTo_eq_none {n i : Nat} (hin : i < n) (h : tapSample (i :: d) q x f i = none) :
    tapsUpTo cfg d q x f n = none := by
  induction n with
  | zero => exact absurd hin i.not_lt_zero
  | succ n ih =>
    rcases Nat.lt_succ_iff_lt_or_eq.mp hin with hlt | rfl
    · exact tapsUpTo_succ_of_sum_none (ih hlt)
    · exact tapsUpTo_succ_of_tap_none h

end

/-! Change detection and evaluation (R217 to R219) -/

section
variable {cfg : Config} {d : Draw} {e : RepeatUnit} {q : TapSet} {x : F32} {f : Delay}

/-- The engine after a changed set is taken over, before its first sample: the fade at its start. -/
def fadeStarted (cfg : Config) (d : Draw) (e : RepeatUnit) (q : TapSet) : RepeatUnit :=
  { prev := e.cur, cur := q, xf := ⟨0, fdiv d one32 (f32 cfg.xfadeSamples), cfg.xfadeSamples⟩ }

theorem rptDetect_of_same (h : tapSetEq q e.cur = true) : rptDetect cfg d e q = e :=
  if_neg fun hc => absurd h (ne_true_of_eq_false hc.2)

theorem rptDetect_of_fading (h : 0 < e.xf.cnt) : rptDetect cfg d e q = e :=
  if_neg fun hc => absurd hc.1 h.ne'

theorem rptDetect_of_changed (hcnt : e.xf.cnt = 0) (h : tapSetEq q e.cur = false) :
    rptDetect cfg d e q = fadeStarted cfg d e q := if_pos ⟨hcnt, h⟩

/-- The engine once its fade has advanced by one sample, with the phase and the counter written out. -/
def fadeStepped (d : Draw) (e : RepeatUnit) : RepeatUnit :=
  { e with xf := ⟨fadd d e.xf.p e.xf.step, e.xf.step, e.xf.cnt - 1⟩ }

theorem fadeAdvance_eq (d : Draw) (x : Fade) : fadeAdvance d x = ⟨fadd d x.p x.step, x.step, x.cnt - 1⟩ := rfl

theorem fadeBlend_eq_crossfade (d : Draw) (p old new : F32) : fadeBlend d p old new = crossfade d p old new := rfl

theorem rptEvaluate_of_idle {y : F32} (hcnt : e.xf.cnt = 0) (hnew : taps cfg (1 :: d) e.cur x f = some y) :
    rptEvaluate cfg d e x f = some (e, y) := by
  rw [rptEvaluate, if_neg (Nat.not_lt.mpr hcnt.le), hnew]

theorem rptEvaluate_of_idle_none (hcnt : e.xf.cnt = 0) (hnew : taps cfg (1 :: d) e.cur x f = none) :
    rptEvaluate cfg d e x f = none := by
  rw [rptEvaluate, if_neg (Nat.not_lt.mpr hcnt.le), hnew]

theorem rptEvaluate_of_fading {y y' : F32} (hcnt : 0 < e.xf.cnt) (hold : taps cfg (0 :: d) e.prev x f = some y)
    (hnew : taps cfg (1 :: d) e.cur x f = some y') :
    rptEvaluate cfg d e x f =
      some (fadeStepped d e, crossfade d (fadd d e.xf.p e.xf.step) y y') := by
  rw [rptEvaluate, if_pos hcnt, hold, hnew]
  simp only [fadeAdvance_eq, fadeBlend_eq_crossfade, fadeStepped]

/-- The first sample of a fade: its phase is one step past zero. -/
theorem rptEvaluate_fadeStarted {y y' : F32} (hxf : 0 < cfg.xfadeSamples) (hold : taps cfg (0 :: d) e.cur x f = some y)
    (hnew : taps cfg (1 :: d) q x f = some y') :
    rptEvaluate cfg d (fadeStarted cfg d e q) x f =
      (let step := fdiv d 0x3F800000 (f32 cfg.xfadeSamples)
       some ({ prev := e.cur, cur := q, xf := ⟨fadd d 0 step, step, cfg.xfadeSamples - 1⟩ },
        crossfade d (fadd d 0 step) y y')) := by
  rw [rptEvaluate_of_fading (e := fadeStarted cfg d e q) hxf hold hnew]
  simp only [fadeStepped, fadeStarted, one32]

theorem rptEvaluate_of_fading_none (hcnt : 0 < e.xf.cnt)
    (hnone : taps cfg (0 :: d) e.prev x f = none ∨ taps cfg (1 :: d) e.cur x f = none) :
    rptEvaluate cfg d e x f = none := by
  rw [rptEvaluate, if_pos hcnt]
  rcases hnone with hold | hnew
  · rw [hold]
  · rw [hnew]
    cases taps cfg (0 :: d) e.prev x f <;> rfl

end

/-! The commands past their checks -/

/-- What `RPT.PROC u` finds: the input `x` and the supplied values in its operands, its engine, and a good buffer. -/
structure RptReads (s : State) (u : Nat) (x time fb skew : F32) (e : RepeatUnit) (f : Delay) : Prop where
  a0 : s.a0 = ⟨x, true⟩
  a1 : s.a1 = ⟨time, true⟩
  a2 : s.a2 = ⟨fb, true⟩
  a3 : s.a3 = ⟨skew, true⟩
  rpt : s.rpt[u]? = some e
  dly : s.dly[u]? = some f
  good : delayGood s.cfg f

section
variable {s : State} {u count : Nat} {x time fb skew out : F32} {e e₁ e' : RepeatUnit} {f : Delay}

/-- The state after `RPT.PROC u` completes: the engine, the buffer with the input entered, the output, and pc. -/
def rptDone (s : State) (u : Nat) (e : RepeatUnit) (g : Delay) (out : F32) : State :=
  { s with rpt := s.rpt.set u e, dly := s.dly.set u g, r := ⟨out, true⟩, pc := s.pc + 1, draws := s.draws + 1 }

theorem tick_commit_eq_rptDone (s : State) (u : Nat) (e : RepeatUnit) (g : Delay) (out : F32) :
    (((s.setRpt u e).setDly u g).writeR out).spend.tick = rptDone s u e g out := by
  simp only [State.tick, State.spend, State.writeR, State.setDly, State.setRpt, rptDone]

theorem rptProcBody_of_output (h : RptReads s u x time fb skew e f)
    (hdetect : rptDetect s.cfg s.draw e ⟨count, time, fb, skew⟩ = e₁)
    (hout : rptEvaluate s.cfg s.draw e₁ x (delayAfter f x) = some (e', out)) :
    rptProcBody u count s = .next (((s.setRpt u e').setDly u (delayAfter f x)).writeR out).spend := by
  rw [rptProcBody, h.a0, h.a1, h.a2, h.a3]
  iterate 4 rw [withOperand_written rfl]
  rw [withUnit_some h.rpt, withUnit_some h.dly, if_pos (delayInSpace_of_good h.good), delayWrite_eq_delayAfter]
  simp only [hdetect, hout]

theorem rptProcBody_of_no_output (h : RptReads s u x time fb skew e f)
    (hdetect : rptDetect s.cfg s.draw e ⟨count, time, fb, skew⟩ = e₁)
    (hout : rptEvaluate s.cfg s.draw e₁ x (delayAfter f x) = none) :
    rptProcBody u count s = .next (raise .dlyRange (encode (.rptProc u count)) s) := by
  rw [rptProcBody, h.a0, h.a1, h.a2, h.a3]
  iterate 4 rw [withOperand_written rfl]
  rw [withUnit_some h.rpt, withUnit_some h.dly, if_pos (delayInSpace_of_good h.good), delayWrite_eq_delayAfter]
  simp only [hdetect, hout]

theorem exec_rptProc_of_output (hr : s.isReady = true) (hu : u < s.cfg.nRpt)
    (hc : count ≤ s.cfg.rptMaxTaps) (h : RptReads s u x time fb skew e f)
    (hdetect : rptDetect s.cfg s.draw e ⟨count, time, fb, skew⟩ = e₁)
    (hout : rptEvaluate s.cfg s.draw e₁ x (delayAfter f x) = some (e', out)) :
    exec (.rptProc u count) s = .next (rptDone s u e' (delayAfter f x) out) := by
  rw [exec_ready_next (i := .rptProc u count) hr (fieldCheck_rpt_legal hu hc (by simp))
    (rptProcBody_of_output h hdetect hout), tick_commit_eq_rptDone]

theorem exec_rptProc_of_no_output (hr : s.isReady = true) (hu : u < s.cfg.nRpt)
    (hc : count ≤ s.cfg.rptMaxTaps) (h : RptReads s u x time fb skew e f)
    (hdetect : rptDetect s.cfg s.draw e ⟨count, time, fb, skew⟩ = e₁)
    (hout : rptEvaluate s.cfg s.draw e₁ x (delayAfter f x) = none) :
    faultsWith .dlyRange (.rptProc u count) s :=
  exec_ready_next (i := .rptProc u count) hr (fieldCheck_rpt_legal hu hc (by simp))
    (rptProcBody_of_no_output h hdetect hout)

theorem rptInitBody_of_written (h1 : s.a1 = ⟨time, true⟩) (h2 : s.a2 = ⟨fb, true⟩) (h3 : s.a3 = ⟨skew, true⟩)
    (hu : u < s.rpt.length) :
    rptInitBody u count s =
      .next (s.setRpt u ⟨⟨count, time, fb, skew⟩, ⟨count, time, fb, skew⟩, ⟨0, 0, 0⟩⟩) := by
  rw [rptInitBody, h1, withOperand_written rfl, h2, withOperand_written rfl, h3, withOperand_written rfl,
    withUnit_some (List.getElem?_eq_getElem hu)]

end

/-! The statements -/

/-- Settles O50: the three branches of the time, the skewed one a fold by induction on the rounds; and of the gain
unity, the power of the clamped size, and its exponent by the sign of the feedback. -/
theorem tapTimeAndGain : Obligations.TapTimeAndGain := by
  unfold Obligations.TapTimeAndGain
  intro cfg d index count time skew fb
  refine ⟨fun hi => ?_, fun hi hs => ?_, fun hi hs => ?_, fun _ => ⟨fun hf => ?_, fun hf => ⟨fun hs => ?_, fun hs => ?_⟩⟩⟩
  · rw [hi, tapTime_zero]
  · exact tapTime_straight hi hs d time
  · exact (tapTime_skewed hi hs d time).trans (tapTimeFrom_eq_foldl d _ time index)
  · exact tapGain_unity hf cfg d index count
  · exact tapGain_forward hf hs cfg d index count
  · exact tapGain_reversed hf hs cfg d index count

/-- Settles O51: by induction on the number of taps summed, in range or from the tap that is not. -/
theorem tapsAreTheSum : Obligations.TapsAreTheSum := by
  unfold Obligations.TapsAreTheSum
  intro cfg d q x f
  refine ⟨fun hin => ?_, fun ⟨i, hi, hin, hout⟩ => ?_⟩
  · exact tapsUpTo_eq_foldl hin
  · exact tapsUpTo_eq_none hin (tapSample_of_not_inRange hi hout)

/-- Settles O52: an illegal unit and an illegal count are the faults of the field check; past it the engine after
change detection (unchanged, at the start of a fade, or in one) is evaluated against the buffer with the input
entered. -/
theorem rptProcResult : Obligations.RptProcResult := by
  unfold Obligations.RptProcResult
  intro s u count hr
  refine ⟨fun hu => ?_, fun hu hc => ?_, fun e f x time fb skew hu hc h0 h1 h2 h3 he hf hg hxf => ?_⟩
  · exact exec_ready_illegal hr (fieldCheck_rpt_of_unit_ge count hu (by simp))
  · exact exec_ready_illegal hr (fieldCheck_rpt_of_count_gt hu hc (by simp))
  have hreads : RptReads s u x time fb skew e f := ⟨h0, h1, h2, h3, he, hf, hg⟩
  refine ⟨fun hcnt hsame => ?_, fun hcnt hchanged => ?_, fun hcnt => ?_⟩
  · have hdetect := rptDetect_of_same (cfg := s.cfg) (d := s.draw) hsame
    exact ⟨fun y hy => exec_rptProc_of_output hr hu hc hreads hdetect (rptEvaluate_of_idle hcnt hy),
      fun hnone => exec_rptProc_of_no_output hr hu hc hreads hdetect (rptEvaluate_of_idle_none hcnt hnone)⟩
  · have hdetect := rptDetect_of_changed (cfg := s.cfg) (d := s.draw) hcnt hchanged
    refine ⟨fun y y' hy hy' => ?_, fun hnone => ?_⟩
    · have hout := rptEvaluate_fadeStarted (d := s.draw) hxf hy hy'
      exact exec_rptProc_of_output hr hu hc hreads hdetect hout
    · exact exec_rptProc_of_no_output hr hu hc hreads hdetect (rptEvaluate_of_fading_none hxf hnone)
  · have hdetect := rptDetect_of_fading (cfg := s.cfg) (d := s.draw) (q := ⟨count, time, fb, skew⟩) hcnt
    exact ⟨fun y y' hy hy' => exec_rptProc_of_output hr hu hc hreads hdetect (rptEvaluate_of_fading hcnt hy hy'),
      fun hnone => exec_rptProc_of_no_output hr hu hc hreads hdetect (rptEvaluate_of_fading_none hcnt hnone)⟩

/-- Settles O54: an illegal unit and an illegal count are the faults of the field check; past it the engine is replaced
whole. -/
theorem rptInitResult : Obligations.RptInitResult := by
  unfold Obligations.RptInitResult
  intro s u count hr
  refine ⟨fun hu => ?_, fun hu hc => ?_, fun time fb skew hu hc h1 h2 h3 hfile => ?_⟩
  · exact exec_ready_illegal hr (fieldCheck_rpt_of_unit_ge count hu (by simp))
  · exact exec_ready_illegal hr (fieldCheck_rpt_of_count_gt hu hc (by simp))
  · exact exec_ready_next (i := .rptInit u count) hr (fieldCheck_rpt_legal hu hc (by simp))
      (rptInitBody_of_written h1 h2 h3 hfile)

end Sys2Proof.Proofs.RepeatEngine
end

section
/-! ENG.NEW (48_engine.md R243): its checks in their order, the state it constructs, and the words of its opcode that
are no command (30_encoding.md R95). -/

namespace Sys2Proof.Proofs.EngineConstruction

open Sys2Proof.Machine Sys2Proof.Claims

/-- The only word of `ENG.NEW` (30_encoding.md R94). -/
theorem encode_engNew : encode .engNew = 0x01000000 := rfl

/-! The checks, in the order of 48_engine.md R243 -/

section

variable {cfg : Config} {d : Draw} {fs : F32}

/-- The condition of `E_FS` says that the rate is not positive, a NaN among such rates, or is infinite. -/
theorem bad_rate_iff : (flt 0 fs = false ∨ isInf fs = true) ↔ ¬ (flt 0 fs = true ∧ isInf fs = false) := by
  rw [not_and_or, Bool.not_eq_true, Bool.not_eq_false]

theorem engineCheck_of_bad_rate (h : ¬ (flt 0 fs = true ∧ isInf fs = false)) : engineCheck cfg d fs = some .fs :=
  if_pos (bad_rate_iff.mpr h)

theorem engineCheck_of_not_isPow2 (h : flt 0 fs = true ∧ isInf fs = false) (hl : isPow2 cfg.l = false) :
    engineCheck cfg d fs = some .firLen := (if_neg fun hbad => bad_rate_iff.mp hbad h).trans (if_pos hl)

/-- Past the checks of the rate and of the length, the check is that of the capacity. -/
theorem engineCheck_of_isPow2 (h : flt 0 fs = true ∧ isInf fs = false) (hl : isPow2 cfg.l = true) :
    engineCheck cfg d fs =
      if fle two32 (engineCapf cfg d fs) && fle (engineCapf cfg d fs) (f32 cfg.dlyCapMax) then none else some .cap :=
  (if_neg fun hbad => bad_rate_iff.mp hbad h).trans (if_neg (by simp [hl]))

end

/-! The command, in every condition -/

section

variable {s : State} {fs : F32}

/-- A failed check leaves the engine as it was and raises its cause. -/
theorem exec_engNew_of_check_some {e : Cause} (ha : s.a0 = ⟨fs, true⟩) (h : engineCheck s.cfg s.draw fs = some e) :
    exec .engNew s = .next (afterRaise e 0x01000000 s) := by
  rw [exec_engNew, engNewBody, ha, withOperand_written rfl, h, encode_engNew]
  rfl

theorem exec_engNew_of_check_none (ha : s.a0 = ⟨fs, true⟩) (h : engineCheck s.cfg s.draw fs = none) :
    exec .engNew s = .next (construct fs s).spend.tick := by
  rw [exec_engNew, engNewBody, ha, withOperand_written rfl, h]
  rfl

end

/-! The words of the opcode -/

/-- Of the words with opcode 0x01 only the one with zero lower bits decodes (30_encoding.md R95). -/
theorem decode_ne_ok_of_opcField_one {w : Word} (ho : opcField w = 0x01) (hw : w ≠ 0x01000000) (i : Instr) :
    decode w ≠ .ok i := by
  intro h
  have hop : opcodeOf i = 0x01 := ((decode_eq_ok_iff w i).mp h).1.symm.trans ho
  have hi : i = .engNew := opcodeOf_eq_one.mp hop
  subst hi
  exact hw (encode_of_decode h).symm

theorem issueWord_of_no_decode {w : Word} (h : ∀ i, decode w ≠ .ok i) (s : State) :
    issueWord w s = illegalWord w s := by
  unfold issueWord
  split
  · exact absurd ‹_› (h _)
  · rfl

/-- The gate does not hold a word of opcode 0x01 back, so one that is no command is illegal in every condition. -/
theorem illegalWord_of_opcField_one {w : Word} (ho : opcField w = 0x01) (s : State) :
    illegalWord w s = .next (afterRaise .illegal w s) := gate_engNew ho s _

/-! The statement -/

/-- Settles O22: the three faults are the checks in their order; past them the state constructed is the one stated,
field by field, and the table of each FIR unit reads back `CFG.C`. Other words of the opcode do not decode. -/
theorem engNewConstructs : Obligations.EngNewConstructs := by
  unfold Obligations.EngNewConstructs
  intro s fs ha
  refine ⟨fun hbad => ?_, fun hrate hl => ?_, fun hrate hl hcap => ?_, fun hrate hl hcap => ?_, fun w ho hw => ?_,
    fun u k hk j hj => ?_⟩
  · exact exec_engNew_of_check_some ha (engineCheck_of_bad_rate hbad)
  · exact exec_engNew_of_check_some ha (engineCheck_of_not_isPow2 hrate hl)
  · refine exec_engNew_of_check_some ha ((engineCheck_of_isPow2 hrate hl).trans (if_neg ?_))
    rwa [Bool.and_eq_true]
  · refine exec_engNew_of_check_none ha ((engineCheck_of_isPow2 hrate hl).trans (if_pos ?_))
    rwa [Bool.and_eq_true]
  · exact (issueWord_of_no_decode (decode_ne_ok_of_opcField_one ho hw) s).trans (illegalWord_of_opcField_one ho s)
  · exact coefTable_readLane s.cfg u s.cfg.lMax hk hj

end Sys2Proof.Proofs.EngineConstruction
end

section
/-! The gate (60_exceptions.md R263) before every word of the host, one that decodes or not. -/

namespace Sys2Proof.Proofs.CommandGate

open Sys2Proof.Machine Sys2Proof.Claims Sys2Proof.Proofs.EngineConstruction

/-! What the gate does with a word it holds back -/

/-- In FAULTED the core refuses the word: it does nothing but the advance of pc. -/
theorem gate_faulted {w : Word} {s : State} (ho : opcField w ≠ 0x01) (hf : s.isFaulted = true)
    (k : State → Result) : gate w s k = .next s.tick := by
  rw [gate, if_pos ⟨ho, hf⟩]
  rfl

/-- In UNCONFIGURED the word faults with `E_NOCFG`. -/
theorem gate_unconfigured {w : Word} {s : State} (ho : opcField w ≠ 0x01) (hf : s.isFaulted = false)
    (hc : s.isConfigured = false) (k : State → Result) : gate w s k = .next (afterRaise .noCfg w s) := by
  have hnf : ¬(opcField w ≠ 0x01 ∧ s.isFaulted = true) := fun h => Bool.false_ne_true (hf.symm.trans h.2)
  rw [gate, if_neg hnf, if_pos ⟨ho, hc⟩]
  rfl

/-! Every word stands behind the gate -/

theorem issueWord_of_decode_ok {w : Word} {i : Instr} (h : decode w = .ok i) (s : State) :
    issueWord w s = exec i s := by
  rw [issueWord, h]

theorem issueWord_of_decode_error {w : Word} {e : DecodeError} (h : decode w = .error e) (s : State) :
    issueWord w s = illegalWord w s := by
  rw [issueWord, h]

/-- What is done with a word depends on the word's decoding only behind the gate. -/
theorem issueWord_eq_gate (w : Word) : ∃ k, ∀ s, issueWord w s = gate w s k := by
  cases hd : decode w with
  | ok i => exact ⟨_, fun s => by rw [issueWord_of_decode_ok hd, exec_eq_command, command, encode_of_decode hd]⟩
  | error e => exact ⟨_, issueWord_of_decode_error hd⟩

/-- Past the gate a word that is no command is illegal. -/
theorem illegalWord_of_passes {w : Word} {s : State} (h : opcField w = 0x01 ∨ s.isReady = true) :
    illegalWord w s = .next (afterRaise .illegal w s) := by
  rcases h with ho | hr
  · exact illegalWord_of_opcField_one ho s
  · exact gate_ready hr _

/-- Settles O6: a word held back is answered by the gate alone; one that passes is executed when it decodes and
illegal when it does not. -/
theorem gateRule : Obligations.GateRule := by
  unfold Obligations.GateRule
  intro s w
  obtain ⟨k, hk⟩ := issueWord_eq_gate w
  refine ⟨fun ho hf => ?refused, fun ho hf hc => ?noCfg, fun hp => ⟨fun i hd => ?executed, fun e hd => ?illegal⟩,
    fun ho hw => ?engNewLowBits⟩
  case refused => exact (hk s).trans (gate_faulted ho hf k)
  case noCfg => exact (hk s).trans (gate_unconfigured ho hf hc k)
  case executed => exact issueWord_of_decode_ok hd s
  case illegal => exact (issueWord_of_decode_error hd s).trans (illegalWord_of_passes hp)
  case engNewLowBits =>
    exact (issueWord_of_no_decode (decode_ne_ok_of_opcField_one ho hw) s).trans (illegalWord_of_opcField_one ho s)

end Sys2Proof.Proofs.CommandGate
end

section
/-! The command word (30_encoding.md R90 to R96): the encoder and the decoder undo each other, and the decoder reads
exactly the rows of the opcode map. -/

-- One theorem after another: a thread for each proof would take the whole text past its memory limit.
set_option Elab.async false

namespace Sys2Proof.Proofs.CommandWord

open Sys2Proof.Machine Sys2Proof.Laws

/-! Round trips -/

theorem unitField_lt (w : Word) : unitField w < 2 ^ 8 := Nat.mod_lt _ (by norm_num)

theorem immField_lt (w : Word) : immField w < 2 ^ 16 := Nat.mod_lt _ (by norm_num)

theorem wellFormed_iff (i : Instr) : i.wellFormed = true ↔ i.unitIndex < 2 ^ 8 ∧ i.imm < 2 ^ 16 := by
  simp [Instr.wellFormed, Instr.unitFits, Instr.immFits]

/-- A decoded command has the fields of its word, so they fit their places. -/
theorem wellFormed_of_decode {w : Word} {i : Instr} (h : decode w = .ok i) : i.wellFormed = true := by
  obtain ⟨_, hu, himm⟩ := (decode_eq_ok_iff w i).mp h
  exact (wellFormed_iff i).mpr ⟨hu ▸ unitField_lt w, himm ▸ immField_lt w⟩

/-- Settles O2: the three fields of the encoding are the command's, which is what the decoder asks for. -/
theorem decodeOfEncode : Obligations.DecodeOfEncode := by
  unfold Obligations.DecodeOfEncode
  intro i hi
  exact (decode_eq_ok_iff _ i).mpr ⟨opcField_encode i, unitField_encode hi, immField_encode hi⟩

/-- Settles O3: a word is packed from its three fields, and those are the fields of the command it decodes to. -/
theorem encodeOfDecode : Obligations.EncodeOfDecode := by
  unfold Obligations.EncodeOfDecode
  intro w i h
  exact ⟨wellFormed_of_decode h, encode_of_decode h⟩

/-! The rows of the opcode map -/

/-- The mask of the format a shape stands for (R91). -/
def maskOf : Shape → Word
  | .z _ => maskZ
  | .u _ => maskU
  | .ui _ => maskUI

/-- The fields that must be zero in the format of a shape are zero (R95 step 2). -/
def Accepts (w : Word) : Shape → Prop
  | .z _ => unitField w = 0 ∧ immField w = 0
  | .u _ => immField w = 0
  | .ui _ => True

theorem decodes_of_accepts {w : Word} {sh : Shape} (hs : shapeOf (opcField w) = some sh) (ha : Accepts w sh) :
    ∃ i, decode w = .ok i := by
  rw [decode, hs]
  cases sh with
  | z i => exact ⟨i, if_pos ha⟩
  | u mk => exact ⟨mk (unitField w), if_pos ha⟩
  | ui mk => exact ⟨mk (unitField w) (immField w), rfl⟩

/-- A row of a shape's format matches the words of its opcode that the shape accepts. -/
theorem hits_iff_accepts {m : String} {opc : Nat} (h : opc < 2 ^ 8) (sh : Shape) (w : Word) :
    (OpcodeRow.mk m (BitVec.ofNat 32 (opc * 2 ^ 24)) (maskOf sh)).hits w = true ↔ opcField w = opc ∧ Accepts w sh := by
  cases sh with
  | z i => exact hits_maskZ h w
  | u mk => exact hits_maskU h w
  | ui mk => exact (hits_maskUI h w).trans (iff_of_eq (and_true _)).symm

/-- Every row of the map is made of an opcode and the mask of the shape the decoder gives that opcode. -/
theorem shape_of_mem_opcodeRows : ∀ row ∈ opcodeRows, ∃ sh, shapeOf (opcField row.pattern) = some sh ∧
    row.mask = maskOf sh ∧ row.pattern = BitVec.ofNat 32 (opcField row.pattern * 2 ^ 24) := by
  simp only [opcodeRows, List.cons_append, List.nil_append, List.forall_mem_cons]
  refine ⟨?_, ?_, ?_, ?_, ?_, ?_, ?_, ?_, ?_, ?_, ?_, ?_, ?_, ?_, ?_, ?_, ?_, ?_, ?_, ?_, ?_, ?_,
    List.forall_mem_nil _⟩
  all_goals exact ⟨_, rfl, rfl, rfl⟩

theorem opcField_lt (w : Word) : opcField w < 2 ^ 8 := by
  have := w.isLt
  rw [opcField]
  omega

/-- What a match with a row of the map says of the word. -/
theorem accepts_of_hits {row : OpcodeRow} {w : Word} (hrow : row ∈ opcodeRows) (h : row.hits w = true) :
    opcField w = opcField row.pattern ∧ ∃ sh, shapeOf (opcField w) = some sh ∧ Accepts w sh := by
  obtain ⟨sh, hs, hmask, hpat⟩ := shape_of_mem_opcodeRows row hrow
  have hrow' : row = ⟨row.mnemonic, BitVec.ofNat 32 (opcField row.pattern * 2 ^ 24), maskOf sh⟩ := by
    rw [← hmask, ← hpat]
  rw [hrow'] at h
  obtain ⟨ho, ha⟩ := (hits_iff_accepts (opcField_lt _) sh w).mp h
  exact ⟨ho, sh, ho ▸ hs, ha⟩

theorem tableRow (i : Instr) : TableRow.Statement i := by
  cases i with
  | engNew => exact TableRow.engNew
  | firNew u len => exact TableRow.firNew u len
  | firProc u => exact TableRow.firProc u
  | ovsUp o => exact TableRow.ovsUp o
  | ovsDn o => exact TableRow.ovsDn o
  | ovsProc o fn => exact TableRow.ovsProc o fn
  | wsRat => exact TableRow.wsRat
  | wsDiode => exact TableRow.wsDiode
  | afsCoef u => exact TableRow.afsCoef u
  | afsStep u => exact TableRow.afsStep u
  | afsProc u => exact TableRow.afsProc u
  | opfProc u => exact TableRow.opfProc u
  | rmpSet u => exact TableRow.rmpSet u
  | rmpStep u => exact TableRow.rmpStep u
  | rmpProc u => exact TableRow.rmpProc u
  | rmpInit u => exact TableRow.rmpInit u
  | exsProc u => exact TableRow.exsProc u
  | exsInit u => exact TableRow.exsInit u
  | dlyWr u => exact TableRow.dlyWr u
  | dlyRd u mode => exact TableRow.dlyRd u mode
  | rptProc u count => exact TableRow.rptProc u count
  | rptInit u count => exact TableRow.rptInit u count

/-- No two rows of the map have one opcode (R94). -/
theorem row_eq_of_opcField_eq : ∀ row ∈ opcodeRows, ∀ row' ∈ opcodeRows,
    opcField row.pattern = opcField row'.pattern → row = row' := by decide

/-- Settles O4: the encoding of a command hits the command's row; a word that hits a row has the opcode and the zero
fields of its shape; and the opcode tells the rows apart. -/
theorem decodeIsTheMap : Obligations.DecodeIsTheMap := by
  unfold Obligations.DecodeIsTheMap
  intro w
  refine ⟨⟨?_, ?_⟩, ?_⟩
  · rintro ⟨i, hi⟩
    obtain ⟨row, hrow, _, hhits⟩ := tableRow i (wellFormed_of_decode hi)
    exact ⟨row, hrow, encode_of_decode hi ▸ hhits⟩
  · rintro ⟨row, hrow, hhits⟩
    obtain ⟨_, sh, hs, ha⟩ := accepts_of_hits hrow hhits
    exact decodes_of_accepts hs ha
  · intro row hrow row' hrow' h h'
    exact row_eq_of_opcField_eq row hrow row' hrow' ((accepts_of_hits hrow h).1.symm.trans (accepts_of_hits hrow' h').1)

/-- Settles O1: each word is read by evaluating the decoder on it. -/
theorem mapWordsDecode : Obligations.MapWordsDecode := by
  unfold Obligations.MapWordsDecode
  and_intros
  all_goals rfl

end Sys2Proof.Proofs.CommandWord
end

section
/-! Faults and the conditions of the core (60_exceptions.md R262, R265; 48_engine.md R241), POWER-ON (70_reset_and_hazards.md
R300) and the constancy of CFG (00_scope.md R7). -/

-- One theorem after another: a thread for each proof would take the whole text past its memory limit.
set_option Elab.async false

namespace Sys2Proof.Proofs.Condition

open Sys2Proof.Machine Sys2Proof.Claims Sys2Proof.Proofs.EngineConstruction

/-! Faults -/

/-- A raised fault changes ST, FCMD and pc only, whatever it leaves in the first two. -/
theorem tick_raise_frame (e : Cause) (w : Word) (s : State) :
    (raise e w s).tick = { s with st := (raise e w s).tick.st, fcmd := (raise e w s).tick.fcmd, pc := s.pc + 1 } := rfl

/-- Settles O8: the status register after a fault, field by field. -/
theorem raiseRecordsFirstFault : Obligations.RaiseRecordsFirstFault := by
  unfold Obligations.RaiseRecordsFirstFault
  intro e cmd s
  refine ⟨raise_isFaulted e cmd s, raise_isConfigured e cmd s, fun hf => ?first, fun hf => ?later,
    stRaise_reserved e s.st, tick_raise_frame e cmd s⟩
  case first => exact ⟨raise_cause_new e cmd hf, raise_fcmd_new e cmd hf⟩
  case later => exact ⟨raise_cause_kept e cmd hf, raise_fcmd_kept e cmd hf⟩

/-- A quiet body leaves the status register, and so the condition, as it was. -/
theorem condition_of_quiet {s m : State} (h : Quiet s m) :
    m.isConfigured = s.isConfigured ∧ m.isFaulted = s.isFaulted ∧ m.cause = s.cause := by
  simp only [State.isConfigured, State.isFaulted, State.cause, h.st, and_self]

/-- Settles O9: a word after which the core is FAULTED was refused or raised a fault; a construction and a command that
ran to its end leave the core READY. -/
theorem faultsArePrecise : Obligations.FaultsArePrecise := by
  unfold Obligations.FaultsArePrecise
  intro s t w h hf
  rcases issueWord_cases h with ⟨_, _, rfl⟩ | ⟨e, rfl, _⟩ | ⟨_, _, rfl⟩ | ⟨i, _, hr, _, m, _, hq, rfl⟩
  case inl => rfl
  case inr.inl => exact tick_raise_frame e w s
  case inr.inr.inl => simp at hf
  case inr.inr.inr =>
    obtain ⟨_, hkept, _⟩ := condition_of_quiet hq
    rw [tick_isFaulted, hkept, ((isReady_iff s).mp hr).2] at hf
    cases hf

/-- Settles O10: the four things a word can do, by their effect on CFG and FAULT. -/
theorem conditionChanges : Obligations.ConditionChanges := by
  unfold Obligations.ConditionChanges
  intro s t w h
  rcases issueWord_cases h with ⟨_, _, rfl⟩ | ⟨e, rfl, _⟩ | ⟨hw, _, rfl⟩ | ⟨_, _, _, _, m, _, hq, rfl⟩
  case inl => exact .inl ⟨rfl, rfl⟩
  case inr.inl => exact .inr (.inr ⟨raise_isFaulted e w s, raise_isConfigured e w s⟩)
  case inr.inr.inl =>
    exact .inr (.inl ⟨hw.trans encode_engNew, construct_isReady s.a0.val s, construct_cause s.a0.val s, rfl⟩)
  case inr.inr.inr =>
    obtain ⟨hc, hf, _⟩ := condition_of_quiet hq
    exact .inl ⟨hc, hf⟩

/-- Settles O11: from FAULTED a word is refused, or raises a fault that is not the first, or leaves FAULTED; any other
host action leaves the status register alone. -/
theorem firstFaultIsSticky : Obligations.FirstFaultIsSticky := by
  unfold Obligations.FirstFaultIsSticky
  intro s t h hs ht
  rcases step_cases h with ⟨w, rest, _, hw⟩ | ⟨_, _, _, _, _, _, _, _, _, rfl⟩
  case inr => exact ⟨rfl, rfl⟩
  case inl =>
    rcases issueWord_cases hw with ⟨_, _, rfl⟩ | ⟨e, rfl, _⟩ | ⟨_, _, rfl⟩ | ⟨_, _, hr, _⟩
    case inl => exact ⟨rfl, rfl⟩
    case inr.inl =>
      have hs' : State.isFaulted { s with inbox := rest } = true := hs
      exact ⟨raise_cause_kept e w hs', raise_fcmd_kept e w hs'⟩
    case inr.inr.inl => simp at ht
    case inr.inr.inr => exact absurd (((isReady_iff _).mp hr).2.symm.trans hs) Bool.false_ne_true

/-! The step of an issued word -/

theorem step_issue {s : State} {w : Word} {rest : List HostAction} (hl : legalConfig s.cfg = true)
    (hi : s.inbox = .issue w :: rest) : step s = issueWord w { s with inbox := rest } := by
  rw [step, if_pos hl, hi]

/-- Settles O5: a step on an issued word is that word, and a word that decodes is its command. -/
theorem stepRunsDecodedCommand : Obligations.StepRunsDecodedCommand := by
  unfold Obligations.StepRunsDecodedCommand
  intro s w rest i hl hi hd
  exact (step_issue hl hi).trans (CommandGate.issueWord_of_decode_ok hd _)

/-! POWER-ON and CFG -/

/-- Settles O14: three fields of one state. -/
theorem powerOnValues : Obligations.PowerOnValues := by
  unfold Obligations.PowerOnValues
  exact ⟨rfl, rfl, rfl⟩

theorem issueWord_cfg {w : Word} {s t : State} (h : issueWord w s = .next t) : t.cfg = s.cfg := by
  rcases issueWord_cases h with ⟨_, _, rfl⟩ | ⟨e, rfl, _⟩ | ⟨_, _, rfl⟩ | ⟨_, _, _, _, m, _, hq, rfl⟩
  case inl | inr.inl | inr.inr.inl => rfl
  case inr.inr.inr => exact hq.cfg

/-- Settles O18: neither a word nor another host action writes CFG. -/
theorem configNeverChanges : Obligations.ConfigNeverChanges := by
  unfold Obligations.ConfigNeverChanges
  intro s t h
  rcases step_cases h with ⟨w, rest, _, hw⟩ | ⟨_, _, _, _, _, _, _, _, _, rfl⟩
  · exact (issueWord_cfg hw).trans rfl
  · rfl

end Sys2Proof.Proofs.Condition
end

section
/-! The invariant of the machine (10_state.md R39, R24, R25; 20_memory.md R67): POWER-ON meets it and every step keeps it. -/

-- One theorem after another: a thread for each proof would take the whole text past its memory limit.
set_option Elab.async false

namespace Sys2Proof.Proofs.InvariantKept

open Sys2Proof.Machine Sys2Proof.Claims

/-! POWER-ON -/

theorem reset_status : StatusGood State.reset :=
  ⟨by decide, by decide, by decide, by decide⟩

theorem reset_files : FilesGood State.reset := ⟨rfl, rfl, rfl, rfl, rfl, rfl, rfl, rfl, rfl⟩

theorem reset_spaces : SpacesGood State.reset where
  firBuf f hf := by
    rw [List.eq_of_mem_replicate hf]
    exact ⟨rfl, Memory.fits_nil _⟩
  firCoef f hf := by
    rw [List.eq_of_mem_replicate hf]
    exact ⟨rfl, Memory.fits_nil _⟩
  dlyBuf f hf := by
    rw [List.eq_of_mem_replicate hf]
    exact ⟨rfl, Memory.fits_nil _⟩

/-- Settles O15: the parts of the invariant one by one; the core is not READY, so nothing is asked of the units. -/
theorem resetMeetsInvariant : Obligations.ResetMeetsInvariant := by
  unfold Obligations.ResetMeetsInvariant
  exact ⟨by decide, reset_status, reset_files, reset_spaces, fun hr => absurd hr (by decide)⟩

/-! ENG.NEW -/

/-- The checks that `ENG.NEW` has passed when it constructs (48_engine.md R243). -/
theorem engineCheck_eq_none {cfg : Config} {d : Draw} {fs : F32} (h : engineCheck cfg d fs = none) :
    isPow2 cfg.l = true ∧ fle two32 (engineCapf cfg d fs) = true ∧
      fle (engineCapf cfg d fs) (f32 cfg.dlyCapMax) = true := by
  unfold engineCheck at h
  split at h
  · cases h
  · split at h
    · cases h
    · rename_i hl
      split at h
      · rename_i hcap
        rw [Bool.and_eq_true] at hcap
        exact ⟨by simpa using hl, hcap⟩
      · cases h

theorem f32_two : f32 2 = two32 := by rfl

/-- The capacity `ENG.NEW` gives a buffer lies between its checks. -/
theorem capacity_bounds {cfg : Config} {d : Draw} {fs : F32} (h : engineCheck cfg d fs = none)
    (hmax : cfg.dlyCapMax < 2 ^ 24) :
    2 ≤ intOf (engineCapf cfg d fs) ∧ intOf (engineCapf cfg d fs) ≤ cfg.dlyCapMax := by
  obtain ⟨_, hlo, hhi⟩ := engineCheck_eq_none h
  rw [← f32_two] at hlo
  have h0 : fle 0 (engineCapf cfg d fs) = true := by
    obtain ⟨_, hn, hle⟩ := fle_iff.mp hlo
    rw [fle_iff]
    exact ⟨by decide, hn, le_trans (by decide) hle⟩
  exact ⟨le_intOf_of_fle hlo (by norm_num), intOf_le_of_fle h0 hhi hmax.le⟩

/-- What the invariant needs of a legal configuration. -/
theorem bounds_of_legalConfig {cfg : Config} (h : legalConfig cfg = true) :
    (isPow2 cfg.l = true → cfg.l ≤ cfg.lMax) ∧ cfg.dlyCapMax < 2 ^ 24 ∧ 2 ≤ cfg.dlyCapMax ∧
      cfg.nFir = 2 * cfg.nOvs ∧ cfg.nRpt ≤ cfg.nDly := by
  simp only [legalConfig, legalFir, legalLength, legalSmooth, legalCounts, Bool.and_eq_true, decide_eq_true_eq,
    beq_iff_eq] at h
  refine ⟨fun hp => ?_, by tauto, by tauto, by tauto, by tauto⟩
  have hl : (!isPow2 cfg.l || decide (cfg.l ≤ cfg.lMax)) = true := by tauto
  simpa [hp] using hl

/-- A construction that passed its checks meets the invariant, whatever the units held before. -/
theorem invariant_construct {s : State} (h : Invariant s) {fs : F32} (hc : engineCheck s.cfg s.draw fs = none) :
    Invariant (construct fs s) := by
  obtain ⟨hl, hmax, _⟩ := bounds_of_legalConfig h.config
  have hpow := (engineCheck_eq_none hc).1
  have hcap := capacity_bounds hc hmax
  refine ⟨h.config, ?_, ?_, ?_, fun _ => ?_⟩
  · exact
      { reserved := (stConstructed_reserved s.st).trans h.status.reserved
        exclusive := fun _ => construct_isFaulted fs s
        noFault := fun _ => ⟨construct_cause fs s, rfl⟩
        fault := fun hf => absurd hf (by simp) }
  · exact
      { fir := by simp
        afs := by simp
        opf := by simp
        rmp := by simp
        exs := by simp
        dly := by simp
        rpt := by simp
        va := h.files.va
        vr := h.files.vr }
  · refine ⟨fun f hf => ?_, fun f hf => ?_, fun f hf => ?_⟩
    · obtain ⟨u, _, rfl⟩ := List.mem_map.mp hf
      exact ⟨rfl, Memory.fits_nil _⟩
    · obtain ⟨u, _, rfl⟩ := List.mem_map.mp hf
      exact coefTable_good s.cfg u s.cfg.lMax
    · rw [List.eq_of_mem_replicate hf]
      exact ⟨rfl, Memory.fits_nil _⟩
  · refine ⟨fun f hf => ?_, fun f hf => ?_, fun u f hf => ?_, fun e he => ?_⟩
    · obtain ⟨u, _, rfl⟩ := List.mem_map.mp hf
      exact newFir_good hpow (hl hpow)
    · rw [List.eq_of_mem_replicate hf]
      exact ⟨hcap.1, hcap.2, by show 0 < intOf _; omega⟩
    · rw [List.eq_of_mem_replicate (List.mem_of_getElem? hf)]
      exact Nat.zero_le _
    · rw [List.eq_of_mem_replicate he]
      exact ⟨Nat.zero_le _, Nat.zero_le _, Nat.zero_le _⟩

/-! The parts of the bodies -/

/-- One FIR call keeps the invariant, and its result has `N` lanes. -/
theorem invariant_firStep {s : State} (h : Invariant s) {u : Nat} {f g : Fir} {v out : Lanes}
    (hf : s.fir[u]? = some f) (hs : firStep s.cfg s.draw f v = some (g, out)) :
    Invariant (s.setFir u g) ∧ out.length = s.cfg.n := by
  obtain ⟨⟨hi, _⟩, rfl, rfl⟩ := firStep_eq_some hs
  have hm := List.mem_of_getElem? hf
  exact ⟨h.setFir u (firPush_buf (h.spaces.firBuf f hm) hi v) (h.spaces.firCoef f hm)
    fun hr => firPush_good ((h.units hr).fir f hm) v, vecOf_length _ _⟩

theorem invariant_ovsUpBody {o : Nat} {s m : State} (h : Invariant s) (hb : ovsUpBody o s = .next m) : Invariant m := by
  obtain ⟨_, f, g, out, hf, hs, rfl⟩ := ovsUpBody_eq_next hb
  obtain ⟨hg, hout⟩ := invariant_firStep h hf hs
  exact (hg.writeVr hout).spend

theorem invariant_ovsDnBody {o : Nat} {s m : State} (h : Invariant s) (hb : ovsDnBody o s = .next m) : Invariant m := by
  obtain ⟨_, f, g, out, hf, hs, rfl⟩ := ovsDnBody_eq_next hb
  obtain ⟨hg, hout⟩ := invariant_firStep h hf hs
  exact ((hg.writeVr hout).writeR _).spend

theorem invariant_shapeBody {fn : Nat} {s m : State} (h : Invariant s)
    (hb : (if fn = 0 then wsRatBody s else wsDiodeBody s) = .next m) : Invariant m := by
  obtain ⟨_, out, hout, rfl⟩ := shapeBody_eq_next hb
  exact (h.writeVr hout).spend

theorem invariant_vaFromVr {s : State} (h : Invariant s) : Invariant (vaFromVr s) := h.writeVa h.files.vr

theorem invariant_ovsProcBody {o fn : Nat} {s m : State} (h : Invariant s) (hb : ovsProcBody o fn s = .next m) :
    Invariant m := by
  obtain ⟨t1, t2, h1, h2, h3⟩ := ovsProcBody_eq_next hb
  have i1 := invariant_vaFromVr (invariant_ovsUpBody h h1)
  have i2 := invariant_vaFromVr (invariant_shapeBody i1 h2)
  exact invariant_ovsDnBody i2 h3

theorem invariant_afsCoefBody {u : Nat} {s m : State} (h : Invariant s) (hb : afsCoefBody u s = .next m) :
    Invariant m := by
  obtain ⟨_, f, _, rfl⟩ := afsCoefBody_eq_next hb
  exact (h.setAfs _ _).spend

theorem invariant_afsStepBody {u : Nat} {s m : State} (h : Invariant s) (hb : afsStepBody u s = .next m) :
    Invariant m := by
  obtain ⟨_, f, _, rfl⟩ := afsStepBody_eq_next hb
  exact ((h.setAfs _ _).writeR _).spend

theorem invariant_afsProcBody {u : Nat} {s m : State} (h : Invariant s) (hb : afsProcBody u s = .next m) :
    Invariant m := by
  obtain ⟨t1, t2, h1, h2, h3⟩ := afsProcBody_eq_next hb
  obtain ⟨f, _, rfl⟩ := afsGainBody_eq_next h3
  exact (((invariant_afsStepBody (invariant_afsCoefBody h h1) h2).setAfs _ _).writeR _).spend

theorem invariant_rmpSetBody {u : Nat} {s m : State} (h : Invariant s) (hb : rmpSetBody u s = .next m) :
    Invariant m := by
  obtain ⟨_, f, hf, rfl⟩ := rmpSetBody_eq_next hb
  exact (h.setRmp fun hr => rampSet_cnt ((h.units hr).rmp u f hf)).spend

theorem invariant_rmpStepBody {u : Nat} {s m : State} (h : Invariant s) (hb : rmpStepBody u s = .next m) :
    Invariant m := by
  obtain ⟨f, hf, rfl⟩ := rmpStepBody_eq_next hb
  refine ((h.setRmp fun hr => ?_).writeR _).spend
  rw [rampStep_cnt]
  exact le_trans (Nat.sub_le _ _) ((h.units hr).rmp u f hf)

/-- A write of a buffer whose cursor is in its space keeps the invariant. -/
theorem invariant_delayWrite {s : State} (h : Invariant s) {u : Nat} {f : Delay} (hf : f ∈ s.dly)
    (hi : delayInSpace s.cfg f = true) (x : F32) : Invariant (s.setDly u (delayWrite f x)) :=
  h.setDly u (delayWrite_buf (h.spaces.dlyBuf f hf) hi x) fun hr => delayWrite_good ((h.units hr).dly f hf) x

/-- The number of taps a repeat command gives passes its check. -/
theorem count_le_of_fieldCheck {cfg : Config} {i : Instr} {u count : Nat}
    (hi : i ∈ [.rptProc u count, .rptInit u count]) (h : fieldCheck cfg i = none) : count ≤ cfg.rptMaxTaps := by
  rw [RepeatEngine.fieldCheck_rpt hi] at h
  split_ifs at h with _ hc
  exact hc

theorem length_of_fieldCheck_firNew {cfg : Config} {u len : Nat} (h : fieldCheck cfg (.firNew u len) = none) :
    isPow2 len = true ∧ len ≤ cfg.lMax := by
  simp only [fieldCheck] at h
  split_ifs at h with _ hp hl
  exact ⟨hp, hl⟩

/-- The body of every command keeps the invariant, once its fields are checked. -/
theorem invariant_commandBody {i : Instr} {s m : State} (h : Invariant s) (hc : fieldCheck s.cfg i = none)
    (hb : commandBody i s = .next m) : Invariant m := by
  cases i with
  | engNew =>
    obtain ⟨_, ⟨e, _, rfl⟩ | ⟨hcheck, rfl⟩⟩ := engNewBody_eq_next hb
    · exact h.raise e _
    · exact (invariant_construct h hcheck).spend
  | firNew u len =>
    obtain ⟨_, rfl⟩ := firNewBody_eq_next hb
    obtain ⟨hp, hl⟩ := length_of_fieldCheck_firNew hc
    exact h.setFir u ⟨rfl, Memory.fits_nil _⟩ (coefTable_good s.cfg u s.cfg.lMax) fun _ => newFir_good hp hl
  | firProc u =>
    obtain ⟨_, f, g, out, hf, hs, rfl⟩ := firProcBody_eq_next hb
    obtain ⟨hg, hout⟩ := invariant_firStep h hf hs
    exact (hg.writeVr hout).spend
  | ovsUp o => exact invariant_ovsUpBody h hb
  | ovsDn o => exact invariant_ovsDnBody h hb
  | ovsProc o fn => exact invariant_ovsProcBody h hb
  | wsRat => exact invariant_shapeBody (fn := 0) h hb
  | wsDiode => exact invariant_shapeBody (fn := 1) h hb
  | afsCoef u => exact invariant_afsCoefBody h hb
  | afsStep u => exact invariant_afsStepBody h hb
  | afsProc u => exact invariant_afsProcBody h hb
  | opfProc u =>
    obtain ⟨_, _, f, _, rfl⟩ := opfProcBody_eq_next hb
    exact ((h.setOpf _ _).writeR _).spend
  | rmpSet u => exact invariant_rmpSetBody h hb
  | rmpStep u => exact invariant_rmpStepBody h hb
  | rmpProc u =>
    obtain ⟨t1, h1, h2⟩ := rmpProcBody_eq_next hb
    exact invariant_rmpStepBody (invariant_rmpSetBody h h1) h2
  | rmpInit u =>
    obtain ⟨_, _, rfl⟩ := rmpInitBody_eq_next hb
    exact h.setRmp fun _ => Nat.zero_le _
  | exsProc u =>
    obtain ⟨_, f, _, rfl⟩ := exsProcBody_eq_next hb
    exact ((h.setExs _ _).writeR _).spend
  | exsInit u =>
    obtain ⟨_, f, _, rfl⟩ := exsInitBody_eq_next hb
    exact h.setExs _ _
  | dlyWr u =>
    obtain ⟨_, f, hf, hi, rfl⟩ := dlyWrBody_eq_next hb
    exact invariant_delayWrite h (List.mem_of_getElem? hf) hi _
  | dlyRd u mode =>
    obtain ⟨_, f, _, _, ⟨v, _, rfl⟩ | ⟨_, rfl⟩⟩ := dlyRdBody_eq_next hb
    · exact (h.writeR v).spend
    · exact h.raise _ _
  | rptProc u count =>
    obtain ⟨_, e, f, he, hf, hi, ⟨e', out, heval, rfl⟩ | ⟨_, rfl⟩⟩ := rptProcBody_eq_next hb
    · have hcount := count_le_of_fieldCheck (u := u) (count := count) (by simp) hc
      have hr := h.setRpt u fun hr => rptEvaluate_good
        (rptDetect_good ((h.units hr).rpt e (List.mem_of_getElem? he)) hcount) heval
      exact ((invariant_delayWrite hr (List.mem_of_getElem? hf) hi _).writeR out).spend
    · exact h.raise _ _
  | rptInit u count =>
    obtain ⟨_, _, rfl⟩ := rptInitBody_eq_next hb
    have hcount := count_le_of_fieldCheck (u := u) (count := count) (by simp) hc
    exact h.setRpt u fun _ => ⟨Nat.zero_le _, hcount, hcount⟩

/-! The step -/

theorem invariant_issueWord {w : Word} {s t : State} (h : Invariant s) (hw : issueWord w s = .next t) :
    Invariant t := by
  rcases issueWord_cases hw with ⟨_, _, rfl⟩ | ⟨e, rfl, _⟩ | ⟨_, hc, rfl⟩ | ⟨i, _, _, hc, m, hb, _, rfl⟩
  · exact h.tick
  · exact (h.raise e w).tick
  · exact (invariant_construct h hc).spend.tick
  · exact (invariant_commandBody h hc hb).tick

theorem lanesShown_length {s : State} {p : VecPort} (h : p.lanes.length = s.cfg.n) : (lanesShown s p).length = s.cfg.n := by
  unfold lanesShown
  split
  · exact h
  · exact vecOf_length _ _

/-- Settles O16: a word keeps the invariant in each of the four things it can do; any other host action touches none of
its fields but VA, which it gives `N` lanes. -/
theorem stepKeepsInvariant : Obligations.StepKeepsInvariant := by
  unfold Obligations.StepKeepsInvariant
  intro s t h hstep
  rcases step_cases hstep with ⟨w, rest, _, hw⟩ | ⟨a0, a1, a2, a3, va, rest, obs, draws, hva, rfl⟩
  · exact invariant_issueWord (h.host s.a0 s.a1 s.a2 s.a3 h.files.va rest s.obs s.draws s.pc) hw
  · have hlen : va.lanes.length = s.cfg.n := by
      rcases hva with rfl | ⟨v, rfl, hv | rfl⟩
      · exact h.files.va
      · exact hv
      · exact lanesShown_length (s := { s with inbox := rest }) h.files.vr
    exact h.host a0 a1 a2 a3 hlen rest obs draws s.pc

end Sys2Proof.Proofs.InvariantKept
end

section
/-! The fields of a command (30_encoding.md R92; R95 steps 3 and 4), and what a command does whose unit exists: it never
leaves its spaces (20_memory.md R67), and it refuses an operand nothing has written (10_state.md R22). -/

-- One theorem after another: a thread for each proof would take the whole text past its memory limit.
set_option Elab.async false

namespace Sys2Proof.Proofs.Fields

open Sys2Proof.Machine Sys2Proof.Claims

/-! The unit index -/

/-- The unit count of a command's kind (R92); a command of format Z has unit index 0, and no count. -/
def kindCount (cfg : Config) : Instr → Nat
  | .engNew | .wsRat | .wsDiode => 1
  | .firNew _ _ | .firProc _ => cfg.nFir
  | .ovsUp _ | .ovsDn _ | .ovsProc _ _ => cfg.nOvs
  | .afsCoef _ | .afsStep _ | .afsProc _ => cfg.nAfs
  | .opfProc _ => cfg.nOpf
  | .rmpSet _ | .rmpStep _ | .rmpProc _ | .rmpInit _ => cfg.nRmp
  | .exsProc _ | .exsInit _ => cfg.nExs
  | .dlyWr _ | .dlyRd _ _ => cfg.nDly
  | .rptProc _ _ | .rptInit _ _ => cfg.nRpt

/-- The check of the unit index comes first: one that is not below its count is illegal whatever the immediate. -/
theorem fieldCheck_of_unit_ge {cfg : Config} {i : Instr} (h : kindCount cfg i ≤ i.unitIndex) :
    fieldCheck cfg i = some .illegal := by
  cases i <;> simp_all [kindCount, Instr.unitIndex, fieldCheck]

theorem unit_lt_of_fieldCheck {cfg : Config} {i : Instr} (h : fieldCheck cfg i = none) :
    i.unitIndex < kindCount cfg i := by
  by_contra hc
  rw [fieldCheck_of_unit_ge (Nat.not_lt.mp hc)] at h
  cases h

/-- In READY a unit index that is not below its count makes the command fault. -/
theorem faultsWith_of_unit_ge {s : State} {i : Instr} (hr : s.isReady = true) (h : kindCount s.cfg i ≤ i.unitIndex) :
    faultsWith .illegal i s := exec_ready_illegal hr (fieldCheck_of_unit_ge h)

theorem not_isPow2_of {k : Nat} (h : ¬ ∃ e, k = 2 ^ e) : isPow2 k = false :=
  Bool.eq_false_iff.mpr fun hp => h ((isPow2_iff k).mp hp)

/-- Settles O7: for the unit index one argument for every kind; for the immediates the check behind it. -/
theorem fieldsChecked : Obligations.FieldsChecked := by
  unfold Obligations.FieldsChecked
  intro s u k hr
  have unit : ∀ {i : Instr}, kindCount s.cfg i ≤ i.unitIndex → faultsWith .illegal i s := faultsWith_of_unit_ge hr
  refine ⟨?fir, ?ovs, ?afs, ?opf, ?rmp, ?exs, ?dly, ?rpt, ?notPow2, ?tooLong, ?fn, ?mode, ?taps⟩
  case opf => exact fun hu => unit hu
  case fir | ovs | afs | rmp | exs | dly | rpt =>
    intro hu
    simp only [List.forall_mem_cons, List.not_mem_nil, false_implies, implies_true, and_true]
    and_intros
    all_goals exact unit hu
  case notPow2 =>
    exact fun hu hk => exec_ready_illegal hr (FirUnit.fieldCheck_firNew_of_not_isPow2 hu (not_isPow2_of hk))
  case tooLong =>
    exact fun hu hk hl => exec_ready_illegal hr (FirUnit.fieldCheck_firNew_of_gt_lMax hu ((isPow2_iff k).mpr hk) hl)
  case fn => exact fun hu hk => exec_ready_illegal hr (Oversampler.fieldCheck_ovsProc_of_fn_gt hu hk)
  case mode => exact fun _ hk => exec_ready_illegal hr (DelayBuffer.fieldCheck_dlyRd_of_mode_ne_zero s.cfg u hk)
  case taps => exact fun hu hk i hi => exec_ready_illegal hr (RepeatEngine.fieldCheck_rpt_of_count_gt hu hk hi)

/-! No part of a command stops with the model's fault -/

/-- The part answers a next state or a refusal. -/
def NoFault (a : Result) : Prop := ∀ f, a ≠ .fault f

theorem NoFault.next (s : State) : NoFault (.next s) := fun _ h => by cases h

theorem NoFault.refused (r : Refusal) : NoFault (.refused r) := fun _ h => by cases h

theorem NoFault.andThen {a : Result} {k : State → Result} (ha : NoFault a) (hk : ∀ m, a = .next m → NoFault (k m)) :
    NoFault (a.andThen k) := by
  intro f h
  rcases andThen_eq_fault.mp h with h | ⟨m, hm, h⟩
  · exact ha f h
  · exact hk m hm f h

theorem NoFault.withOperand {reg : PortReg} {p : Port} {k : F32 → Result} (hk : NoFault (k p.val)) :
    NoFault (withOperand reg p k) := fun f h => hk f (withOperand_eq_fault.mp h).2

theorem NoFault.withLanes {reg : PortReg} {p : VecPort} {k : Lanes → Result} (hk : NoFault (k p.lanes)) :
    NoFault (withLanes reg p k) := fun f h => hk f (withLanes_eq_fault.mp h).2

theorem NoFault.withUnit {α : Type} {file : List α} {u : Nat} {k : α → Result} (hu : u < file.length)
    (hk : ∀ x, file[u]? = some x → NoFault (k x)) : NoFault (withUnit file u k) := by
  intro f h
  rcases withUnit_eq_fault.mp h with h | ⟨x, hx, h⟩
  · exact absurd (List.getElem?_eq_none_iff.mp h) (Nat.not_le.mpr hu)
  · exact hk x hx f h

/-- A FIR call of a good unit finds its indices in their spaces. -/
theorem NoFault.withFirStep {u : Nat} {v : Lanes} {s : State} {k : State → Lanes → Result} (hu : u < s.fir.length)
    (hg : UnitsGood s) (hk : ∀ t out, NoFault (k t out)) : NoFault (withFirStep u v s k) := by
  intro f h
  rcases withFirStep_eq_fault h with h | ⟨g, hgu, hout⟩ | ⟨t, out, h⟩
  · exact absurd (List.getElem?_eq_none_iff.mp h) (Nat.not_le.mpr hu)
  · obtain ⟨_, hlen, hidx⟩ := hg.fir g (List.mem_of_getElem? hgu)
    exact hout ⟨lt_of_lt_of_le hidx hlen, hlen⟩
  · exact hk t out f h

section

variable {s : State}

/-- A state with every unit in place, in READY: what the invariant gives a command that passed the gate. -/
structure Served (s : State) : Prop where
  inv : Invariant s
  ready : s.isReady = true

theorem Served.units (h : Served s) : UnitsGood s := h.inv.units h.ready

theorem Served.after {m : State} (h : Served s) (hm : Invariant m) (q : Quiet s m) : Served m :=
  ⟨hm, Oversampler.isReady_of_quiet q h.ready⟩

/-- Both FIR units of an oversampler exist (00_scope.md R8). -/
theorem Served.firUnit_lt (h : Served s) {o : Nat} (ho : o < s.cfg.nOvs) : 2 * o + 1 < s.fir.length := by
  obtain ⟨_, _, _, hfir, _⟩ := InvariantKept.bounds_of_legalConfig h.inv.config
  rw [h.inv.files.fir, hfir]
  omega

theorem noFault_ovsUpBody (h : Served s) {o : Nat} (ho : o < s.cfg.nOvs) : NoFault (ovsUpBody o s) :=
  .withOperand (.withFirStep (Nat.lt_of_succ_lt (h.firUnit_lt ho)) h.units fun _ _ => .next _)

theorem noFault_ovsDnBody (h : Served s) {o : Nat} (ho : o < s.cfg.nOvs) : NoFault (ovsDnBody o s) :=
  .withLanes (.withFirStep (h.firUnit_lt ho) h.units fun _ _ => .next _)

theorem noFault_shapeBody (fn : Nat) (s : State) : NoFault (if fn = 0 then wsRatBody s else wsDiodeBody s) := by
  split
  · exact .withLanes (.next _)
  · exact .withLanes (.next _)

theorem noFault_ovsProcBody (h : Served s) {o : Nat} (fn : Nat) (ho : o < s.cfg.nOvs) : NoFault (ovsProcBody o fn s) := by
  refine (noFault_ovsUpBody h ho).andThen fun t1 h1 => (noFault_shapeBody fn _).andThen fun t2 h2 => ?_
  have s1 : Served (vaFromVr t1) := h.after (InvariantKept.invariant_vaFromVr (InvariantKept.invariant_ovsUpBody h.inv h1))
    ((ovsUpBody_quiet h1).comp (vaFromVr_quiet t1))
  have s2 : Served (vaFromVr t2) :=
    s1.after (InvariantKept.invariant_vaFromVr (InvariantKept.invariant_shapeBody s1.inv h2))
      ((shapeBody_quiet h2).comp (vaFromVr_quiet t2))
  have hcfg : (vaFromVr t2).cfg = s.cfg := (((ovsUpBody_quiet h1).comp (vaFromVr_quiet t1)).comp
    ((shapeBody_quiet h2).comp (vaFromVr_quiet t2))).cfg
  exact noFault_ovsDnBody s2 (hcfg ▸ ho)

theorem noFault_afsCoefBody {u : Nat} (hu : u < s.afs.length) : NoFault (afsCoefBody u s) :=
  .withOperand (.withUnit hu fun _ _ => .next _)

theorem noFault_afsStepBody {u : Nat} (hu : u < s.afs.length) : NoFault (afsStepBody u s) :=
  .withOperand (.withUnit hu fun _ _ => .next _)

theorem noFault_afsProcBody {u : Nat} (hu : u < s.afs.length) : NoFault (afsProcBody u s) := by
  refine ((noFault_afsCoefBody hu).andThen fun t1 h1 => ?_).andThen fun t2 h2 => ?_
  · obtain ⟨_, f, _, rfl⟩ := afsCoefBody_eq_next h1
    exact noFault_afsStepBody (by simpa using hu)
  · obtain ⟨t1, h1, h2⟩ := andThen_eq_next.mp h2
    obtain ⟨_, f, _, rfl⟩ := afsCoefBody_eq_next h1
    obtain ⟨_, g, _, rfl⟩ := afsStepBody_eq_next h2
    exact .withUnit (by simpa using hu) fun _ _ => .next _

theorem noFault_rmpProcBody {u : Nat} (hu : u < s.rmp.length) : NoFault (rmpProcBody u s) := by
  refine NoFault.andThen (.withOperand (.withUnit hu fun _ _ => .next _)) fun t h => ?_
  obtain ⟨_, f, _, rfl⟩ := rmpSetBody_eq_next h
  exact .withUnit (by simpa using hu) fun _ _ => .next _

theorem Served.delayInSpace (h : Served s) {u : Nat} {f : Delay} (hf : s.dly[u]? = some f) :
    delayInSpace s.cfg f = true := delayInSpace_of_good (h.units.dly f (List.mem_of_getElem? hf))

theorem noFault_dlyWrBody (h : Served s) {u : Nat} (hu : u < s.dly.length) : NoFault (dlyWrBody u s) := by
  refine .withOperand (.withUnit hu fun f hf => ?_)
  rw [if_pos (h.delayInSpace hf)]
  exact .next _

theorem noFault_dlyRdBody (h : Served s) {u : Nat} (mode : Nat) (hu : u < s.dly.length) :
    NoFault (dlyRdBody u mode s) := by
  refine .withOperand (.withUnit hu fun f hf => ?_)
  rw [if_pos (h.delayInSpace hf)]
  split
  · exact .next _
  · exact .next _

theorem noFault_rptProcBody (h : Served s) {u : Nat} (count : Nat) (hu : u < s.rpt.length) (hd : u < s.dly.length) :
    NoFault (rptProcBody u count s) := by
  refine .withOperand (.withOperand (.withOperand (.withOperand (.withUnit hu fun e _ => .withUnit hd fun f hf => ?_))))
  rw [if_pos (h.delayInSpace hf)]
  dsimp only
  split
  · exact .next _
  · exact .next _

theorem noFault_engNewBody (s : State) : NoFault (engNewBody s) := by
  refine .withOperand ?_
  split
  · exact .next _
  · exact .next _

/-- With every unit in place and the fields checked, no body stops with the model's fault. -/
theorem noFault_commandBody {i : Instr} (h : Served s) (hc : fieldCheck s.cfg i = none) : NoFault (commandBody i s) := by
  have files := h.inv.files
  have hu := unit_lt_of_fieldCheck hc
  unfold commandBody
  cases i with
  | engNew => exact noFault_engNewBody s
  | firNew u len => exact .withUnit (hu.trans_eq files.fir.symm) fun _ _ => .next _
  | firProc u => exact .withLanes (.withFirStep (hu.trans_eq files.fir.symm) h.units fun _ _ => .next _)
  | ovsUp o => exact noFault_ovsUpBody h hu
  | ovsDn o => exact noFault_ovsDnBody h hu
  | ovsProc o fn => exact noFault_ovsProcBody h fn hu
  | wsRat => exact noFault_shapeBody 0 s
  | wsDiode => exact noFault_shapeBody 1 s
  | afsCoef u => exact noFault_afsCoefBody (hu.trans_eq files.afs.symm)
  | afsStep u => exact noFault_afsStepBody (hu.trans_eq files.afs.symm)
  | afsProc u => exact noFault_afsProcBody (hu.trans_eq files.afs.symm)
  | opfProc u => exact .withOperand (.withOperand (.withUnit (hu.trans_eq files.opf.symm) fun _ _ => .next _))
  | rmpSet u => exact .withOperand (.withUnit (hu.trans_eq files.rmp.symm) fun _ _ => .next _)
  | rmpStep u => exact .withUnit (hu.trans_eq files.rmp.symm) fun _ _ => .next _
  | rmpProc u => exact noFault_rmpProcBody (hu.trans_eq files.rmp.symm)
  | rmpInit u => exact .withOperand (.withUnit (hu.trans_eq files.rmp.symm) fun _ _ => .next _)
  | exsProc u => exact .withOperand (.withUnit (hu.trans_eq files.exs.symm) fun _ _ => .next _)
  | exsInit u => exact .withOperand (.withUnit (hu.trans_eq files.exs.symm) fun _ _ => .next _)
  | dlyWr u => exact noFault_dlyWrBody h (hu.trans_eq files.dly.symm)
  | dlyRd u mode => exact noFault_dlyRdBody h mode (hu.trans_eq files.dly.symm)
  | rptProc u count =>
    obtain ⟨_, _, _, _, hrpt⟩ := InvariantKept.bounds_of_legalConfig h.inv.config
    exact noFault_rptProcBody h count (hu.trans_eq files.rpt.symm) ((hu.trans_le hrpt).trans_eq files.dly.symm)
  | rptInit u count => exact .withOperand (.withOperand (.withOperand (.withUnit (hu.trans_eq files.rpt.symm) fun _ _ => .next _)))

end

/-- A step stops with a fault only on a word. -/
theorem step_eq_fault {s : State} {f : Fault} (h : step s = .fault f) :
    ∃ w rest, issueWord w { s with inbox := rest } = .fault f := by
  unfold step at h
  split at h
  · split at h
    case h_3 =>
      unfold hostWriteVa at h
      split at h <;> cases h
    case h_6 w rest _ => exact ⟨w, rest, h⟩
    all_goals cases h
  · cases h

/-- Settles O17: a fault could only come from the body of a command past the gate, and in READY, with every unit in
place, no body faults; nor does `ENG.NEW` in any condition. -/
theorem noIndexLeavesItsSpace : Obligations.NoIndexLeavesItsSpace := by
  unfold Obligations.NoIndexLeavesItsSpace
  intro s f h hstep
  obtain ⟨w, rest, hw⟩ := step_eq_fault hstep
  obtain ⟨i, _, rfl | hr, hc, hb⟩ := issueWord_eq_fault hw
  · exact noFault_engNewBody _ f hb
  · exact noFault_commandBody ⟨h.host s.a0 s.a1 s.a2 s.a3 h.files.va rest s.obs s.draws s.pc, hr⟩ hc f hb

end Sys2Proof.Proofs.Fields
end

section
/-! A command that reads a port register nothing has written since POWER-ON (10_state.md R22; 93 U1; log 5). -/

-- One theorem after another: a thread for each proof would take the whole text past its memory limit.
set_option Elab.async false

namespace Sys2Proof.Proofs.UnwrittenOperands

open Sys2Proof.Machine Sys2Proof.Claims Sys2Proof.Proofs.Fields

/-- The register a command reads before anything else. `AFS.PROC` begins with `AFS.COEF`, which reads A1. -/
def firstRead : Instr → Option PortReg
  | .afsProc _ => some .a1
  | i => (readsOf i).head?

theorem firstRead_mem {i : Instr} {reg : PortReg} (h : firstRead i = some reg) : reg ∈ readsOf i := by
  unfold firstRead at h
  split at h
  · cases h
    simp [readsOf]
  · exact List.mem_of_head? h

section

variable {s : State}

/-- A command whose first register nothing has written is refused for it. -/
theorem refused_of_firstRead {i : Instr} {reg : PortReg} (h : firstRead i = some reg)
    (hw : isWritten s reg = false) : commandBody i s = .refused (.unwrittenOperand reg) := by
  unfold commandBody
  cases i
  case firNew | rmpStep => cases h
  case firProc | ovsDn | wsRat | wsDiode =>
    cases h
    exact withLanes_unwritten hw _
  case ovsProc o fn =>
    cases h
    have hup : ovsUpBody o s = .refused (.unwrittenOperand .a0) := withOperand_unwritten hw _
    show Result.andThen (ovsUpBody o s) _ = _
    rw [hup, andThen_refused]
  case afsProc u =>
    cases h
    have hcoef : afsCoefBody u s = .refused (.unwrittenOperand .a1) := withOperand_unwritten hw _
    show Result.andThen (Result.andThen (afsCoefBody u s) _) _ = _
    rw [hcoef, andThen_refused, andThen_refused]
  case rmpProc u =>
    cases h
    have hset : rmpSetBody u s = .refused (.unwrittenOperand .a0) := withOperand_unwritten hw _
    show Result.andThen (rmpSetBody u s) _ = _
    rw [hset, andThen_refused]
  all_goals
    cases h
    exact withOperand_unwritten hw _

/-- `AFS.PROC` with A1 written: its first part completes, and the second is refused for A0. -/
theorem afsProcBody_refused {u : Nat} (hu : u < s.afs.length) (hw1 : s.a1.written = true)
    (hw0 : s.a0.written = false) : afsProcBody u s = .refused (.unwrittenOperand .a0) := by
  have hcoef := AnalogFilter.afsCoefBody_of_written (s := s) (control := s.a1.val) (by rw [← hw1])
    (List.getElem?_eq_getElem hu)
  have hstep : ∀ f, afsStepBody u (s.setAfs u f).spend = .refused (.unwrittenOperand .a0) :=
    fun f => withOperand_unwritten hw0 _
  rw [afsProcBody, hcoef, andThen_next, hstep, andThen_refused]

/-- The last two of the three registers of a supplied tap set, read after the first. -/
theorem tapSet_refused {k : F32 → F32 → Result} (h : isWritten s .a2 = false ∨ isWritten s .a3 = false) :
    ∃ reg ∈ [PortReg.a2, .a3], isWritten s reg = false ∧
      (withOperand .a2 s.a2 fun y => withOperand .a3 s.a3 fun z => k y z) = .refused (.unwrittenOperand reg) := by
  cases hw2 : s.a2.written with
  | false => exact ⟨.a2, by simp, hw2, withOperand_unwritten hw2 _⟩
  | true =>
    rw [withOperand_written hw2]
    have hw3 : s.a3.written = false := by simpa [isWritten, hw2] using h
    exact ⟨.a3, by simp, hw3, withOperand_unwritten hw3 _⟩

theorem rptInitBody_refused {u count : Nat} (hw1 : s.a1.written = true)
    (h : isWritten s .a2 = false ∨ isWritten s .a3 = false) :
    ∃ reg ∈ [PortReg.a2, .a3], isWritten s reg = false ∧
      rptInitBody u count s = .refused (.unwrittenOperand reg) := by
  rw [rptInitBody, withOperand_written hw1]
  exact tapSet_refused h

theorem rptProcBody_refused {u count : Nat} (hw0 : s.a0.written = true)
    (h : isWritten s .a1 = false ∨ isWritten s .a2 = false ∨ isWritten s .a3 = false) :
    ∃ reg ∈ [PortReg.a1, .a2, .a3], isWritten s reg = false ∧
      rptProcBody u count s = .refused (.unwrittenOperand reg) := by
  rw [rptProcBody, withOperand_written hw0]
  cases hw1 : s.a1.written with
  | false => exact ⟨.a1, by simp, hw1, withOperand_unwritten hw1 _⟩
  | true =>
    rw [withOperand_written hw1]
    obtain ⟨reg, hmem, hw, hb⟩ := tapSet_refused (s := s) (by simpa [isWritten, hw1] using h)
    exact ⟨reg, List.mem_cons_of_mem _ hmem, hw, hb⟩

/-- With its unit in place, a command that reads an unwritten register is refused for such a register: the first it
reads, or, of the four commands with more than one, the next that is unwritten. -/
theorem commandBody_refused {i : Instr} (files : FilesGood s) (hc : fieldCheck s.cfg i = none)
    (h : ∃ reg ∈ readsOf i, isWritten s reg = false) :
    ∃ reg ∈ readsOf i, isWritten s reg = false ∧ commandBody i s = .refused (.unwrittenOperand reg) := by
  cases hfirst : firstRead i with
  | none => cases i <;> simp_all [firstRead, readsOf]
  | some reg =>
    cases hw : isWritten s reg with
    | false => exact ⟨reg, firstRead_mem hfirst, hw, refused_of_firstRead hfirst hw⟩
    | true =>
      cases i with
      | afsProc u =>
        cases hfirst
        have hw0 : isWritten s .a0 = false := by simpa [readsOf, hw] using h
        exact ⟨.a0, by simp [readsOf], hw0,
          afsProcBody_refused ((unit_lt_of_fieldCheck hc).trans_eq files.afs.symm) hw hw0⟩
      | opfProc u =>
        cases hfirst
        have hw1 : isWritten s .a1 = false := by simpa [readsOf, hw] using h
        refine ⟨.a1, by simp [readsOf], hw1, ?_⟩
        rw [commandBody, opfProcBody, withOperand_written hw, withOperand_unwritten hw1]
      | rptProc u count =>
        cases hfirst
        obtain ⟨reg, hmem, hreg⟩ := rptProcBody_refused (u := u) (count := count) hw
          (by simpa [readsOf, hw] using h)
        exact ⟨reg, List.mem_cons_of_mem _ hmem, hreg⟩
      | rptInit u count =>
        cases hfirst
        obtain ⟨reg, hmem, hreg⟩ := rptInitBody_refused (u := u) (count := count) hw
          (by simpa [readsOf, hw] using h)
        exact ⟨reg, List.mem_cons_of_mem _ hmem, hreg⟩
      | _ => cases hfirst <;> simp [readsOf, hw] at h

/-- Past the gate and the checks, a command is refused where its body is. -/
theorem exec_refused {i : Instr} {r : Refusal} (hi : s.isReady = true ∨ i = .engNew) (hc : fieldCheck s.cfg i = none)
    (hb : commandBody i s = .refused r) : exec i s = .refused r := by
  rcases hi with hr | rfl
  · rw [exec_ready hr hc, hb, andThen_refused]
  · rw [exec_engNew, show engNewBody s = .refused r from hb, andThen_refused]

end

/-- Settles O13: every body reads its operands in an order and is refused for the first unwritten one; of `AFS.PROC` a
unit is read between them, which the file of the configuration has. -/
theorem unwrittenOperandRefused : Obligations.UnwrittenOperandRefused := by
  unfold Obligations.UnwrittenOperandRefused
  intro s i hi hc files h
  obtain ⟨reg, hmem, hw, hb⟩ := commandBody_refused files hc h
  exact ⟨reg, hmem, hw, exec_refused hi hc hb⟩

end Sys2Proof.Proofs.UnwrittenOperands
end

section
/-! The host's side of the port (70_reset_and_hazards.md R303; 30_encoding.md R97). -/

-- One theorem after another: a thread for each proof would take the whole text past its memory limit.
set_option Elab.async false

namespace Sys2Proof.Proofs.HostSide

open Sys2Proof.Machine

/-! What the host is shown -/

theorem scalarShown_written {p : Port} (h : p.written = true) (s : State) : scalarShown s p = p.val := if_pos h

theorem lanesShown_written {p : VecPort} (h : p.written = true) (s : State) : lanesShown s p = p.lanes := if_pos h

/-- A written scalar register is read as one word. -/
theorem portWords_scalar {s : State} {p : Port} (h : p.written = true) : [scalarShown s p] = [p.val] := by
  rw [scalarShown_written h]

/-! A step on each host action -/

section

variable {s : State} {rest : List HostAction}

theorem step_write {reg : OperandReg} {x : F32} (hl : legalConfig s.cfg = true)
    (hi : s.inbox = .write reg x :: rest) : step s = .next (hostWrite reg x { s with inbox := rest }) := by
  rw [step, if_pos hl, hi]

theorem step_writeVa {v : Lanes} (hl : legalConfig s.cfg = true) (hi : s.inbox = .writeVa v :: rest) :
    step s = hostWriteVa v { s with inbox := rest } := by
  rw [step, if_pos hl, hi]

theorem step_read {reg : PortReg} (hl : legalConfig s.cfg = true) (hi : s.inbox = .read reg :: rest) :
    step s = .next (hostRead reg { s with inbox := rest }) := by
  rw [step, if_pos hl, hi]

theorem step_copy {dst : OperandReg} {src : ScalarReg} (hl : legalConfig s.cfg = true)
    (hi : s.inbox = .copy dst src :: rest) : step s = .next (hostCopy dst src { s with inbox := rest }) := by
  rw [step, if_pos hl, hi]

theorem step_copyVa (hl : legalConfig s.cfg = true) (hi : s.inbox = .copyVa :: rest) :
    step s = .next (hostCopyVa { s with inbox := rest }) := by
  rw [step, if_pos hl, hi]

end

/-- Settles O59: each action is one equation of the step; what a READ and a copy show of a written register is its
value. -/
theorem hostPortActions : Obligations.HostPortActions := by
  unfold Obligations.HostPortActions
  intro s rest x v reg dst src hl
  refine ⟨step_write hl, step_write hl, step_write hl, step_write hl, fun hi hv => ?writeVa, fun hi => ?read,
    fun hi => ?copy, fun hi => ?copyVa⟩
  case writeVa => exact (step_writeVa hl hi).trans (if_pos hv)
  case read =>
    refine ⟨portWords { s with inbox := rest } reg, step_read hl hi, ?_, ?_, ?_, ?_, ?_, ?_, ?_, ?_, ?_⟩
    case refine_6 | refine_7 =>
      rintro rfl hw
      exact lanesShown_written hw _
    case refine_8 | refine_9 =>
      rintro rfl
      rfl
    all_goals
      rintro rfl hw
      exact portWords_scalar hw
  case copy =>
    refine ⟨scalarShown { s with inbox := rest } (scalarPort s src), ?_, ?_, ?_, ?_, ?_, ?_, ?_, ?_, ?_⟩
    case refine_6 | refine_7 | refine_8 | refine_9 =>
      rintro rfl
      exact step_copy hl hi
    all_goals
      rintro rfl hw
      exact scalarShown_written hw _
  case copyVa => exact ⟨lanesShown { s with inbox := rest } s.vr, fun hw => lanesShown_written hw _, step_copyVa hl hi⟩

end Sys2Proof.Proofs.HostSide
end

section
/-! What a command leaves alone (10_state.md R37): the write columns at the level of registers and unit files, and inside
a unit file. -/

-- One theorem after another: a thread for each proof would take the whole text past its memory limit.
set_option Elab.async false

namespace Sys2Proof.Proofs.WriteColumns

open Sys2Proof.Machine Sys2Proof.Claims

/-! The columns of R37 -/

/-- The parts of the state that R37 has a column for: VA, VR and R, the engine constants, and the unit files with their
memories. -/
inductive Part where
  | va | vr | r | consts | fir | afs | opf | rmp | exs | dly | rpt
  deriving DecidableEq

/-- A part is the same in two states. -/
def SameAt (s t : State) : Part → Prop
  | .va => t.va = s.va
  | .vr => t.vr = s.vr
  | .r => t.r = s.r
  | .consts => t.fs = s.fs ∧ t.k1 = s.k1 ∧ t.k2 = s.k2 ∧ t.k3 = s.k3 ∧ t.w = s.w
  | .fir => t.fir = s.fir
  | .afs => t.afs = s.afs
  | .opf => t.opf = s.opf
  | .rmp => t.rmp = s.rmp
  | .exs => t.exs = s.exs
  | .dly => t.dly = s.dly
  | .rpt => t.rpt = s.rpt

/-- The parts a command may change (R37). -/
def writesOf : Instr → List Part
  | .engNew => [.consts, .fir, .afs, .opf, .rmp, .exs, .dly, .rpt]
  | .firNew _ _ => [.fir]
  | .firProc _ | .ovsUp _ => [.fir, .vr]
  | .ovsDn _ => [.fir, .vr, .r]
  | .ovsProc _ _ => [.fir, .va, .vr, .r]
  | .wsRat | .wsDiode => [.vr]
  | .afsCoef _ => [.afs]
  | .afsStep _ | .afsProc _ => [.afs, .r]
  | .opfProc _ => [.opf, .r]
  | .rmpSet _ | .rmpInit _ => [.rmp]
  | .rmpStep _ | .rmpProc _ => [.rmp, .r]
  | .exsProc _ => [.exs, .r]
  | .exsInit _ => [.exs]
  | .dlyWr _ => [.dly]
  | .dlyRd _ _ => [.r]
  | .rptProc _ _ => [.rpt, .dly, .r]
  | .rptInit _ _ => [.rpt]

/-- Every part but those of a list is the same. -/
def Keeps (ps : List Part) (s t : State) : Prop := ∀ p ∉ ps, SameAt s t p

section

variable {ps : List Part} {s m t : State}

theorem Keeps.self (ps : List Part) (s : State) : Keeps ps s s := by
  rintro (_ | _) _
  case consts => exact ⟨rfl, rfl, rfl, rfl, rfl⟩
  all_goals rfl

theorem Keeps.comp (h : Keeps ps s m) (h' : Keeps ps m t) : Keeps ps s t := by
  intro p hp
  have h1 := h p hp
  have h2 := h' p hp
  cases p
  case consts =>
    obtain ⟨a1, a2, a3, a4, a5⟩ := h1
    obtain ⟨b1, b2, b3, b4, b5⟩ := h2
    exact ⟨b1.trans a1, b2.trans a2, b3.trans a3, b4.trans a4, b5.trans a5⟩
  all_goals exact Eq.trans h2 h1

theorem Keeps.tick (h : Keeps ps s m) : Keeps ps s m.tick := h.comp (Keeps.self ps m)

theorem Keeps.spend (h : Keeps ps s m) : Keeps ps s m.spend := h.comp (Keeps.self ps m)

theorem Keeps.raise (h : Keeps ps s m) (e : Cause) (w : Word) : Keeps ps s (raise e w m) := h.comp (Keeps.self ps m)

/-- An update of one part changes no other. -/
theorem Keeps.update {q : Part} (h : Keeps ps s m) (hq : q ∈ ps) (hm : ∀ p ≠ q, SameAt m t p) : Keeps ps s t :=
  h.comp fun p hp => hm p fun he => hp (he ▸ hq)

theorem Keeps.writeVa (h : Keeps ps s m) (v : Lanes) (hq : Part.va ∈ ps) : Keeps ps s (m.writeVa v) :=
  h.update hq fun p hp => by cases p <;> simp_all [SameAt]

theorem Keeps.writeVr (h : Keeps ps s m) (v : Lanes) (hq : Part.vr ∈ ps) : Keeps ps s (m.writeVr v) :=
  h.update hq fun p hp => by cases p <;> simp_all [SameAt]

theorem Keeps.writeR (h : Keeps ps s m) (x : F32) (hq : Part.r ∈ ps) : Keeps ps s (m.writeR x) :=
  h.update hq fun p hp => by cases p <;> simp_all [SameAt]

theorem Keeps.setFir (h : Keeps ps s m) (u : Nat) (f : Fir) (hq : Part.fir ∈ ps) : Keeps ps s (m.setFir u f) :=
  h.update hq fun p hp => by cases p <;> simp_all [SameAt]

theorem Keeps.setAfs (h : Keeps ps s m) (u : Nat) (f : Afs) (hq : Part.afs ∈ ps) : Keeps ps s (m.setAfs u f) :=
  h.update hq fun p hp => by cases p <;> simp_all [SameAt]

theorem Keeps.setOpf (h : Keeps ps s m) (u : Nat) (f : OnePole) (hq : Part.opf ∈ ps) : Keeps ps s (m.setOpf u f) :=
  h.update hq fun p hp => by cases p <;> simp_all [SameAt]

theorem Keeps.setRmp (h : Keeps ps s m) (u : Nat) (f : Ramp) (hq : Part.rmp ∈ ps) : Keeps ps s (m.setRmp u f) :=
  h.update hq fun p hp => by cases p <;> simp_all [SameAt]

theorem Keeps.setExs (h : Keeps ps s m) (u : Nat) (f : Exs) (hq : Part.exs ∈ ps) : Keeps ps s (m.setExs u f) :=
  h.update hq fun p hp => by cases p <;> simp_all [SameAt]

theorem Keeps.setDly (h : Keeps ps s m) (u : Nat) (f : Delay) (hq : Part.dly ∈ ps) : Keeps ps s (m.setDly u f) :=
  h.update hq fun p hp => by cases p <;> simp_all [SameAt]

theorem Keeps.setRpt (h : Keeps ps s m) (u : Nat) (f : RepeatUnit) (hq : Part.rpt ∈ ps) : Keeps ps s (m.setRpt u f) :=
  h.update hq fun p hp => by cases p <;> simp_all [SameAt]

theorem ovsUpBody_keeps {o : Nat} (hb : ovsUpBody o s = .next m) (hfir : .fir ∈ ps) (hvr : .vr ∈ ps) : Keeps ps s m := by
  obtain ⟨_, f, g, out, _, _, rfl⟩ := ovsUpBody_eq_next hb
  exact (((Keeps.self ps s).setFir _ _ hfir).writeVr _ hvr).spend

theorem ovsDnBody_keeps {o : Nat} (hb : ovsDnBody o s = .next m) (hfir : .fir ∈ ps) (hvr : .vr ∈ ps) (hr : .r ∈ ps) :
    Keeps ps s m := by
  obtain ⟨_, f, g, out, _, _, rfl⟩ := ovsDnBody_eq_next hb
  exact ((((Keeps.self ps s).setFir _ _ hfir).writeVr _ hvr).writeR _ hr).spend

theorem shapeBody_keeps {fn : Nat} (hb : (if fn = 0 then wsRatBody s else wsDiodeBody s) = .next m) (hvr : .vr ∈ ps) :
    Keeps ps s m := by
  obtain ⟨_, out, _, rfl⟩ := shapeBody_eq_next hb
  exact ((Keeps.self ps s).writeVr _ hvr).spend

theorem vaFromVr_keeps (s : State) (hva : .va ∈ ps) : Keeps ps s (vaFromVr s) := (Keeps.self ps s).writeVa _ hva

theorem afsCoefBody_keeps {u : Nat} (hb : afsCoefBody u s = .next m) (ha : .afs ∈ ps) : Keeps ps s m := by
  obtain ⟨_, f, _, rfl⟩ := afsCoefBody_eq_next hb
  exact ((Keeps.self ps s).setAfs _ _ ha).spend

theorem afsStepBody_keeps {u : Nat} (hb : afsStepBody u s = .next m) (ha : .afs ∈ ps) (hr : .r ∈ ps) :
    Keeps ps s m := by
  obtain ⟨_, f, _, rfl⟩ := afsStepBody_eq_next hb
  exact (((Keeps.self ps s).setAfs _ _ ha).writeR _ hr).spend

theorem afsGainBody_keeps {u : Nat} (hb : afsGainBody u s = .next m) (ha : .afs ∈ ps) (hr : .r ∈ ps) :
    Keeps ps s m := by
  obtain ⟨f, _, rfl⟩ := afsGainBody_eq_next hb
  exact (((Keeps.self ps s).setAfs _ _ ha).writeR _ hr).spend

theorem rmpSetBody_keeps {u : Nat} (hb : rmpSetBody u s = .next m) (ha : .rmp ∈ ps) : Keeps ps s m := by
  obtain ⟨_, f, _, rfl⟩ := rmpSetBody_eq_next hb
  exact ((Keeps.self ps s).setRmp _ _ ha).spend

theorem rmpStepBody_keeps {u : Nat} (hb : rmpStepBody u s = .next m) (ha : .rmp ∈ ps) (hr : .r ∈ ps) :
    Keeps ps s m := by
  obtain ⟨f, _, rfl⟩ := rmpStepBody_eq_next hb
  exact (((Keeps.self ps s).setRmp _ _ ha).writeR _ hr).spend

theorem construct_keeps (fs : F32) (s : State) : Keeps (writesOf .engNew) s (construct fs s) := by
  intro p hp
  cases p
  case va | vr | r => rfl
  all_goals exact absurd (by simp [writesOf]) hp

/-- A body changes only the parts in the columns of its command. -/
theorem commandBody_keeps {i : Instr} (hb : commandBody i s = .next m) : Keeps (writesOf i) s m := by
  have k := Keeps.self (writesOf i) s
  cases i with
  | engNew =>
    obtain ⟨_, ⟨e, _, rfl⟩ | ⟨_, rfl⟩⟩ := engNewBody_eq_next hb
    · exact k.raise e _
    · exact (construct_keeps _ s).spend
  | firNew u len =>
    obtain ⟨_, rfl⟩ := firNewBody_eq_next hb
    exact k.setFir _ _ (by simp [writesOf])
  | firProc u =>
    obtain ⟨_, f, g, out, _, _, rfl⟩ := firProcBody_eq_next hb
    exact ((k.setFir _ _ (by simp [writesOf])).writeVr _ (by simp [writesOf])).spend
  | ovsUp o => exact ovsUpBody_keeps hb (by simp [writesOf]) (by simp [writesOf])
  | ovsDn o => exact ovsDnBody_keeps hb (by simp [writesOf]) (by simp [writesOf]) (by simp [writesOf])
  | ovsProc o fn =>
    have hfir : Part.fir ∈ writesOf (.ovsProc o fn) := by simp [writesOf]
    have hva : Part.va ∈ writesOf (.ovsProc o fn) := by simp [writesOf]
    have hvr : Part.vr ∈ writesOf (.ovsProc o fn) := by simp [writesOf]
    have hr : Part.r ∈ writesOf (.ovsProc o fn) := by simp [writesOf]
    obtain ⟨t1, t2, h1, h2, h3⟩ := ovsProcBody_eq_next hb
    have k1 := (ovsUpBody_keeps h1 hfir hvr).comp (vaFromVr_keeps t1 hva)
    have k2 := (k1.comp (shapeBody_keeps h2 hvr)).comp (vaFromVr_keeps t2 hva)
    exact k2.comp (ovsDnBody_keeps h3 hfir hvr hr)
  | wsRat => exact shapeBody_keeps (fn := 0) hb (by simp [writesOf])
  | wsDiode => exact shapeBody_keeps (fn := 1) hb (by simp [writesOf])
  | afsCoef u => exact afsCoefBody_keeps hb (by simp [writesOf])
  | afsStep u => exact afsStepBody_keeps hb (by simp [writesOf]) (by simp [writesOf])
  | afsProc u =>
    have ha : Part.afs ∈ writesOf (.afsProc u) := by simp [writesOf]
    have hr : Part.r ∈ writesOf (.afsProc u) := by simp [writesOf]
    obtain ⟨t1, t2, h1, h2, h3⟩ := afsProcBody_eq_next hb
    exact ((afsCoefBody_keeps h1 ha).comp (afsStepBody_keeps h2 ha hr)).comp (afsGainBody_keeps h3 ha hr)
  | opfProc u =>
    obtain ⟨_, _, f, _, rfl⟩ := opfProcBody_eq_next hb
    exact ((k.setOpf _ _ (by simp [writesOf])).writeR _ (by simp [writesOf])).spend
  | rmpSet u => exact rmpSetBody_keeps hb (by simp [writesOf])
  | rmpStep u => exact rmpStepBody_keeps hb (by simp [writesOf]) (by simp [writesOf])
  | rmpProc u =>
    have ha : Part.rmp ∈ writesOf (.rmpProc u) := by simp [writesOf]
    obtain ⟨t1, h1, h2⟩ := rmpProcBody_eq_next hb
    exact (rmpSetBody_keeps h1 ha).comp (rmpStepBody_keeps h2 ha (by simp [writesOf]))
  | rmpInit u =>
    obtain ⟨_, _, rfl⟩ := rmpInitBody_eq_next hb
    exact k.setRmp _ _ (by simp [writesOf])
  | exsProc u =>
    obtain ⟨_, f, _, rfl⟩ := exsProcBody_eq_next hb
    exact ((k.setExs _ _ (by simp [writesOf])).writeR _ (by simp [writesOf])).spend
  | exsInit u =>
    obtain ⟨_, f, _, rfl⟩ := exsInitBody_eq_next hb
    exact k.setExs _ _ (by simp [writesOf])
  | dlyWr u =>
    obtain ⟨_, f, _, _, rfl⟩ := dlyWrBody_eq_next hb
    exact k.setDly _ _ (by simp [writesOf])
  | dlyRd u mode =>
    obtain ⟨_, f, _, _, ⟨v, _, rfl⟩ | ⟨_, rfl⟩⟩ := dlyRdBody_eq_next hb
    · exact (k.writeR _ (by simp [writesOf])).spend
    · exact k.raise _ _
  | rptProc u count =>
    obtain ⟨_, e, f, _, _, _, ⟨e', out, _, rfl⟩ | ⟨_, rfl⟩⟩ := rptProcBody_eq_next hb
    · have kunits := (k.setRpt u e' (by simp [writesOf])).setDly u (delayWrite f s.a0.val) (by simp [writesOf])
      exact (kunits.writeR _ (by simp [writesOf])).spend
    · exact k.raise _ _
  | rptInit u count =>
    obtain ⟨_, _, rfl⟩ := rptInitBody_eq_next hb
    exact k.setRpt _ _ (by simp [writesOf])

/-- A command refused by the core, or one that faults before its body, changes none of the parts; any other does what
its body does. -/
theorem exec_parts {i : Instr} (h : exec i s = .next t) :
    Keeps [] s t ∨ ∃ m, commandBody i s = .next m ∧ t = m.tick := by
  rcases exec_eq_next h with ⟨_, _, rfl⟩ | ⟨_, _, _, rfl⟩ | ⟨_, ⟨e, _, rfl⟩ | ⟨_, m, hm, ht⟩⟩
  · exact .inl (Keeps.self [] s).tick
  · exact .inl ((Keeps.self [] s).raise _ _).tick
  · exact .inl ((Keeps.self [] s).raise e _).tick
  · exact .inr ⟨m, hm, ht⟩

theorem exec_keeps {i : Instr} (h : exec i s = .next t) : Keeps (writesOf i) s t := by
  rcases exec_parts h with hk | ⟨m, hm, rfl⟩
  · exact fun p _ => hk p (List.not_mem_nil)
  · exact (commandBody_keeps hm).tick

/-- No command writes CFG, an operand register of the host, or the host's side of the port. -/
theorem exec_hostSide {i : Instr} (h : exec i s = .next t) :
    t.cfg = s.cfg ∧ t.a0 = s.a0 ∧ t.a1 = s.a1 ∧ t.a2 = s.a2 ∧ t.a3 = s.a3 ∧ t.inbox = s.inbox ∧ t.obs = s.obs := by
  rcases exec_cases h with ⟨_, _, rfl⟩ | ⟨e, rfl, _⟩ | ⟨_, _, rfl⟩ | ⟨_, _, m, _, hq, rfl⟩
  case inr.inr.inr => exact ⟨hq.cfg, hq.a0, hq.a1, hq.a2, hq.a3, hq.inbox, hq.obs⟩
  all_goals exact ⟨rfl, rfl, rfl, rfl, rfl, rfl, rfl⟩

end

/-- Settles O20: a command outside the list for a part does not have the part in its columns. -/
theorem commandsTouchOnlyListedState : Obligations.CommandsTouchOnlyListedState := by
  unfold Obligations.CommandsTouchOnlyListedState
  intro s t i h
  have hk := exec_keeps h
  refine ⟨exec_hostSide h, fun hi => hk .va ?_, fun hi => hk .vr ?_, fun hi => hk .r ?_, fun hi => hk .consts ?_,
    fun hi => hk .fir ?_, fun hi => hk .afs ?_, fun hi => hk .opf ?_, fun hi => hk .rmp ?_, fun hi => hk .exs ?_,
    fun hi => hk .dly ?_, fun hi => hk .rpt ?_⟩
  all_goals cases i <;> simp_all [writesOf]

end Sys2Proof.Proofs.WriteColumns
end

section
/-! Inside a unit file (10_state.md R37): a command changes its own units only, and in them only the fields listed. -/

-- One theorem after another: a thread for each proof would take the whole text past its memory limit.
set_option Elab.async false

namespace Sys2Proof.Proofs.UnitFrames

open Sys2Proof.Machine Sys2Proof.Claims Sys2Proof.Proofs.WriteColumns

/-! Files of records -/

section

variable {α : Type} {us : List Nat} {R R' : Nat → α → α → Prop} {l l' l'' : List α}

/-- A file in which only the units of a list may have changed, each as `R` allows for its number. -/
structure Updated (us : List Nat) (R : Nat → α → α → Prop) (l l' : List α) : Prop where
  length : l'.length = l.length
  other : ∀ u ∉ us, l'[u]? = l[u]?
  own : ∀ u ∈ us, ∀ f, l[u]? = some f → ∃ g, l'[u]? = some g ∧ R u f g

theorem Updated.of_eq (hR : ∀ u f, R u f f) (h : l' = l) : Updated us R l l' := by
  subst h
  exact ⟨rfl, fun _ _ => rfl, fun u _ f hf => ⟨f, hf, hR u f⟩⟩

theorem Updated.set {u : Nat} {f g : α} (hf : l[u]? = some f) (hR : R u f g) : Updated [u] R l (l.set u g) := by
  refine ⟨List.length_set, fun v hv => ?_, fun v hv f' hf' => ⟨g, ?_, ?_⟩⟩
  · exact List.getElem?_set_ne fun h => hv (List.mem_singleton.mpr h.symm)
  · obtain rfl : v = u := List.mem_singleton.mp hv
    exact List.getElem?_set_self (List.getElem?_eq_some_iff.mp hf).1
  · obtain rfl : v = u := List.mem_singleton.mp hv
    cases hf.symm.trans hf'
    exact hR

theorem Updated.mono {vs : List Nat} (h : Updated us R l l') (hus : ∀ u ∈ us, u ∈ vs) (hself : ∀ u f, R' u f f)
    (hR : ∀ u f g, R u f g → R' u f g) : Updated vs R' l l' := by
  refine ⟨h.length, fun u hu => h.other u fun hc => hu (hus u hc), fun u _ f hf => ?_⟩
  by_cases hu : u ∈ us
  · obtain ⟨g, hg, hfg⟩ := h.own u hu f hf
    exact ⟨g, hg, hR u f g hfg⟩
  · exact ⟨f, (h.other u hu).trans hf, hself u f⟩

/-- The same file under a weaker relation. -/
theorem Updated.weaken (h : Updated us R l l') (hR : ∀ u f g, R u f g → R' u f g) : Updated us R' l l' := by
  refine ⟨h.length, h.other, fun u hu f hf => ?_⟩
  obtain ⟨g, hg, hfg⟩ := h.own u hu f hf
  exact ⟨g, hg, hR u f g hfg⟩

theorem Updated.comp (hR : ∀ u f g k, R u f g → R u g k → R u f k) (h : Updated us R l l')
    (h' : Updated us R l' l'') : Updated us R l l'' := by
  refine ⟨h'.length.trans h.length, fun u hu => (h'.other u hu).trans (h.other u hu), fun u hu f hf => ?_⟩
  obtain ⟨g, hg, hfg⟩ := h.own u hu f hf
  obtain ⟨k, hk, hgk⟩ := h'.own u hu g hg
  exact ⟨k, hk, hR u f g k hfg hgk⟩

/-- What is so of every unit that changed, and of one that did not, is so of every unit. -/
theorem Updated.each (h : Updated us R l l') (hself : ∀ u f, R u f f) (u : Nat) (f : α) (hf : l[u]? = some f) :
    ∃ g, l'[u]? = some g ∧ R u f g := by
  by_cases hu : u ∈ us
  · exact h.own u hu f hf
  · exact ⟨f, (h.other u hu).trans hf, hself u f⟩

theorem Updated.map_eq {β : Type} {φ : α → β} (h : Updated us (fun _ f g => φ g = φ f) l l') : l'.map φ = l.map φ := by
  apply List.ext_getElem?
  intro u
  rw [List.getElem?_map, List.getElem?_map]
  cases hf : l[u]? with
  | none =>
    have hlen := List.getElem?_eq_none_iff.mp hf
    rw [List.getElem?_eq_none_iff.mpr (h.length.trans_le hlen)]
  | some f =>
    obtain ⟨g, hg, hfg⟩ := h.each (fun _ _ => rfl) u f hf
    rw [hg, Option.map_some, Option.map_some, hfg]

end

/-! The records -/

/-- A FIR call changes the history of its unit and nothing else in it. -/
def SameCoefs (_ : Nat) (f g : Fir) : Prop := g.len = f.len ∧ g.c = f.c

theorem SameCoefs.self (u : Nat) (f : Fir) : SameCoefs u f f := ⟨rfl, rfl⟩

theorem SameCoefs.comp (u : Nat) (f g k : Fir) (h : SameCoefs u f g) (h' : SameCoefs u g k) : SameCoefs u f k :=
  ⟨h'.1.trans h.1, h'.2.trans h.2⟩

theorem sameCoefs_of_firStep {cfg : Config} {d : Draw} {f g : Fir} {v out : Lanes}
    (h : firStep cfg d f v = some (g, out)) (u : Nat) : SameCoefs u f g := by
  obtain ⟨_, rfl, _⟩ := firStep_eq_some h
  exact ⟨rfl, rfl⟩

section

variable {s m t : State}

theorem ovsUpBody_fir {o : Nat} (h : ovsUpBody o s = .next m) : Updated [2 * o] SameCoefs s.fir m.fir := by
  obtain ⟨_, f, g, out, hf, hs, rfl⟩ := ovsUpBody_eq_next h
  exact .set hf (sameCoefs_of_firStep hs _)

theorem ovsDnBody_fir {o : Nat} (h : ovsDnBody o s = .next m) : Updated [2 * o + 1] SameCoefs s.fir m.fir := by
  obtain ⟨_, f, g, out, hf, hs, rfl⟩ := ovsDnBody_eq_next h
  exact .set hf (sameCoefs_of_firStep hs _)

/-- Of the parts of `OVS.PROC` only the first and the last touch the FIR file, each its own unit. -/
theorem ovsProcBody_fir {o fn : Nat} (h : ovsProcBody o fn s = .next m) :
    Updated [2 * o, 2 * o + 1] SameCoefs s.fir m.fir := by
  obtain ⟨t1, t2, h1, h2, h3⟩ := ovsProcBody_eq_next h
  have hshape : t2.fir = t1.fir := shapeBody_keeps (ps := [.vr]) h2 (by simp) .fir (by simp)
  have hup := (ovsUpBody_fir h1).mono (vs := [2 * o, 2 * o + 1]) (by simp) SameCoefs.self fun _ _ _ h => h
  have hdn : Updated [2 * o + 1] SameCoefs t2.fir m.fir := ovsDnBody_fir (s := vaFromVr t2) h3
  rw [hshape] at hdn
  exact hup.comp SameCoefs.comp (hdn.mono (by simp) SameCoefs.self fun _ _ _ h => h)

/-- A FIR unit keeps its length and its coefficients but under `FIR.NEW`. -/
theorem commandBody_fir {i : Instr} (hi : i ≠ .engNew) (h : commandBody i s = .next m) :
    Updated (firUnitsOf i) (fun u f g => (¬ ∃ len, i = .firNew u len) → SameCoefs u f g) s.fir m.fir := by
  have hk := commandBody_keeps h .fir
  unfold commandBody at h
  cases i
  case engNew => exact absurd rfl hi
  case firNew u len =>
    obtain ⟨hu, rfl⟩ := firNewBody_eq_next h
    exact .set (List.getElem?_eq_getElem hu) fun hn => absurd ⟨len, rfl⟩ hn
  case firProc u =>
    obtain ⟨_, f, g, out, hf, hs, rfl⟩ := firProcBody_eq_next h
    exact .set hf fun _ => sameCoefs_of_firStep hs _
  case ovsUp o => exact (ovsUpBody_fir h).weaken fun _ _ _ hr _ => hr
  case ovsDn o => exact (ovsDnBody_fir h).weaken fun _ _ _ hr _ => hr
  case ovsProc o fn => exact (ovsProcBody_fir h).weaken fun _ _ _ hr _ => hr
  all_goals exact .of_eq (fun u f _ => SameCoefs.self u f) (hk (by simp [writesOf]))

/-- What `AFS.COEF` and `AFS.STEP` leave of their stage. -/
def AfsColumn (i : Instr) (u : Nat) (f g : Afs) : Prop :=
  (i = .afsCoef u → g.z0 = f.z0 ∧ g.z1 = f.z1 ∧ g.z2 = f.z2 ∧ g.gc = f.gc) ∧
    (i = .afsStep u → g = { f with z0 := g.z0, z1 := g.z1, z2 := g.z2 })

theorem AfsColumn.self (i : Instr) (u : Nat) (f : Afs) : AfsColumn i u f f := ⟨fun _ => ⟨rfl, rfl, rfl, rfl⟩, fun _ => rfl⟩

theorem afsCoefBody_afs {u : Nat} (h : afsCoefBody u s = .next m) :
    Updated [u] (AfsColumn (.afsCoef u)) s.afs m.afs := by
  obtain ⟨_, f, hf, rfl⟩ := afsCoefBody_eq_next h
  exact .set hf ⟨fun _ => ⟨rfl, rfl, rfl, rfl⟩, nofun⟩

theorem afsStepBody_afs {u : Nat} (h : afsStepBody u s = .next m) :
    Updated [u] (AfsColumn (.afsStep u)) s.afs m.afs := by
  obtain ⟨_, f, hf, rfl⟩ := afsStepBody_eq_next h
  exact .set hf ⟨nofun, fun _ => rfl⟩

theorem afsProcBody_afs {u : Nat} (h : afsProcBody u s = .next m) :
    Updated [u] (AfsColumn (.afsProc u)) s.afs m.afs := by
  have hany : ∀ v f g, AfsColumn (.afsProc u) v f g := fun v f g => ⟨nofun, nofun⟩
  obtain ⟨t1, t2, h1, h2, h3⟩ := afsProcBody_eq_next h
  obtain ⟨f, hf, rfl⟩ := afsGainBody_eq_next h3
  have u1 := (afsCoefBody_afs h1).weaken fun v f g _ => hany v f g
  have u2 := (afsStepBody_afs h2).weaken fun v f g _ => hany v f g
  exact (u1.comp (fun v f _ k _ _ => hany v f k) u2).comp (fun v f _ k _ _ => hany v f k) (.set hf (hany _ _ _))

theorem commandBody_afs {i : Instr} (hi : i ≠ .engNew) (h : commandBody i s = .next m) :
    Updated [i.unitIndex] (AfsColumn i) s.afs m.afs := by
  have hk := commandBody_keeps h .afs
  unfold commandBody at h
  cases i
  case engNew => exact absurd rfl hi
  case afsCoef u => exact afsCoefBody_afs h
  case afsStep u => exact afsStepBody_afs h
  case afsProc u => exact afsProcBody_afs h
  all_goals exact .of_eq (AfsColumn.self _) (hk (by simp [writesOf]))

theorem commandBody_opf {i : Instr} (hi : i ≠ .engNew) (h : commandBody i s = .next m) :
    Updated [i.unitIndex] (fun _ _ _ => True) s.opf m.opf := by
  have hk := commandBody_keeps h .opf
  unfold commandBody at h
  cases i
  case engNew => exact absurd rfl hi
  case opfProc u =>
    obtain ⟨_, _, f, hf, rfl⟩ := opfProcBody_eq_next h
    exact .set hf trivial
  all_goals exact .of_eq (fun _ _ => trivial) (hk (by simp [writesOf]))

/-- What `RMP.SET` and `RMP.STEP` leave of their ramp (45_smoothers.md R181, R182). -/
def RampColumn (i : Instr) (u : Nat) (f g : Ramp) : Prop :=
  (i = .rmpSet u → g.cur = f.cur) ∧ (i = .rmpStep u → g.tgt = f.tgt ∧ g.step = f.step)

theorem RampColumn.self (i : Instr) (u : Nat) (f : Ramp) : RampColumn i u f f := ⟨fun _ => rfl, fun _ => ⟨rfl, rfl⟩⟩

theorem rampSet_cur (rs : Nat) (d : Draw) (x : F32) (f : Ramp) : (rampSet rs d x f).cur = f.cur := by
  unfold rampSet
  split <;> rfl

theorem rampStep_target (d : Draw) (f : Ramp) : (rampStep d f).tgt = f.tgt ∧ (rampStep d f).step = f.step := by
  unfold rampStep
  split <;> exact ⟨rfl, rfl⟩

theorem rmpSetBody_rmp {u : Nat} (h : rmpSetBody u s = .next m) :
    Updated [u] (RampColumn (.rmpSet u)) s.rmp m.rmp := by
  obtain ⟨_, f, hf, rfl⟩ := rmpSetBody_eq_next h
  exact .set hf ⟨fun _ => rampSet_cur _ _ _ _, nofun⟩

theorem rmpStepBody_rmp {u : Nat} (h : rmpStepBody u s = .next m) :
    Updated [u] (RampColumn (.rmpStep u)) s.rmp m.rmp := by
  obtain ⟨f, hf, rfl⟩ := rmpStepBody_eq_next h
  exact .set hf ⟨nofun, fun _ => rampStep_target _ _⟩

theorem rmpProcBody_rmp {u : Nat} (h : rmpProcBody u s = .next m) :
    Updated [u] (RampColumn (.rmpProc u)) s.rmp m.rmp := by
  have hany : ∀ v f g, RampColumn (.rmpProc u) v f g := fun v f g => ⟨nofun, nofun⟩
  obtain ⟨t1, h1, h2⟩ := rmpProcBody_eq_next h
  have u1 := (rmpSetBody_rmp h1).weaken fun v f g _ => hany v f g
  have u2 := (rmpStepBody_rmp h2).weaken fun v f g _ => hany v f g
  exact u1.comp (fun v f _ k _ _ => hany v f k) u2

theorem commandBody_rmp {i : Instr} (hi : i ≠ .engNew) (h : commandBody i s = .next m) :
    Updated [i.unitIndex] (RampColumn i) s.rmp m.rmp := by
  have hk := commandBody_keeps h .rmp
  unfold commandBody at h
  cases i
  case engNew => exact absurd rfl hi
  case rmpSet u => exact rmpSetBody_rmp h
  case rmpStep u => exact rmpStepBody_rmp h
  case rmpProc u => exact rmpProcBody_rmp h
  case rmpInit u =>
    obtain ⟨_, hu, rfl⟩ := rmpInitBody_eq_next h
    exact .set (List.getElem?_eq_getElem hu) ⟨nofun, nofun⟩
  all_goals exact .of_eq (RampColumn.self _) (hk (by simp [writesOf]))

/-- `EXS.INIT` writes `z` only. -/
def ExsColumn (i : Instr) (u : Nat) (f g : Exs) : Prop := i = .exsInit u → g.op = { f.op with z := g.op.z }

theorem ExsColumn.self (i : Instr) (u : Nat) (f : Exs) : ExsColumn i u f f := fun _ => rfl

theorem commandBody_exs {i : Instr} (hi : i ≠ .engNew) (h : commandBody i s = .next m) :
    Updated [i.unitIndex] (ExsColumn i) s.exs m.exs := by
  have hk := commandBody_keeps h .exs
  unfold commandBody at h
  cases i
  case engNew => exact absurd rfl hi
  case exsProc u =>
    obtain ⟨_, f, hf, rfl⟩ := exsProcBody_eq_next h
    exact .set hf nofun
  case exsInit u =>
    obtain ⟨_, f, hf, rfl⟩ := exsInitBody_eq_next h
    exact .set hf fun _ => rfl
  all_goals exact .of_eq (ExsColumn.self _) (hk (by simp [writesOf]))

/-- A delay buffer keeps its capacity and its scale. -/
theorem commandBody_dly {i : Instr} (hi : i ≠ .engNew) (h : commandBody i s = .next m) :
    Updated [i.unitIndex] (fun _ (f g : Delay) => (g.cap, g.scale) = (f.cap, f.scale)) s.dly m.dly := by
  have hk := commandBody_keeps h .dly
  unfold commandBody at h
  cases i
  case engNew => exact absurd rfl hi
  case dlyWr u =>
    obtain ⟨_, f, hf, _, rfl⟩ := dlyWrBody_eq_next h
    exact .set hf rfl
  case rptProc u count =>
    obtain ⟨_, e, f, _, hf, _, ⟨e', out, _, rfl⟩ | ⟨_, rfl⟩⟩ := rptProcBody_eq_next h
    · exact .set hf rfl
    · exact .of_eq (fun _ _ => rfl) rfl
  all_goals exact .of_eq (fun _ _ => rfl) (hk (by simp [writesOf]))

theorem commandBody_rpt {i : Instr} (hi : i ≠ .engNew) (h : commandBody i s = .next m) :
    Updated [i.unitIndex] (fun _ _ _ => True) s.rpt m.rpt := by
  have hk := commandBody_keeps h .rpt
  unfold commandBody at h
  cases i
  case engNew => exact absurd rfl hi
  case rptProc u count =>
    obtain ⟨_, e, f, he, _, _, ⟨e', out, _, rfl⟩ | ⟨_, rfl⟩⟩ := rptProcBody_eq_next h
    · exact .set he trivial
    · exact .of_eq (fun _ _ => trivial) rfl
  case rptInit u count =>
    obtain ⟨_, hu, rfl⟩ := rptInitBody_eq_next h
    exact .set (List.getElem?_eq_getElem hu) trivial
  all_goals exact .of_eq (fun _ _ => trivial) (hk (by simp [writesOf]))

/-! The commands -/

/-- How each unit file may change under a command. -/
structure FilesUpdated (i : Instr) (s t : State) : Prop where
  fir : Updated (firUnitsOf i) (fun u f g => (¬ ∃ len, i = .firNew u len) → SameCoefs u f g) s.fir t.fir
  afs : Updated [i.unitIndex] (AfsColumn i) s.afs t.afs
  opf : Updated [i.unitIndex] (fun _ _ _ => True) s.opf t.opf
  rmp : Updated [i.unitIndex] (RampColumn i) s.rmp t.rmp
  exs : Updated [i.unitIndex] (ExsColumn i) s.exs t.exs
  dly : Updated [i.unitIndex] (fun _ (f g : Delay) => (g.cap, g.scale) = (f.cap, f.scale)) s.dly t.dly
  rpt : Updated [i.unitIndex] (fun _ _ _ => True) s.rpt t.rpt

/-- The files are updated by the body if it runs, and the same otherwise. -/
theorem exec_files {i : Instr} (hi : i ≠ .engNew) (h : exec i s = .next t) : FilesUpdated i s t := by
  rcases exec_parts h with hk | ⟨m, hm, rfl⟩
  · exact
      { fir := .of_eq (fun u f _ => SameCoefs.self u f) (hk .fir List.not_mem_nil)
        afs := .of_eq (AfsColumn.self _) (hk .afs List.not_mem_nil)
        opf := .of_eq (fun _ _ => trivial) (hk .opf List.not_mem_nil)
        rmp := .of_eq (RampColumn.self _) (hk .rmp List.not_mem_nil)
        exs := .of_eq (ExsColumn.self _) (hk .exs List.not_mem_nil)
        dly := .of_eq (fun _ _ => rfl) (hk .dly List.not_mem_nil)
        rpt := .of_eq (fun _ _ => trivial) (hk .rpt List.not_mem_nil) }
  · exact
      { fir := commandBody_fir (m := m) hi hm
        afs := commandBody_afs (m := m) hi hm
        opf := commandBody_opf (m := m) hi hm
        rmp := commandBody_rmp (m := m) hi hm
        exs := commandBody_exs (m := m) hi hm
        dly := commandBody_dly (m := m) hi hm
        rpt := commandBody_rpt (m := m) hi hm }

end

/-- Settles O19: of every delay buffer the capacity and the scale are kept. -/
theorem delayLengthFixed : Obligations.DelayLengthFixed := by
  unfold Obligations.DelayLengthFixed
  intro s t i hi h
  exact (exec_files hi h).dly.map_eq

/-- Settles O21: what each file's update says of the other units and of the own one. -/
theorem otherUnitsUntouched : Obligations.OtherUnitsUntouched := by
  unfold Obligations.OtherUnitsUntouched
  intro s t i hi h
  obtain ⟨fir, afs, opf, rmp, exs, dly, rpt⟩ := exec_files hi h
  refine ⟨fir.other, fun u hu => ?_, fun u f hf hn => ?_, afs.each (AfsColumn.self i), rmp.each (RampColumn.self i),
    exs.each (ExsColumn.self i), fun u f hf => ?_⟩
  · have hu' : u ∉ [i.unitIndex] := fun hm => hu (List.mem_singleton.mp hm)
    exact ⟨afs.other u hu', opf.other u hu', rmp.other u hu', exs.other u hu', dly.other u hu', rpt.other u hu'⟩
  · obtain ⟨g, hg, hsame⟩ := fir.each (fun v f _ => SameCoefs.self v f) u f hf
    exact ⟨g, hg, hsame hn⟩
  · obtain ⟨g, hg, hsame⟩ := dly.each (fun _ _ => rfl) u f hf
    exact ⟨g, hg, congrArg Prod.fst hsame, congrArg Prod.snd hsame⟩

end Sys2Proof.Proofs.UnitFrames
end

section
/-! The stores of a FIR call (40_fir.md R122) and of a delay write (46_delay.md R201): where they go, and the histories
in time order. -/

-- One theorem after another: a thread for each proof would take the whole text past its memory limit.
set_option Elab.async false

namespace Sys2Proof.Proofs.Histories

open Sys2Proof.Machine Sys2Proof.Claims Sys2Proof.Proofs.DelayBuffer

/-! Commands that complete -/

/-- A command that leaves a READY core READY ran its body, which raised no fault. -/
theorem exec_completes {i : Instr} {s t : State} (hr : s.isReady = true) (h : exec i s = .next t)
    (ht : t.isReady = true) : ∃ m, commandBody i s = .next m ∧ m.isReady = true ∧ t = m.tick := by
  rcases exec_eq_next h with ⟨_, hf, _⟩ | ⟨_, _, hc, _⟩ | ⟨_, ⟨e, _, rfl⟩ | ⟨_, m, hm, rfl⟩⟩
  · exact absurd (((isReady_iff s).mp hr).2.symm.trans hf) Bool.false_ne_true
  · exact absurd (hc.symm.trans ((isReady_iff s).mp hr).1) Bool.false_ne_true
  · exact absurd ((isReady_iff _).mp ht).1 (by simp)
  · exact ⟨m, hm, ht, rfl⟩

theorem not_isReady_raise (e : Cause) (w : Word) (s : State) : (raise e w s).isReady ≠ true := by
  rw [Ne, isReady_iff]
  simp

/-! The FIR memory -/

/-- Each of the commands that make one FIR call pushes one vector on its unit; `FIR.PROC` pushes VA. -/
theorem firCall_pushes {i : Instr} {s m : State} {u : Nat} {f : Fir} (hf : s.fir[u]? = some f)
    (hi : i = .firProc u ∨ (∃ o, i = .ovsUp o ∧ u = 2 * o) ∨ (∃ o, i = .ovsDn o ∧ u = 2 * o + 1))
    (h : commandBody i s = .next m) :
    ∃ v, m.fir = s.fir.set u (firPush s.cfg f v) ∧ (i = .firProc u → v = s.va.lanes) := by
  rcases hi with rfl | ⟨o, rfl, rfl⟩ | ⟨o, rfl, rfl⟩
  · obtain ⟨_, f', g, out, hf', hs, rfl⟩ := firProcBody_eq_next h
    cases hf.symm.trans hf'
    obtain ⟨_, rfl, _⟩ := firStep_eq_some hs
    exact ⟨_, rfl, fun _ => rfl⟩
  · obtain ⟨_, f', g, out, hf', hs, rfl⟩ := ovsUpBody_eq_next h
    cases hf.symm.trans hf'
    obtain ⟨_, rfl, _⟩ := firStep_eq_some hs
    exact ⟨_, rfl, nofun⟩
  · obtain ⟨_, f', g, out, hf', hs, rfl⟩ := ovsDnBody_eq_next h
    cases hf.symm.trans hf'
    obtain ⟨_, rfl, _⟩ := firStep_eq_some hs
    exact ⟨_, rfl, nofun⟩

/-- Settles O28: the unit after the call is the old one with one vector written at its index. -/
theorem firCallMemoryFrame : Obligations.FirCallMemoryFrame := by
  unfold Obligations.FirCallMemoryFrame
  intro s t i u f hspaces hr hf hi h ht
  obtain ⟨m, hm, _, rfl⟩ := exec_completes hr h ht
  obtain ⟨v, hfir, hv⟩ := firCall_pushes hf hi hm
  have hwf := (hspaces.firBuf f (List.mem_of_getElem? hf)).1
  rw [State.tick_fir, hfir]
  refine ⟨firPush s.cfg f v, List.getElem?_set_self (List.getElem?_eq_some_iff.mp hf).1, rfl, rfl, fun e he j hj => ?_,
    fun hp j hj => ?_, fun u' hu' => List.getElem?_set_ne hu'.symm⟩
  · exact Memory.readLane_writeVec_other v he hj
  · rw [← hv hp]
    exact Memory.readLane_writeVec_same hwf v hj

/-- The element of the `k`-th oldest entry after a push lies one place further on than before it. -/
theorem pushed_index {len : Nat} (hp : isPow2 len = true) (idx k : Nat) :
    (((idx + 1) &&& (len - 1)) + k) &&& (len - 1) = (idx + (k + 1)) % len := by
  rw [and_mask hp, and_mask hp, Nat.mod_add_mod, Nat.add_right_comm, Nat.add_assoc]

/-- Settles O29: the newest entry is the vector written at the old index, and every other element is left alone. -/
theorem firHistoryShifts : Obligations.FirHistoryShifts := by
  unfold Obligations.FirHistoryShifts
  intro cfg f v k j hwf hgood hj hk
  obtain ⟨hp, _, hidx⟩ := hgood
  have hread : firHistory cfg (firPush cfg f v) k j =
      (f.buf.writeVec cfg.n f.idx v).readLane cfg.n ((f.idx + (k + 1)) % f.len) j := by
    rw [← pushed_index hp]
    rfl
  rw [hread]
  split
  · have hat : (f.idx + (k + 1)) % f.len = f.idx := by
      rw [show k + 1 = f.len by omega, Nat.add_mod_right, Nat.mod_eq_of_lt hidx]
    rw [hat]
    exact Memory.readLane_writeVec_same hwf v hj
  · have hne : (f.idx + (k + 1)) % f.len ≠ f.idx := by
      rcases Nat.lt_or_ge (f.idx + (k + 1)) f.len with h | h
      · rw [Nat.mod_eq_of_lt h]
        omega
      · rw [Nat.mod_eq_sub_mod h, Nat.mod_eq_of_lt (by omega)]
        omega
    rw [Memory.readLane_writeVec_other v hne hj, firHistory, and_mask hp]

/-! The delay memory -/

/-- `DLY.WR` and `RPT.PROC` write the operand A0 into their own buffer. -/
theorem delayCall_writes {i : Instr} {s m : State} {u : Nat} {f : Delay} (hf : s.dly[u]? = some f)
    (hi : i = .dlyWr u ∨ ∃ count, i = .rptProc u count) (h : commandBody i s = .next m) (hm : m.isReady = true) :
    m.dly = s.dly.set u (delayWrite f s.a0.val) := by
  rcases hi with rfl | ⟨count, rfl⟩
  · obtain ⟨_, f', hf', _, rfl⟩ := dlyWrBody_eq_next h
    cases hf.symm.trans hf'
    rfl
  · obtain ⟨_, e, f', _, hf', _, ⟨e', out, _, rfl⟩ | ⟨_, rfl⟩⟩ := rptProcBody_eq_next h
    · cases hf.symm.trans hf'
      rfl
    · exact absurd hm (not_isReady_raise _ _ _)

/-- Settles O48: the buffer after the command is the old one with one word written at its cursor. -/
theorem delayMemoryFrame : Obligations.DelayMemoryFrame := by
  unfold Obligations.DelayMemoryFrame
  intro s t i u f hspaces hr hf hi h ht
  obtain ⟨m, hm, hmr, rfl⟩ := exec_completes hr h ht
  have hwf := (hspaces.dlyBuf f (List.mem_of_getElem? hf)).1
  rw [State.tick_dly, delayCall_writes hf hi hm hmr]
  exact ⟨delayWrite f s.a0.val, List.getElem?_set_self (List.getElem?_eq_some_iff.mp hf).1,
    Memory.read_write_same hwf _ _, fun e he => Memory.read_write_other he _, fun u' hu' => List.getElem?_set_ne hu'.symm⟩

/-- Behind the advanced cursor the offset `i` lies at the old cursor less `i`. -/
theorem ringIndex_advanced (cap w i : Nat) :
    ringIndex cap (((w + 1) % cap : Nat) - 1 - i) = ringIndex cap ((w : Int) - i) := by
  have h : (((w + 1) % cap : Nat) : Int) - 1 - i = ((w : Int) + 1) % cap - (1 + i) := by
    push_cast
    ring
  rw [ringIndex, ringIndex, h, Int.emod_sub_emod]
  congr 2
  ring

theorem ringIndex_of_lt {cap : Nat} {p : Int} (h0 : 0 ≤ p) (h : p < cap) : (ringIndex cap p : Int) = p := by
  rw [ringIndex, Int.emod_eq_of_lt h0 h, Int.toNat_of_nonneg h0]

/-- No offset but 0 below the capacity comes round to the cursor. -/
theorem ringIndex_ne_cursor {cap w i : Nat} (hw : w < cap) (h0 : 0 < i) (hi : i < cap) :
    ringIndex cap ((w : Int) - i) ≠ w := by
  intro h
  rcases Nat.lt_or_ge w i with hlt | hge
  · have hround : ringIndex cap ((w : Int) - i) = ringIndex cap ((w : Int) - i + cap) := by
      rw [ringIndex, ringIndex, Int.add_emod_right]
    have := ringIndex_of_lt (cap := cap) (p := (w : Int) - i + cap) (by omega) (by omega)
    omega
  · have := ringIndex_of_lt (cap := cap) (p := (w : Int) - i) (by omega) (by omega)
    omega

/-- In time order a write puts the sample at offset 0 and moves every older one up by one. -/
theorem delaySample_delayWrite {f : Delay} (hwf : f.buf.wf = true) (hw : f.w < f.cap) (x : F32) {i : Nat}
    (hi : i < f.cap) : delaySample (delayWrite f x) i = if i = 0 then x else delaySample f (i - 1) := by
  have hread : delaySample (delayWrite f x) i = (f.buf.write f.w x).read (ringIndex f.cap ((f.w : Int) - i)) := by
    rw [← ringIndex_advanced, delayWrite_eq_delayAfter]
    rfl
  rw [hread]
  split
  · subst i
    have hat : ringIndex f.cap ((f.w : Int) - (0 : Nat)) = f.w := by
      have := ringIndex_of_lt (cap := f.cap) (p := (f.w : Int) - (0 : Nat)) (by omega) (by omega)
      omega
    rw [hat]
    exact Memory.read_write_same hwf _ _
  · rename_i h0
    rw [Memory.read_write_other (ringIndex_ne_cursor hw (by omega) hi), delaySample]
    congr 2
    omega

/-- Settles O47: an instance for a good buffer. -/
theorem delayHistoryShifts : Obligations.DelayHistoryShifts := by
  unfold Obligations.DelayHistoryShifts
  intro cfg f x i hwf hgood hi
  obtain ⟨_, _, hw⟩ := hgood
  exact delaySample_delayWrite hwf hw x hi

/-! The supplied tap set during a fade (47_repeat.md R217, R220) -/

section

variable {s : State} {u : Nat} {e : RepeatUnit} {f : Delay}

/-- While a fade is in progress, the body of `RPT.PROC` is the evaluation of the engine as it is. -/
theorem rptProcBody_of_fading (hw : s.a0.written = true ∧ s.a1.written = true ∧ s.a2.written = true ∧ s.a3.written = true)
    (he : s.rpt[u]? = some e) (hf : s.dly[u]? = some f) (hin : delayInSpace s.cfg f = true) (hfade : 0 < e.xf.cnt)
    (count : Nat) :
    (∀ e' out, rptEvaluate s.cfg s.draw e s.a0.val (delayWrite f s.a0.val) = some (e', out) →
      rptProcBody u count s = .next (((s.setRpt u e').setDly u (delayWrite f s.a0.val)).writeR out).spend) ∧
    (rptEvaluate s.cfg s.draw e s.a0.val (delayWrite f s.a0.val) = none →
      rptProcBody u count s = .next (raise .dlyRange (encode (.rptProc u count)) s)) := by
  obtain ⟨h0, h1, h2, h3⟩ := hw
  rw [rptProcBody, withOperand_written h0, withOperand_written h1, withOperand_written h2, withOperand_written h3,
    withUnit_some he, withUnit_some hf, if_pos hin]
  dsimp only
  rw [RepeatEngine.rptDetect_of_fading hfade]
  refine ⟨fun e' out h => ?_, fun h => ?_⟩
  · simp only [h]
  · simp only [h]

end

/-- Settles O53: both states evaluate the engine as it is on the same input and buffer, so both complete with the same
output or both raise `E_DLYRANGE`. -/
theorem fadeIgnoresSuppliedSet : Obligations.FadeIgnoresSuppliedSet := by
  unfold Obligations.FadeIgnoresSuppliedSet
  intro s s' t u count count' e hr he hfade hs' hw1 hw2 hw3 hu hc hc' h
  generalize s'.a1 = p1, s'.a2 = p2, s'.a3 = p3 at hs' hw1 hw2 hw3
  subst hs'
  rw [exec_ready (i := .rptProc u count) hr (RepeatEngine.fieldCheck_rpt_legal hu hc (by simp))] at h
  obtain ⟨m, hb, hm⟩ := andThen_eq_next.mp h
  cases hm
  obtain ⟨⟨h0, _⟩, e₁, f, he₁, hf, hin, hout⟩ := rptProcBody_eq_next hb
  cases he.symm.trans he₁
  rw [RepeatEngine.rptDetect_of_fading hfade] at hout
  obtain ⟨hsome, hnone⟩ := rptProcBody_of_fading (s := { s with a1 := p1, a2 := p2, a3 := p3 }) ⟨h0, hw1, hw2, hw3⟩ he hf
    hin hfade count'
  have hlegal : fieldCheck s.cfg (.rptProc u count') = none := RepeatEngine.fieldCheck_rpt_legal hu hc' (by simp)
  rcases hout with ⟨e', out, heval, rfl⟩ | ⟨heval, rfl⟩
  · exact ⟨_, exec_ready_next (i := .rptProc u count') hr hlegal (hsome e' out heval), rfl, rfl, rfl, rfl⟩
  · exact ⟨_, exec_ready_next (i := .rptProc u count') hr hlegal (hnone heval), rfl, rfl, rfl, rfl⟩

end Sys2Proof.Proofs.Histories
end

section
/-! The operations of 00_scope.md R11: each rounds its exact result once, and the rounding is to nearest, ties to even. -/

-- One theorem after another: a thread for each proof would take the whole text past its memory limit.
set_option Elab.async false

namespace Sys2Proof.Proofs.Rounding

open Sys2Proof.Machine Sys2Proof.Claims

/-! The rounding -/

/-- The units a pattern stands for, over the patterns a word can hold. -/
theorem units_ofNat {p : Nat} (h : p < 2 ^ 31) : units (BitVec.ofNat 32 p) = unitsOf p := by
  have hpack : BitVec.ofNat 32 p = packF false p := by simp [packF]
  rw [hpack, units_eq, magPat_packF false h]

/-- How far the value of a pattern lies from `n / d`, times `d`. -/
def distance (n d p : Nat) : Int := |(unitsOf p : Int) * d - n|

/-- `r` is a nearest pattern to `n / d`, among those of an unbounded exponent range, and the even one of two. -/
def Nearest (n d r : Nat) : Prop :=
  ∀ p, distance n d r ≤ distance n d p ∧ (p ≠ r → distance n d r = distance n d p → r % 2 = 0)

/-- A multiple `k` of a quantum `2^s` in the binade of the value is nearest: a pattern with a quantum at least as coarse
is a multiple of `2^s` too, and one with a finer quantum lies below the binade. -/
theorem nearest_of_quantum {n d s k : Nat} (hd : 0 < d) (hk : k = halfEven n (d * 2 ^ s)) (hks : 2 ^ 23 ≤ k ∨ s = 0)
    (hk24 : k ≤ 2 ^ 24) (hlow : s = 0 ∨ 2 ^ 23 * (d * 2 ^ s) ≤ n) : Nearest n d (s * 2 ^ 23 + k) := by
  intro p
  have hr : unitsOf (s * 2 ^ 23 + k) = k * 2 ^ s := unitsOf_quantum hks hk24
  have hD : 0 < d * 2 ^ s := by positivity
  have hmul : ∀ q : Nat, distance n d p = |(q : Int) * (d * 2 ^ s : Nat) - n| ∨ unitsOf p ≠ q * 2 ^ s := by
    intro q
    by_cases h : unitsOf p = q * 2 ^ s
    · left
      rw [distance, h]
      push_cast
      congr 1
      ring
    · exact .inr h
  have hdr : distance n d (s * 2 ^ 23 + k) = |(k : Int) * (d * 2 ^ s : Nat) - n| := by
    rw [distance, hr]
    push_cast
    congr 1
    ring
  obtain ⟨s', k', hp, hks', hk24', hu⟩ := exists_quantum p
  rcases Nat.lt_or_ge s' s with hfine | hcoarse
  · have hlow' : 2 ^ 23 * (d * 2 ^ s) ≤ n := hlow.resolve_left (by omega)
    have hbelow : unitsOf p * d < 2 ^ 23 * (d * 2 ^ s) := by
      have h1 : 2 ^ (s' + 1) ≤ 2 ^ s := Nat.pow_le_pow_right (by norm_num) hfine
      calc unitsOf p * d = k' * 2 ^ s' * d := by rw [hu]
        _ < 2 ^ 24 * 2 ^ s' * d := by gcongr
        _ = 2 ^ 23 * (d * 2 ^ (s' + 1)) := by rw [pow_succ]; ring
        _ ≤ 2 ^ 23 * (d * 2 ^ s) := by gcongr
    have hstrict : distance n d (s * 2 ^ 23 + k) < distance n d p := by
      have hnear := (halfEven_nearest n hD (2 ^ 23)).1
      rw [← hk] at hnear
      rw [hdr, distance]
      refine lt_of_le_of_lt hnear ?_
      rw [abs_of_nonpos (by zify at hlow'; push_cast; linarith),
        abs_of_nonpos (by zify at hlow' hbelow; linarith)]
      zify at hbelow
      push_cast
      linarith
    exact ⟨hstrict.le, fun _ he => absurd he hstrict.ne⟩
  · have he : unitsOf p = k' * 2 ^ (s' - s) * 2 ^ s := by
      rw [hu, mul_assoc, ← pow_add, Nat.sub_add_cancel hcoarse]
    have hdp := (hmul (k' * 2 ^ (s' - s))).resolve_right (not_not.mpr he)
    obtain ⟨hle, htie⟩ := halfEven_nearest n hD (k' * 2 ^ (s' - s))
    rw [← hk] at hle htie
    refine ⟨by rw [hdr, hdp]; exact hle, fun hne heq => ?_⟩
    rw [hdr, hdp] at heq
    have hkne : k' * 2 ^ (s' - s) ≠ k := by
      intro hc
      refine hne (unitsOf_strictMono.injective ?_)
      rw [hr, he, hc]
    have := htie hkne heq
    omega

/-- The model's rounding cuts a nearest pattern at infinity. -/
theorem exists_nearest (n : Nat) {d : Nat} (hd : 0 < d) : ∃ r, roundUnits n d = min r infPat ∧ Nearest n d r := by
  obtain ⟨s, k, hr, hk, hks, hk24, hlow⟩ := roundUnits_cases n hd
  exact ⟨_, hr, nearest_of_quantum hd hk hks hk24 hlow⟩

theorem unitsOf_infPat : unitsOf infPat = 2 ^ 25 * 2 ^ 252 := by rfl

theorem unitsOf_maxFinite : unitsOf (infPat - 1) = (2 ^ 25 - 2) * 2 ^ 252 := by rfl

section

variable {n d r : Nat}

/-- Distances in the unit that the threshold is a multiple of. -/
theorem distance_of_multiple {p a : Nat} (h : unitsOf p = a * 2 ^ 252) (n d : Nat) :
    distance n d p = |((a * (2 ^ 252 * d) : Nat) : Int) - n| := by
  rw [distance, h, ← mul_assoc]
  push_cast
  rfl

/-- From half a unit past the largest finite value on, that value is not the nearest: at the half itself it ties with
the next, and is odd. -/
theorem infPat_le_of_nearest (hd : 0 < d) (hr : Nearest n d r) (hn : d * ((2 ^ 25 - 1) * 2 ^ 252) ≤ n) : infPat ≤ r := by
  by_contra hc
  have hle : unitsOf r * d ≤ (2 ^ 25 - 2) * (2 ^ 252 * d) := by
    rw [← mul_assoc, ← unitsOf_maxFinite]
    exact Nat.mul_le_mul_right d (unitsOf_le_iff.mpr (by omega))
  have hhalf : (2 ^ 25 - 1) * (2 ^ 252 * d) ≤ n := by rwa [← mul_assoc, mul_comm]
  have hmax : unitsOf r * d = (2 ^ 25 - 2) * (2 ^ 252 * d) → r = infPat - 1 := by
    rw [← mul_assoc, ← unitsOf_maxFinite]
    exact fun h => unitsOf_strictMono.injective (Nat.eq_of_mul_eq_mul_right hd h)
  obtain ⟨hdist, htie⟩ := hr infPat
  rw [distance_of_multiple unitsOf_infPat, distance, ← Nat.cast_mul] at hdist htie
  have hQ : 0 < 2 ^ 252 * d := by positivity
  generalize 2 ^ 252 * d = Q at *
  rw [abs_of_nonpos (a := ((unitsOf r * d : Nat) : Int) - n) (by omega)] at hdist htie
  rcases abs_cases (((2 ^ 25 * Q : Nat) : Int) - n) with ⟨habs, _⟩ | ⟨habs, _⟩
  · rw [habs] at hdist htie
    have heq : unitsOf r * d = (2 ^ 25 - 2) * Q := by omega
    have heven := htie (by omega) (by omega)
    rw [hmax heq] at heven
    exact absurd heven (by decide)
  · rw [habs] at hdist
    omega

/-- Below that half the largest finite value is nearer than infinity and all beyond. -/
theorem lt_infPat_of_nearest (hr : Nearest n d r) (hn : n < d * ((2 ^ 25 - 1) * 2 ^ 252)) : r < infPat := by
  by_contra hc
  have hge : 2 ^ 25 * (2 ^ 252 * d) ≤ unitsOf r * d := by
    rw [← mul_assoc, ← unitsOf_infPat]
    exact Nat.mul_le_mul_right d (unitsOf_le_iff.mpr (by omega))
  have hhalf : n < (2 ^ 25 - 1) * (2 ^ 252 * d) := by rwa [← mul_assoc, mul_comm]
  have hdist := (hr (infPat - 1)).1
  rw [distance_of_multiple unitsOf_maxFinite, distance, ← Nat.cast_mul] at hdist
  generalize 2 ^ 252 * d = Q at *
  rw [abs_of_nonneg (a := ((unitsOf r * d : Nat) : Int) - n) (by omega)] at hdist
  rcases abs_cases ((((2 ^ 25 - 2) * Q : Nat) : Int) - n) with ⟨habs, _⟩ | ⟨habs, _⟩
  · rw [habs] at hdist
    omega
  · rw [habs] at hdist
    omega

end

/-- Settles O55: the nearest pattern of the unbounded range is finite exactly below the threshold, and there the cut
changes nothing. -/
theorem roundsToNearestEven : Obligations.RoundsToNearestEven := by
  unfold Obligations.RoundsToNearestEven
  intro n m hm
  obtain ⟨r, hround, hr⟩ := exists_nearest n hm
  refine ⟨fun hn => ?_, fun hn => ?_⟩
  · rw [hround]
    exact min_eq_right (infPat_le_of_nearest hm hr hn)
  · have hlt := lt_infPat_of_nearest hr hn
    rw [hround, min_eq_left hlt.le]
    refine ⟨hlt, fun p hp => ?_⟩
    have hsmall : infPat < 2 ^ 31 := by decide
    have hp' : p < infPat := hp
    simp only [units_ofNat (hlt.trans hsmall), units_ofNat (hp'.trans hsmall)]
    exact hr p

end Sys2Proof.Proofs.Rounding
end

section
/-! The operations on finite operands (00_scope.md R11): each is its exact result, rounded once; and what zeros do. -/

-- One theorem after another: a thread for each proof would take the whole text past its memory limit.
set_option Elab.async false

namespace Sys2Proof.Proofs.FiniteOperations

open Sys2Proof.Machine Sys2Proof.Claims

/-! The parts of a value given by its sign and its magnitude -/

section

variable {p : Nat} (s : Bool)

theorem lt_of_le_infPat (hp : p ≤ infPat) : p < 2 ^ 31 := hp.trans_lt (by decide)

theorem isNaN_packF (hp : p ≤ infPat) : isNaN (packF s p) = false := by
  rw [isNaN, magPat_packF s (lt_of_le_infPat hp)]
  simpa using hp

theorem isInf_packF (hp : p ≤ infPat) : isInf (packF s p) = (p == infPat) := by
  rw [isInf, magPat_packF s (lt_of_le_infPat hp)]

theorem isZero_packF (hp : p ≤ infPat) : isZero (packF s p) = (p == 0) := by
  rw [isZero, magPat_packF s (lt_of_le_infPat hp)]

theorem units_packF (hp : p ≤ infPat) : units (packF s p) = unitsOf p := by
  rw [units_eq, magPat_packF s (lt_of_le_infPat hp)]

theorem sUnits_packF (hp : p ≤ infPat) : sUnits (packF s p) = if s then -(unitsOf p : Int) else unitsOf p := by
  rw [sUnits, units_packF s hp, signBit_packF s (lt_of_le_infPat hp)]

/-- A value that is no NaN, by its sign and its magnitude. -/
theorem eq_packF_of_not_nan {x : F32} (h : isNaN x = false) : magPat x ≤ infPat ∧ x = packF (signBit x) (magPat x) :=
  ⟨by simpa [isNaN] using h, (packF_parts x).symm⟩

end

/-! Finite operands -/

section

variable {x y z : F32}

theorem not_nan_inf_of_finite (h : isFinite x = true) : isNaN x = false ∧ isInf x = false := (isFinite_iff x).mp h

/-- The sum of finite values, rounded; a zero sum has a sign only if both operands have one. -/
theorem fsum_finite (hx : isFinite x = true) (hz : isFinite z = true) (d : Draw) (op : FOp) (y : F32) :
    fsum d op x y z =
      if sUnits x + sUnits z = 0 then packF (signBit x && signBit z) 0
      else packF (sUnits x + sUnits z < 0) (roundUnits (sUnits x + sUnits z).natAbs 1) := by
  obtain ⟨hxn, hxi⟩ := not_nan_inf_of_finite hx
  obtain ⟨hzn, hzi⟩ := not_nan_inf_of_finite hz
  simp [fsum, hxn, hxi, hzn, hzi]

theorem fadd_finite (hx : isFinite x = true) (hy : isFinite y = true) (d : Draw) :
    fadd d x y =
      if sUnits x + sUnits y = 0 then packF (signBit x && signBit y) 0
      else packF (sUnits x + sUnits y < 0) (roundUnits (sUnits x + sUnits y).natAbs 1) := fsum_finite hx hy d .add y

theorem fsub_finite (hx : isFinite x = true) (hy : isFinite y = true) (d : Draw) :
    fsub d x y =
      if sUnits x - sUnits y = 0 then packF (signBit x && !signBit y) 0
      else packF (sUnits x - sUnits y < 0) (roundUnits (sUnits x - sUnits y).natAbs 1) := by
  rw [fsub, fsum_finite hx ((isFinite_fneg y).trans hy), sUnits_fneg, signBit_fneg, sub_eq_add_neg]

theorem fmul_finite (hx : isFinite x = true) (hy : isFinite y = true) (d : Draw) :
    fmul d x y = packF (signBit x != signBit y) (roundUnits (units x * units y) unitsPerOne) := by
  obtain ⟨hxn, hxi⟩ := not_nan_inf_of_finite hx
  obtain ⟨hyn, hyi⟩ := not_nan_inf_of_finite hy
  simp [fmul, hxn, hxi, hyn, hyi]

theorem fdiv_finite (hx : isFinite x = true) (hy : isFinite y = true) (hz : isZero y = false) (d : Draw) :
    fdiv d x y = packF (signBit x != signBit y) (roundUnits (units x * unitsPerOne) (units y)) := by
  obtain ⟨hxn, hxi⟩ := not_nan_inf_of_finite hx
  obtain ⟨hyn, hyi⟩ := not_nan_inf_of_finite hy
  simp [fdiv, hxn, hxi, hyn, hyi, hz]

theorem fsqrt_finite (hx : isFinite x = true) (hz : isZero x = false) (hs : signBit x = false) (d : Draw) :
    fsqrt d x = packF false (roundUnits (2 * isqrt (units x * unitsPerOne) +
      (if isqrt (units x * unitsPerOne) * isqrt (units x * unitsPerOne) = units x * unitsPerOne then 0 else 1)) 2) := by
  obtain ⟨hxn, hxi⟩ := not_nan_inf_of_finite hx
  simp [fsqrt, hxn, hxi, hz, hs]

/-! Zeros -/

theorem roundUnits_zero {d : Nat} (hd : 0 < d) : roundUnits 0 d = 0 :=
  Nat.le_zero.mp (roundUnits_le_of_le hd (by rw [unitsOf_zero, Nat.zero_mul]))

theorem eq_packF_of_isZero (h : isZero x = true) : x = packF (signBit x) 0 := by
  have hm : magPat x = 0 := by simpa [isZero] using h
  rw [← hm, packF_parts]

theorem isZero_packF_zero (b : Bool) : isZero (packF b 0) = true := by
  rw [isZero, magPat_packF b (by norm_num)]
  rfl

theorem units_of_isZero (h : isZero x = true) : units x = 0 := (isZero_iff_units x).mp h

theorem sUnits_of_isZero (h : isZero x = true) : sUnits x = 0 := by simp [sUnits, units_of_isZero h]

theorem isFinite_of_isZero (h : isZero x = true) : isFinite x = true := by
  have hm : magPat x = 0 := by simpa [isZero] using h
  rw [isFinite, hm]
  rfl

theorem isZero_of_sUnits (h : sUnits x = 0) : isZero x = true := by
  refine (isZero_iff_units x).mpr ?_
  unfold sUnits at h
  split at h <;> omega

theorem isZero_iff_magPat : isZero x = true ↔ magPat x = 0 := by simp [isZero]

/-- A product of finite values one of which is a zero is a zero. -/
theorem isZero_fmul (hx : isFinite x = true) (hy : isFinite y = true) (h : units x = 0 ∨ units y = 0) (d : Draw) :
    isZero (fmul d x y) = true := by
  have h0 : units x * units y = 0 := Nat.mul_eq_zero.mpr h
  rw [fmul_finite hx hy, h0, roundUnits_zero (by unfold unitsPerOne; positivity)]
  exact isZero_packF_zero _

/-- Rounding a value that a finite pattern has, sign and all, gives the pattern. -/
theorem packF_round_sUnits (hx : isFinite x = true) (h0 : sUnits x ≠ 0) :
    packF (sUnits x < 0) (roundUnits (sUnits x).natAbs 1) = x := by
  have habs : (sUnits x).natAbs = units x := by
    unfold sUnits
    split <;> simp
  have hsign : decide (sUnits x < 0) = signBit x := by
    unfold sUnits at h0 ⊢
    cases hs : signBit x with
    | false => simp
    | true =>
      simp only [hs, if_true] at h0 ⊢
      simpa using (by omega : 0 < units x)
  rw [habs, roundUnits_units hx, hsign, packF_parts]

/-- Adding a zero to a finite value that is no zero changes nothing. -/
theorem fadd_isZero (hx : isFinite x = true) (h0 : isZero x = false) (hy : isZero y = true) (d : Draw) :
    fadd d x y = x := by
  have hne : sUnits x ≠ 0 := fun h => by simp [isZero_of_sUnits h] at h0
  rw [fadd_finite hx (isFinite_of_isZero hy), sUnits_of_isZero hy, add_zero, if_neg hne, packF_round_sUnits hx hne]

/-- Adding two zeros gives a zero. -/
theorem isZero_fadd (hx : isZero x = true) (hy : isZero y = true) (d : Draw) : isZero (fadd d x y) = true := by
  rw [fadd_finite (isFinite_of_isZero hx) (isFinite_of_isZero hy), sUnits_of_isZero hx, sUnits_of_isZero hy,
    if_pos (add_zero 0)]
  exact isZero_packF_zero _

theorem feq_self (hx : isNaN x = false) : feq x x = true := feq_iff.mpr ⟨hx, hx, rfl⟩

theorem orderKey_of_isZero (hx : isZero x = true) : orderKey x = 0 := by
  simp [orderKey, isZero_iff_magPat.mp hx]

theorem isNaN_of_isZero (hx : isZero x = true) : isNaN x = false := (not_nan_inf_of_finite (isFinite_of_isZero hx)).1

end

/-- Settles O56: an equation for each operation; the root of a zero is the zero, which is its exact value rounded. -/
theorem operationsRoundTheExactResult : Obligations.OperationsRoundTheExactResult := by
  unfold Obligations.OperationsRoundTheExactResult
  intro x y d hx hy
  refine ⟨fun h => ?add, fun h => ?sub, fmul_finite hx hy d, fun h => fdiv_finite hx hy h d, fun hs => ?sqrt⟩
  case add => rw [fadd_finite hx hy, if_neg h]
  case sub => rw [fsub_finite hx hy, if_neg h]
  case sqrt =>
    cases hz : isZero x with
    | true =>
      obtain ⟨hxn, _⟩ := not_nan_inf_of_finite hx
      refine ⟨0, by simp, by simp [units_of_isZero hz], ?_⟩
      have hroot : fsqrt d x = x := by simp [fsqrt, hxn, hz]
      rw [hroot]
      simp only [units_of_isZero hz, Nat.zero_mul, Nat.mul_zero, if_true, Nat.add_zero]
      rw [roundUnits_zero (by norm_num), ← hs]
      exact eq_packF_of_isZero hz
    | false =>
      obtain ⟨hle, hlt⟩ := isqrt_spec (units x * unitsPerOne)
      exact ⟨isqrt (units x * unitsPerOne), hle, hlt, fsqrt_finite hx hz hs d⟩

end Sys2Proof.Proofs.FiniteOperations
end

section
/-! The named properties of the free functions (00_scope.md R12) but NUM-P4. -/

-- One theorem after another: a thread for each proof would take the whole text past its memory limit.
set_option Elab.async false

namespace Sys2Proof.Proofs.NamedProperties

open Sys2Proof.Machine Sys2Proof.Claims Sys2Proof.Proofs.FiniteOperations

section

variable {x y : F32}

/-! Signs in the order of the values -/

theorem signBit_of_orderKey_nonpos (h : orderKey x ≤ 0) : isZero x = true ∨ signBit x = true := by
  cases hs : signBit x with
  | true => exact .inr rfl
  | false =>
    left
    rw [isZero_iff_magPat]
    simp only [orderKey, hs, Bool.false_eq_true, if_false] at h
    omega

theorem signBit_of_orderKey_nonneg (h : 0 ≤ orderKey x) : isZero x = true ∨ signBit x = false := by
  cases hs : signBit x with
  | false => exact .inr rfl
  | true =>
    left
    rw [isZero_iff_magPat]
    simp only [orderKey, hs, if_true] at h
    omega

theorem orderKey_zero : orderKey 0 = 0 := by decide

theorem orderKey_one32 : orderKey one32 = magPat one32 := by decide

/-! `fexp` (NUM-P1, NUM-P2) -/

theorem expPat_of_isZero (h : isZero x = true) : expPat x = magPat one32 := if_pos h

theorem expPat_below (h : isZero x = false) (hs : signBit x = true) :
    expPat x = min (magPat one32) (Config.expBelow (infPat - magPat x)) := by simp [expPat, h, hs]

theorem expPat_above (h : isZero x = false) (hs : signBit x = false) :
    expPat x = min infPat (magPat one32 + Config.expAbove (magPat x)) := by simp [expPat, h, hs]

/-- At or below zero the pattern is at most that of 1.0. -/
theorem expPat_le_one (h : orderKey x ≤ 0) : expPat x ≤ magPat one32 := by
  cases hz : isZero x with
  | true => exact (expPat_of_isZero hz).le
  | false =>
    rw [expPat_below hz ((signBit_of_orderKey_nonpos h).resolve_left (by simp [hz]))]
    exact Nat.min_le_left _ _

/-- At or above zero the pattern is at least that of 1.0. -/
theorem one_le_expPat (h : 0 ≤ orderKey x) : magPat one32 ≤ expPat x := by
  cases hz : isZero x with
  | true => exact (expPat_of_isZero hz).ge
  | false =>
    rw [expPat_above hz ((signBit_of_orderKey_nonneg h).resolve_left (by simp [hz]))]
    exact le_min (by decide) (Nat.le_add_right _ _)

/-- The pattern rises with the operand: on either side of zero by the monotonicity of the parameter, across zero by the
bound of 1.0. -/
theorem expPat_mono (h : orderKey x ≤ orderKey y) : expPat x ≤ expPat y := by
  rcases lt_or_ge 0 (orderKey x) with hx | hx
  · have hxz : isZero x = false := Bool.eq_false_iff.mpr fun hz => hx.ne' (orderKey_of_isZero hz)
    have hyz : isZero y = false := Bool.eq_false_iff.mpr fun hz => (hx.trans_le h).ne' (orderKey_of_isZero hz)
    rw [expPat_above hxz ((signBit_of_orderKey_nonneg hx.le).resolve_left (by simp [hxz])),
      expPat_above hyz ((signBit_of_orderKey_nonneg (hx.le.trans h)).resolve_left (by simp [hyz]))]
    have hmag : (magPat x : Int) ≤ magPat y := by
      rwa [← orderKey_nonneg hx.le, ← orderKey_nonneg (hx.le.trans h)]
    exact min_le_min le_rfl (Nat.add_le_add_left (Config.expAbove.monotone (by exact_mod_cast hmag)) _)
  · rcases le_or_gt 0 (orderKey y) with hy | hy
    · exact (expPat_le_one hx).trans (one_le_expPat hy)
    · have hyz : isZero y = false := Bool.eq_false_iff.mpr fun hz => hy.ne (orderKey_of_isZero hz)
      have hxz : isZero x = false := Bool.eq_false_iff.mpr fun hz => (h.trans_lt hy).ne (orderKey_of_isZero hz)
      have hxs := (signBit_of_orderKey_nonpos hx).resolve_left (by simp [hxz])
      have hys := (signBit_of_orderKey_nonpos hy.le).resolve_left (by simp [hyz])
      rw [expPat_below hxz hxs, expPat_below hyz hys]
      simp only [orderKey, hxs, hys, if_true] at h
      exact min_le_min le_rfl (Config.expBelow.monotone (by omega))

theorem fexp_of_isZero (h : isZero x = true) (d : Draw) : fexp d x = one32 := by
  have hp : magPat one32 ≠ 0 := by decide
  simp only [fexp, isNaN_of_isZero h, Bool.false_eq_true, if_false, expPat_of_isZero h, beq_eq_false_iff_ne.mpr hp,
    Bool.false_and]
  decide

/-- NUM-P2: `fexp` of a value at most 0 lies between 0 and 1. -/
theorem fexp_bounds (hn : isNaN x = false) (h : orderKey x ≤ 0) (d : Draw) : inUnitInterval (fexp d x) := by
  obtain ⟨hrn, _, hkey⟩ := (fexp_spec d x).2 hn
  have hone : (magPat one32 : Int) = orderKey 0x3F800000 := orderKey_one32.symm
  refine ⟨fle_iff.mpr ⟨by decide, hrn, ?_⟩, fle_iff.mpr ⟨hrn, by decide, ?_⟩⟩
  · rw [hkey, orderKey_zero]
    positivity
  · rw [hkey, ← hone]
    exact_mod_cast expPat_le_one h

/-- NUM-P2: `fexp` is non-decreasing. -/
theorem fexp_mono (h : fle x y = true) (d d' : Draw) : fle (fexp d x) (fexp d' y) = true := by
  obtain ⟨hx, hy, hle⟩ := fle_iff.mp h
  obtain ⟨hxn, _, hxk⟩ := (fexp_spec d x).2 hx
  obtain ⟨hyn, _, hyk⟩ := (fexp_spec d' y).2 hy
  refine fle_iff.mpr ⟨hxn, hyn, ?_⟩
  rw [hxk, hyk]
  exact_mod_cast expPat_mono hle

/-! `fpow` (NUM-P3, NUM-P6), `fsin` and `fcos` (NUM-P5, NUM-P6) -/

theorem fpow_zero (h : isFinite x = true) (d : Draw) : fpow d x 0 = one32 := by
  have hnan : ¬ (isNaN x || isNaN 0) = true := by
    rw [(not_nan_inf_of_finite h).1]
    decide
  have hzero : (isFinite x && ((0 : F32) == 0)) = true := by
    rw [h]
    decide
  rw [fpow, if_neg hnan, if_pos hzero]

theorem fpow_one (h : isFinite x = true) (d : Draw) : fpow d x one32 = x := by
  have hnan : ¬ (isNaN x || isNaN one32) = true := by
    rw [(not_nan_inf_of_finite h).1]
    decide
  have hzero : ¬ (isFinite x && (one32 == 0)) = true := by
    rw [h]
    decide
  have hone : (isFinite x && (one32 == one32)) = true := by
    rw [h]
    decide
  rw [fpow, if_neg hnan, if_neg hzero, if_pos hone]

theorem isNaN_fpow (h : isNaN x = true ∨ isNaN y = true) (hy : y ≠ 0) (d : Draw) : isNaN (fpow d x y) = true := by
  rw [fpow, if_pos (Bool.or_eq_true_iff.mpr h), if_neg hy]
  exact isNaN_nanResult _ _ _ _

/-- A value of `[-1, 1]` (NUM-P5). -/
def InSymmetricInterval (v : F32) : Prop := fle 0xBF800000 v = true ∧ fle v 0x3F800000 = true

theorem inSymmetric_bounds (v : F32) : InSymmetricInterval (inSymmetric v) := by
  unfold inSymmetric
  split
  · rename_i h
    exact Bool.and_eq_true_iff.mp h
  · exact ⟨by decide, by decide⟩

theorem fsin_bounds (h : isFinite x = true) (d : Draw) : InSymmetricInterval (fsin d x) := by
  unfold fsin
  rw [if_neg (by simp [(not_nan_inf_of_finite h).1])]
  split
  · exact ⟨by decide, by decide⟩
  · exact inSymmetric_bounds _

theorem fcos_bounds (h : isFinite x = true) (d : Draw) : InSymmetricInterval (fcos d x) := by
  unfold fcos
  rw [if_neg (by simp [(not_nan_inf_of_finite h).1])]
  split
  · exact ⟨by decide, by decide⟩
  · exact inSymmetric_bounds _

theorem isNaN_fsin (h : isNaN x = true) (d : Draw) : isNaN (fsin d x) = true := by
  rw [fsin, if_pos h]
  exact isNaN_nanResult _ _ _ _

theorem isNaN_fcos (h : isNaN x = true) (d : Draw) : isNaN (fcos d x) = true := by
  rw [fcos, if_pos h]
  exact isNaN_nanResult _ _ _ _

end

/-- Settles O57: the properties one by one. -/
theorem numericsNamedProperties : Obligations.NumericsNamedProperties := by
  unfold Obligations.NumericsNamedProperties
  intro d d' x y
  refine ⟨fexp_of_isZero (by decide) d, fexp_of_isZero (by decide) d, fun hx h => ?expBounds, fun h => fexp_mono h d d',
    fun h => ⟨fpow_zero h d, fpow_one h d⟩, rfl, rfl, fun h => ?symmetric, fun h => ?nan, fun h hy => isNaN_fpow h hy d⟩
  case expBounds =>
    obtain ⟨_, _, hle⟩ := fle_iff.mp h
    exact fexp_bounds (not_nan_inf_of_finite hx).1 (hle.trans_eq orderKey_zero) d
  case symmetric =>
    obtain ⟨h1, h2⟩ := fsin_bounds h d
    obtain ⟨h3, h4⟩ := fcos_bounds h d
    exact ⟨h1, h2, h3, h4⟩
  case nan => exact ⟨(fexp_spec d x).1 h, isNaN_fsin h d, isNaN_fcos h d⟩

end Sys2Proof.Proofs.NamedProperties
end

section
/-! NUM-P4 (00_scope.md R12): `fpow` is exact for a positive base and an integer exponent wherever the real power is a
binary32 number. With the base an odd number times a power of two, so is the power, and its odd part has 24 bits. -/

-- One theorem after another: a thread for each proof would take the whole text past its memory limit.
set_option Elab.async false

namespace Sys2Proof.Proofs.ExactPowers

open Sys2Proof.Machine Sys2Proof.Claims Sys2Proof.Proofs.FiniteOperations Sys2Proof.Proofs.NamedProperties

/-! The odd part -/

/-- The largest power of two in `m`, as a divisor it has in common with a power of two above it. -/
theorem exists_gcd_two_pow {m c : Nat} (h0 : 0 < m) (h : m < 2 ^ c) :
    ∃ j, Nat.gcd m (2 ^ c) = 2 ^ j ∧ m = m / 2 ^ j * 2 ^ j ∧ m / 2 ^ j % 2 = 1 := by
  obtain ⟨j, hj, hgcd⟩ := (Nat.dvd_prime_pow Nat.prime_two).mp (Nat.gcd_dvd_right m (2 ^ c))
  have hdvd : 2 ^ j ∣ m := hgcd ▸ Nat.gcd_dvd_left m (2 ^ c)
  refine ⟨j, hgcd, (Nat.div_mul_cancel hdvd).symm, ?_⟩
  by_contra heven
  have hmore : 2 ^ (j + 1) ∣ m := by
    obtain ⟨q, hq⟩ : 2 ∣ m / 2 ^ j := by omega
    exact ⟨q, by rw [← Nat.div_mul_cancel hdvd, hq, pow_succ]; ring⟩
  rcases Nat.lt_or_ge j c with hlt | hge
  · have : 2 ^ (j + 1) ∣ 2 ^ j := hgcd ▸ Nat.dvd_gcd hmore (Nat.pow_dvd_pow 2 hlt)
    exact absurd ((Nat.pow_dvd_pow_iff_le_right (by norm_num)).mp this) (by omega)
  · have : 2 ^ c ≤ m := Nat.le_of_dvd h0 ((Nat.pow_dvd_pow 2 (by omega)).trans hdvd)
    exact absurd h (Nat.not_lt.mpr this)

/-- `twosIn m` divides out of `m` every factor two. -/
theorem twosIn_spec {m : Nat} (h0 : 0 < m) (h : m < 2 ^ 300) :
    m = m / 2 ^ twosIn m * 2 ^ twosIn m ∧ m / 2 ^ twosIn m % 2 = 1 := by
  obtain ⟨j, hgcd, hspec⟩ := exists_gcd_two_pow h0 h
  rwa [twosIn, hgcd, Nat.log2_two_pow]

/-! The units of a power -/

section

variable {o Z k s : Nat} {n E : Int}

/-- A natural number that is a power of two with an integer exponent is one with a natural exponent. -/
theorem eq_two_pow_of_zpow (h : (Z : ℚ) = 2 ^ E) : 0 ≤ E ∧ Z = 2 ^ E.toNat := by
  have hE : 0 ≤ E := by
    by_contra hneg
    have hlt : (2 : ℚ) ^ E < 1 := zpow_lt_one_of_neg₀ (by norm_num) (by omega)
    have hpos : (0 : ℚ) < 2 ^ E := by positivity
    rw [← h] at hlt hpos
    have h1 : Z < 1 := by exact_mod_cast hlt
    have h2 : 0 < Z := by exact_mod_cast hpos
    omega
  refine ⟨hE, ?_⟩
  lift E to Nat using hE
  rw [zpow_natCast] at h
  exact_mod_cast h

/-- An odd power times a power of two can be a whole number only with a natural power of two. -/
theorem eq_odd_mul_two_pow {N : Nat} (ho : o % 2 = 1) (h : (Z : ℚ) = (o : ℚ) ^ N * 2 ^ E) :
    0 ≤ E ∧ Z = o ^ N * 2 ^ E.toNat := by
  have hE : 0 ≤ E := by
    by_contra hneg
    obtain ⟨F, hF⟩ : ∃ F : Nat, E = -((F + 1 : Nat) : Int) := ⟨(-E).toNat - 1, by omega⟩
    have hmul : Z * 2 ^ (F + 1) = o ^ N := by
      have : (Z : ℚ) * 2 ^ (F + 1) = o ^ N := by
        rw [h, hF, zpow_neg, zpow_natCast, mul_assoc, inv_mul_cancel₀ (by positivity), mul_one]
      exact_mod_cast this
    have hodd : o ^ N % 2 = 1 := Nat.odd_iff.mp ((Nat.odd_iff.mpr ho).pow)
    rw [← hmul, pow_succ, ← mul_assoc, Nat.mul_mod_left] at hodd
    exact absurd hodd zero_ne_one
  refine ⟨hE, ?_⟩
  lift E to Nat using hE
  rw [zpow_natCast] at h
  exact_mod_cast h

/-- An odd base above 1 has no finite reciprocal: its negative powers are no whole number of units. -/
theorem not_odd_negative_power {N : Nat} (ho : o % 2 = 1) (h1 : o ≠ 1) (hN : 0 < N) :
    (Z : ℚ) ≠ (o : ℚ) ^ (-(N : Int)) * 2 ^ E := by
  intro h
  have ho0 : (o : ℚ) ≠ 0 := by
    have : o ≠ 0 := by omega
    exact_mod_cast this
  have hmul : ((Z * o ^ N : Nat) : ℚ) = 2 ^ E := by
    push_cast
    rw [h, zpow_neg, zpow_natCast]
    field_simp
  obtain ⟨_, hpow⟩ := eq_two_pow_of_zpow hmul
  have hdvd : o ∣ 2 ^ E.toNat := hpow ▸ (dvd_pow_self o hN.ne').trans (Nat.dvd_mul_left _ _)
  have hcop : Nat.Coprime o (2 ^ E.toNat) := (Nat.coprime_two_right.mpr (Nat.odd_iff.mpr ho)).pow_right _
  exact h1 (hcop.eq_one_of_dvd hdvd)

/-- The odd factor of a number whose fraction has 24 bits has at most 24. -/
theorem odd_factor_lt {a b : Nat} (ha : a % 2 = 1) (hZ : Z = a * 2 ^ b) (hk : Z = k * 2 ^ s) (h24 : k < 2 ^ 24)
    (h0 : 0 < Z) : a < 2 ^ 24 := by
  have hcop : Nat.Coprime a (2 ^ s) := (Nat.coprime_two_right.mpr (Nat.odd_iff.mpr ha)).pow_right _
  have hdvd : a ∣ k := hcop.dvd_of_dvd_mul_right (hk ▸ hZ ▸ Nat.dvd_mul_right a _)
  have hk0 : 0 < k := by
    rcases Nat.eq_zero_or_pos k with rfl | h
    · omega
    · exact h
  exact (Nat.le_of_dvd hk0 hdvd).trans_lt h24

theorem exponent_le_of_power_lt {N : Nat} (h3 : 3 ≤ o) (h : o ^ N < 2 ^ 24) : N ≤ 15 := by
  by_contra hc
  have : 3 ^ 16 ≤ o ^ N := (Nat.pow_le_pow_right (by norm_num) (by omega)).trans (Nat.pow_le_pow_left h3 N)
  norm_num at this h
  omega

theorem exponent_lt_of_mul_lt {a b c : Nat} (ha : 0 < a) (h : a * 2 ^ b < 2 ^ c) : b < c :=
  (Nat.pow_lt_pow_iff_right (by norm_num : 1 < 2)).mp ((Nat.le_mul_of_pos_left _ ha).trans_lt h)

/-- What the tests of `exactPow` ask of the odd part and the two exponents, and what they then compute. -/
def PowerFits (o Z : Nat) (n E : Int) : Prop :=
  0 ≤ E ∧ E ≤ 276 ∧ (o = 1 ∨ (0 ≤ n ∧ n ≤ 15)) ∧ (if o = 1 then 1 else o ^ n.toNat) < 2 ^ 24 ∧
    Z = (if o = 1 then 1 else o ^ n.toNat) * 2 ^ E.toNat

/-- A power that is the value of a finite pattern passes the tests. -/
theorem powerFits (ho : o % 2 = 1) (hZ : (Z : ℚ) = (o : ℚ) ^ n * 2 ^ E) (h0 : 0 < Z) (h277 : Z < 2 ^ 277)
    (hk : Z = k * 2 ^ s) (h24 : k < 2 ^ 24) : PowerFits o Z n E := by
  by_cases h1 : o = 1
  · subst h1
    obtain ⟨hE, hpow⟩ := eq_two_pow_of_zpow (Z := Z) (E := E) (by simpa using hZ)
    have hlt := exponent_lt_of_mul_lt (a := 1) (c := 277) one_pos (by rwa [Nat.one_mul, ← hpow])
    exact ⟨hE, by omega, .inl rfl, by simp, by simpa using hpow⟩
  · rcases lt_or_ge n 0 with hneg | hpos
    · obtain ⟨N, rfl⟩ : ∃ N : Nat, n = -(N : Int) := ⟨(-n).toNat, by omega⟩
      exact absurd hZ (not_odd_negative_power ho h1 (by omega))
    · lift n to Nat using hpos
      rw [zpow_natCast] at hZ
      obtain ⟨hE, hpow⟩ := eq_odd_mul_two_pow ho hZ
      have hodd : o ^ n % 2 = 1 := Nat.odd_iff.mp ((Nat.odd_iff.mpr ho).pow)
      have hlt := odd_factor_lt hodd hpow hk h24 h0
      have hexp := exponent_lt_of_mul_lt (a := o ^ n) (c := 277) (by omega) (by rwa [← hpow])
      have h15 := exponent_le_of_power_lt (by omega) hlt
      simp only [PowerFits, if_neg h1, Int.toNat_natCast]
      exact ⟨hE, by omega, .inr ⟨by omega, by omega⟩, hlt, hpow⟩

end

/-! Values -/

section

variable {x y z : F32}

theorem valueOf_of_positive (h : signBit x = false) : valueOf x = (units x : ℚ) / 2 ^ 149 := by
  simp [valueOf, sUnits, h]

theorem eq_of_valueOf_eq (hx : signBit x = false) (hz : signBit z = false) (h : valueOf x = valueOf z) : x = z := by
  rw [valueOf_of_positive hx, valueOf_of_positive hz, div_left_inj' (by positivity)] at h
  have hu : units x = units z := by exact_mod_cast h
  rw [units_eq, units_eq] at hu
  exact eq_of_parts (hx.trans hz.symm) (unitsOf_strictMono.injective hu)

theorem valueOf_zero : valueOf 0 = 0 := by
  rw [valueOf, sUnits_of_isZero (by decide), Int.cast_zero, zero_div]

theorem valueOf_one32 : valueOf one32 = 1 := by
  have h : units one32 = 2 ^ 149 := by rfl
  rw [valueOf_of_positive (by decide), h]
  norm_num

theorem positive_of_valueOf (h : 0 < valueOf x) : signBit x = false ∧ 0 < units x := by
  have hs : (0 : ℚ) < sUnits x := by
    rw [valueOf] at h
    exact (div_pos_iff_of_pos_right (by positivity)).mp h
  have hs' : 0 < sUnits x := by exact_mod_cast hs
  unfold sUnits at hs'
  cases hb : signBit x with
  | true =>
    rw [hb, if_pos rfl] at hs'
    omega
  | false =>
    rw [hb] at hs'
    exact ⟨rfl, by simpa using hs'⟩

theorem sUnits_of_integer {n : Int} (h : valueOf y = n) : sUnits y = n * 2 ^ 149 := by
  rw [valueOf, div_eq_iff (by positivity)] at h
  exact_mod_cast h

theorem units_lt_of_finite (h : isFinite x = true) : units x < 2 ^ 277 := by
  have hm : magPat x < infPat := by simpa [isFinite] using h
  rw [units_eq]
  refine (unitsOf_lt_iff.mpr hm).trans_eq ?_
  rw [Rounding.unitsOf_infPat, ← pow_add]

/-- The units of a power in terms of the odd part of the base. -/
theorem units_power {n : Int} {o k : Nat} (hx : signBit x = false) (hz : signBit z = false) (hu : units x = o * 2 ^ k)
    (h : valueOf z = valueOf x ^ n) : (units z : ℚ) = (o : ℚ) ^ n * 2 ^ (((k : Int) - 149) * n + 149) := by
  have hbase : valueOf x = (o : ℚ) * 2 ^ ((k : Int) - 149) := by
    rw [valueOf_of_positive hx, hu, zpow_sub₀ (by norm_num)]
    push_cast
    rw [zpow_natCast, mul_div_assoc]
    norm_cast
  rw [valueOf_of_positive hz, hbase, mul_zpow, ← zpow_mul, div_eq_iff (by positivity)] at h
  rw [h, zpow_add₀ (by norm_num), mul_assoc]
  norm_cast

/-- Where the power is the value of a finite pattern, `exactPow` finds it. -/
theorem exactPow_eq_some {n : Int} (hxf : isFinite x = true) (hyf : isFinite y = true) (hzf : isFinite z = true)
    (hpos : 0 < valueOf x) (hy : valueOf y = n) (hz : signBit z = false) (h : valueOf z = valueOf x ^ n) :
    exactPow x y = some z := by
  obtain ⟨hxs, hxu⟩ := positive_of_valueOf hpos
  have hx0 : isZero x = false := Bool.eq_false_iff.mpr fun hc => hxu.ne' (units_of_isZero hc)
  have hyu := sUnits_of_integer hy
  have hy149 : units y % unitsPerOne = 0 := by
    have habs : (units y : Int) = |n| * 2 ^ 149 := by
      rw [← abs_of_pos (by positivity : (0 : Int) < 2 ^ 149), ← abs_mul, ← hyu, sUnits]
      split <;> simp
    rw [unitsPerOne]
    omega
  have hguard : (isFinite x && isFinite y && !signBit x && !isZero x && units y % unitsPerOne == 0) = true := by
    simp [hxf, hyf, hxs, hx0, hy149]
  have hdiv : sUnits y / (unitsPerOne : Int) = n := by
    rw [hyu, unitsPerOne]
    push_cast
    exact Int.mul_ediv_cancel n (by positivity)
  obtain ⟨hodd, hodd1⟩ := twosIn_spec hxu ((units_lt_of_finite hxf).trans (by gcongr <;> norm_num))
  obtain ⟨s, k, _, _, h24, hquant⟩ := exists_quantum (magPat z)
  have hzu : 0 < units z := by
    have hvz : 0 < valueOf z := h ▸ zpow_pos hpos n
    exact (positive_of_valueOf hvz).2
  obtain ⟨hE, hE', hexp, hp, hZ⟩ := powerFits hodd1 (units_power hxs hz hodd h) hzu (units_lt_of_finite hzf)
    ((units_eq z).trans hquant) h24
  rw [exactPow, if_pos hguard]
  simp only [hdiv]
  rw [if_pos ⟨by omega, by omega, hexp⟩, if_pos ⟨hp, hZ ▸ units_lt_of_finite hzf⟩, ← hZ, roundUnits_units hzf, ← hz,
    packF_parts]

theorem fpow_eq_of_exactPow {v : F32} (hx : isFinite x = true) (hy : isFinite y = true) (h0 : y ≠ 0) (h1 : y ≠ one32)
    (h : exactPow x y = some v) (d : Draw) : fpow d x y = v := by
  have hnan : ¬ (isNaN x || isNaN y) = true := by
    simp [(not_nan_inf_of_finite hx).1, (not_nan_inf_of_finite hy).1]
  have hz : ¬ (isFinite x && (y == 0)) = true := fun hc => h0 (by simpa [hx] using hc)
  have ho : ¬ (isFinite x && (y == one32)) = true := fun hc => h1 (by simpa [hx] using hc)
  rw [fpow, if_neg hnan, if_neg hz, if_neg ho, h]

end

/-- Settles O58: the exponents `+0.0` and 1.0 are NUM-P3, which gives the same value; any other goes to `exactPow`. -/
theorem powersAreExact : Obligations.PowersAreExact := by
  unfold Obligations.PowersAreExact
  intro d x y z n hx hy hz hpos hyn hzs hpow
  have hxs := (positive_of_valueOf hpos).1
  by_cases h0 : y = 0
  · subst h0
    have hn : n = 0 := by
      have : (n : ℚ) = 0 := hyn.symm.trans valueOf_zero
      exact_mod_cast this
    rw [fpow_zero hx]
    rw [hn, zpow_zero, ← valueOf_one32] at hpow
    exact (eq_of_valueOf_eq hzs (by decide) hpow).symm
  · by_cases h1 : y = one32
    · subst h1
      have hn : n = 1 := by
        have : (n : ℚ) = 1 := hyn.symm.trans valueOf_one32
        exact_mod_cast this
      rw [fpow_one hx]
      rw [hn, zpow_one] at hpow
      exact (eq_of_valueOf_eq hzs hxs hpow).symm
    · exact fpow_eq_of_exactPow hx hy h0 h1 (exactPow_eq_some hx hy hz hpos hyn hzs hpow) d

end Sys2Proof.Proofs.ExactPowers
end

section
/-! The symmetries of the waveshaper (42_waveshaper.md R143, R145). A run of the saturator on `x` and one on `x` with its
sign turned over meet, at every step, values of one magnitude whose signs are known. -/

-- One theorem after another: a thread for each proof would take the whole text past its memory limit.
set_option Elab.async false

namespace Sys2Proof.Proofs.ShaperSymmetry

open Sys2Proof.Machine Sys2Proof.Claims Sys2Proof.Proofs.FiniteOperations

/-! The operations, by magnitudes and signs -/

section

variable {p q : Nat} (s : Bool)

/-- Whether a product is a NaN, and its magnitude, do not depend on the signs. -/
theorem fmul_packF (hp : p ≤ infPat) (hq : q ≤ infPat) :
    (∀ d s t, isNaN (fmul d (packF s p) (packF t q)) = true) ∨
      ∃ r ≤ infPat, ∀ d s t, fmul d (packF s p) (packF t q) = packF (s != t) r := by
  simp only [fmul, isNaN_packF _ hp, isNaN_packF _ hq, isInf_packF _ hp, isInf_packF _ hq, isZero_packF _ hp,
    isZero_packF _ hq, units_packF _ hp, units_packF _ hq, signBit_packF _ (lt_of_le_infPat hp),
    signBit_packF _ (lt_of_le_infPat hq), Bool.or_self, Bool.false_eq_true, if_false]
  split
  · split
    · exact .inl fun d s t => isNaN_nanResult _ _ _ _
    · exact .inr ⟨infPat, le_rfl, fun _ _ _ => rfl⟩
  · exact .inr ⟨_, roundUnits_le_infPat _ _, fun _ _ _ => rfl⟩

/-- Whether a quotient is a NaN, and its magnitude, do not depend on the signs. -/
theorem fdiv_packF (hp : p ≤ infPat) (hq : q ≤ infPat) :
    (∀ d s t, isNaN (fdiv d (packF s p) (packF t q)) = true) ∨
      ∃ r ≤ infPat, ∀ d s t, fdiv d (packF s p) (packF t q) = packF (s != t) r := by
  simp only [fdiv, isNaN_packF _ hp, isNaN_packF _ hq, isInf_packF _ hp, isInf_packF _ hq, isZero_packF _ hp,
    isZero_packF _ hq, units_packF _ hp, units_packF _ hq, signBit_packF _ (lt_of_le_infPat hp),
    signBit_packF _ (lt_of_le_infPat hq), Bool.or_self, Bool.false_eq_true, if_false]
  split
  · split
    · exact .inl fun d s t => isNaN_nanResult _ _ _ _
    · exact .inr ⟨infPat, le_rfl, fun _ _ _ => rfl⟩
  · split
    · exact .inr ⟨0, Nat.zero_le _, fun _ _ _ => rfl⟩
    · split
      · split
        · exact .inl fun d s t => isNaN_nanResult _ _ _ _
        · exact .inr ⟨infPat, le_rfl, fun _ _ _ => rfl⟩
      · exact .inr ⟨_, roundUnits_le_infPat _ _, fun _ _ _ => rfl⟩

/-- A sum of two finite values of one sign has that sign, a zero sum among them. -/
theorem fadd_packF_finite (hp : p < infPat) (hq : q < infPat) (d : Draw) :
    fadd d (packF s p) (packF s q) = packF s (roundUnits (unitsOf p + unitsOf q) 1) := by
  have hfin : ∀ {m}, m < infPat → isFinite (packF s m) = true := fun hm => by
    rw [isFinite, magPat_packF s (lt_of_le_infPat hm.le)]
    simpa using hm
  rw [fadd_finite (hfin hp) (hfin hq), sUnits_packF s hp.le, sUnits_packF s hq.le,
    signBit_packF s (lt_of_le_infPat hp.le), signBit_packF s (lt_of_le_infPat hq.le), Bool.and_self]
  have hsum : (if s then -(unitsOf p : Int) else unitsOf p) + (if s then -(unitsOf q : Int) else unitsOf q) =
      if s then -((unitsOf p + unitsOf q : Nat) : Int) else ((unitsOf p + unitsOf q : Nat) : Int) := by
    cases s <;> simp [add_comm]
  rw [hsum]
  generalize unitsOf p + unitsOf q = n
  rcases Nat.eq_zero_or_pos n with rfl | hpos
  · rw [roundUnits_zero one_pos]
    cases s <;> simp
  · cases s with
    | false =>
      rw [if_neg (by simp only [Bool.false_eq_true, if_false]; omega)]
      simp only [Bool.false_eq_true, if_false, Int.natAbs_natCast]
      rw [decide_eq_false (by omega)]
    | true =>
      rw [if_neg (by simp only [if_true]; omega)]
      simp only [if_true, Int.natAbs_neg, Int.natAbs_natCast]
      rw [decide_eq_true (by omega)]

/-- A sum of two values of one sign is no NaN; it has that sign, and its magnitude does not depend on it. -/
theorem fadd_packF (hp : p ≤ infPat) (hq : q ≤ infPat) :
    ∃ r ≤ infPat, ∀ d s, fadd d (packF s p) (packF s q) = packF s r := by
  rcases hp.eq_or_lt with rfl | hp'
  · refine ⟨infPat, le_rfl, fun d s => ?_⟩
    simp [fadd, fsum, isNaN_packF s hp, isNaN_packF s hq, isInf_packF s hp, signBit_packF s (lt_of_le_infPat hp),
      signBit_packF s (lt_of_le_infPat hq)]
  · rcases hq.eq_or_lt with rfl | hq'
    · refine ⟨infPat, le_rfl, fun d s => ?_⟩
      simp [fadd, fsum, isNaN_packF s hp, isNaN_packF s hq, isInf_packF s hp, isInf_packF s hq, hp'.ne]
    · exact ⟨_, roundUnits_le_infPat _ _, fun d s => fadd_packF_finite s hp' hq' d⟩

/-- The root of a value without a sign bit is one. -/
theorem fsqrt_packF (hp : p ≤ infPat) : ∃ r ≤ infPat, ∀ d, fsqrt d (packF false p) = packF false r := by
  simp only [fsqrt, isNaN_packF _ hp, isInf_packF _ hp, isZero_packF _ hp, units_packF _ hp,
    signBit_packF _ (lt_of_le_infPat hp), Bool.false_eq_true, if_false]
  split
  · exact ⟨p, hp, fun _ => rfl⟩
  · split
    · exact ⟨p, hp, fun _ => rfl⟩
    · exact ⟨_, roundUnits_le_infPat _ _, fun _ => rfl⟩

end

/-! Two runs -/

/-- In two runs a value is a NaN in both, or has one magnitude, with the sign `s` in the first and `s'` in the second. -/
def Alike (s s' : Bool) (x x' : F32) : Prop :=
  (isNaN x = true ∧ isNaN x' = true) ∨ ∃ p ≤ infPat, x = packF s p ∧ x' = packF s' p

section

variable {s s' t t' : Bool} {x x' y y' : F32}

theorem alike_flipSign (x : F32) : Alike (signBit x) (!signBit x) x (x ^^^ 0x80000000) := by
  cases hn : isNaN x with
  | true =>
    left
    rw [← fneg_eq_xor, isNaN_fneg]
    exact ⟨hn, hn⟩
  | false =>
    obtain ⟨hle, hx⟩ := eq_packF_of_not_nan hn
    exact .inr ⟨magPat x, hle, hx, xor_sign x⟩

theorem alike_constant {c : F32} (hc : signBit c = false) : Alike false false c c := by
  cases hn : isNaN c with
  | true => exact .inl ⟨hn, hn⟩
  | false =>
    obtain ⟨hle, hx⟩ := eq_packF_of_not_nan hn
    rw [hc] at hx
    exact .inr ⟨magPat c, hle, hx, hx⟩

theorem fmul_nan (h : isNaN x = true ∨ isNaN y = true) (d : Draw) : isNaN (fmul d x y) = true := by
  rw [fmul, if_pos (by simpa using h)]
  exact isNaN_nanResult _ _ _ _

theorem fdiv_nan (h : isNaN x = true ∨ isNaN y = true) (d : Draw) : isNaN (fdiv d x y) = true := by
  rw [fdiv, if_pos (by simpa using h)]
  exact isNaN_nanResult _ _ _ _

theorem fadd_nan (h : isNaN x = true ∨ isNaN y = true) (d : Draw) : isNaN (fadd d x y) = true := by
  rw [fadd, fsum, if_pos (by simpa using h)]
  exact isNaN_nanResult _ _ _ _

theorem fsqrt_nan (h : isNaN x = true) (d : Draw) : isNaN (fsqrt d x) = true := by
  rw [fsqrt, if_pos h]
  exact isNaN_nanResult _ _ _ _

variable {d d' : Draw}

theorem Alike.fmul (hx : Alike s s' x x') (hy : Alike t t' y y') :
    Alike (s != t) (s' != t') (fmul d x y) (fmul d' x' y') := by
  rcases hx with ⟨h, h'⟩ | ⟨p, hp, rfl, rfl⟩
  · exact .inl ⟨fmul_nan (.inl h) d, fmul_nan (.inl h') d'⟩
  · rcases hy with ⟨h, h'⟩ | ⟨q, hq, rfl, rfl⟩
    · exact .inl ⟨fmul_nan (.inr h) d, fmul_nan (.inr h') d'⟩
    · rcases fmul_packF hp hq with hnan | ⟨r, hr, heq⟩
      · exact .inl ⟨hnan d s t, hnan d' s' t'⟩
      · exact .inr ⟨r, hr, heq d s t, heq d' s' t'⟩

theorem Alike.fdiv (hx : Alike s s' x x') (hy : Alike t t' y y') :
    Alike (s != t) (s' != t') (fdiv d x y) (fdiv d' x' y') := by
  rcases hx with ⟨h, h'⟩ | ⟨p, hp, rfl, rfl⟩
  · exact .inl ⟨fdiv_nan (.inl h) d, fdiv_nan (.inl h') d'⟩
  · rcases hy with ⟨h, h'⟩ | ⟨q, hq, rfl, rfl⟩
    · exact .inl ⟨fdiv_nan (.inr h) d, fdiv_nan (.inr h') d'⟩
    · rcases fdiv_packF hp hq with hnan | ⟨r, hr, heq⟩
      · exact .inl ⟨hnan d s t, hnan d' s' t'⟩
      · exact .inr ⟨r, hr, heq d s t, heq d' s' t'⟩

theorem Alike.fadd (hx : Alike s s' x x') (hy : Alike s s' y y') : Alike s s' (fadd d x y) (fadd d' x' y') := by
  rcases hx with ⟨h, h'⟩ | ⟨p, hp, rfl, rfl⟩
  · exact .inl ⟨fadd_nan (.inl h) d, fadd_nan (.inl h') d'⟩
  · rcases hy with ⟨h, h'⟩ | ⟨q, hq, rfl, rfl⟩
    · exact .inl ⟨fadd_nan (.inr h) d, fadd_nan (.inr h') d'⟩
    · obtain ⟨r, hr, heq⟩ := fadd_packF hp hq
      exact .inr ⟨r, hr, heq d s, heq d' s'⟩

theorem Alike.fsqrt (hx : Alike false false x x') : Alike false false (fsqrt d x) (fsqrt d' x') := by
  rcases hx with ⟨h, h'⟩ | ⟨p, hp, rfl, rfl⟩
  · exact .inl ⟨fsqrt_nan h d, fsqrt_nan h' d'⟩
  · obtain ⟨r, hr, heq⟩ := fsqrt_packF hp
    exact .inr ⟨r, hr, heq d, heq d'⟩

/-- A square has no sign, in either run. -/
theorem Alike.sq (hx : Alike s s' x x') : Alike false false (Machine.fmul d x x) (Machine.fmul d' x' x') := by
  simpa using hx.fmul (d := d) (d' := d') hx

/-- A factor without a sign leaves the signs as they are. -/
theorem Alike.scale (hc : Alike false false y y') (hx : Alike s s' x x') :
    Alike s s' (Machine.fmul d y x) (Machine.fmul d' y' x') := by
  simpa using hc.fmul (d := d) (d' := d') hx

theorem Alike.scaleRight (hx : Alike s s' x x') (hc : Alike false false y y') :
    Alike s s' (Machine.fmul d x y) (Machine.fmul d' x' y') := by
  simpa using hx.fmul (d := d) (d' := d') hc

/-- The numerator of the saturator: the two powers of `x` have its sign. -/
theorem Alike.ratNumerator {c1 c3 : F32} (h1 : signBit c1 = false) (h3 : signBit c3 = false) (hx : Alike s s' x x') :
    Alike s s' (ratNumerator c1 c3 d x) (Machine.ratNumerator c1 c3 d' x') := by
  have hcube : Alike s s' (Machine.fmul d (Machine.fmul d x x) x) (Machine.fmul d' (Machine.fmul d' x' x') x') :=
    hx.sq.scale hx
  exact (hx.fadd ((alike_constant h1).scale hcube)).fadd ((alike_constant h3).scale (hcube.scaleRight hx.sq))

theorem Alike.ratShape {c1 c3 : F32} (h1 : signBit c1 = false) (h3 : signBit c3 = false) (hx : Alike s s' x x') :
    Alike s s' (ratShape c1 c3 d x) (Machine.ratShape c1 c3 d' x') := by
  have hnum := hx.ratNumerator (d := d) (d' := d') h1 h3
  have hroot := ((alike_constant (c := one32) (by decide)).fadd (d := d) (d' := d') (hnum.sq (d := d) (d' := d'))).fsqrt
    (d := d) (d' := d')
  have hquot := hnum.fdiv (d := d) (d' := d') hroot
  rwa [Bool.bne_false, Bool.bne_false] at hquot

theorem Alike.mirrored (h : Alike s (!s) x x') : mirrored x x' := by
  rcases h with hnan | ⟨p, hp, rfl, rfl⟩
  · exact .inl hnan
  · right
    rw [xor_sign, signBit_packF _ (lt_of_le_infPat hp), magPat_packF _ (lt_of_le_infPat hp)]

end

/-- Settles O32: the two runs stay alike from the operand to the answer. -/
theorem wsRatOddSymmetry : Obligations.WsRatOddSymmetry := by
  unfold Obligations.WsRatOddSymmetry
  intro c1 c3 x d d' h1 h3
  exact ((alike_flipSign x).ratShape h1 h3).mirrored

/-! The diode curve -/

theorem fabs_flipSign (x : F32) : fabs (x ^^^ 0x80000000) = fabs x := by
  rw [fabs, ← fneg_eq_xor, magPat_fneg, fabs]

theorem fcopysign_flipSign (v x : F32) : fcopysign v (x ^^^ 0x80000000) = fcopysign v x ^^^ 0x80000000 := by
  rw [xor_sign (fcopysign v x), signBit_fcopysign, magPat_fcopysign, ← fneg_eq_xor, fcopysign, signBit_fneg]

theorem fabs_fcopysign (v x : F32) : fabs (fcopysign v x) = fabs v := by
  rw [fabs, magPat_fcopysign, fabs]

/-- At or beyond the last position the table answers its last entry. -/
theorem diodeAt_of_beyond {cfg : Config} {p : F32} (h : fle (f32 (cfg.dtTab.length - 1)) p = true) (d : Draw) :
    diodeAt cfg d p = cfg.dtTab.getD (cfg.dtTab.length - 1) 0 := by
  obtain ⟨_, hn, _⟩ := fle_iff.mp h
  rw [diodeAt, fne, feq_self hn, if_neg (by decide), if_pos h]

/-- Settles O33: the table is read at the magnitude of the operand, and the sign is put on after. -/
theorem wsDiodeOddAndClamped : Obligations.WsDiodeOddAndClamped := by
  unfold Obligations.WsDiodeOddAndClamped
  intro cfg x d
  refine ⟨?_, fun h => ?_⟩
  · rw [diodeShape, fabs_flipSign, fcopysign_flipSign, diodeShape]
  · rw [diodeShape, fabs_fcopysign, diodeAt_of_beyond h]

end Sys2Proof.Proofs.ShaperSymmetry
end

section
/-! What a legal CFG makes of the stage functions (00_scope.md R7; 43_analog_filter.md R152, R156): a coefficient that is
not finite, a denominator that does not normalize and a gain that is zero are replaced, for a control in [0, 1]. -/

-- One theorem after another: a thread for each proof would take the whole text past its memory limit.
set_option Elab.async false

namespace Sys2Proof.Proofs.StageFunctions

open Sys2Proof.Machine Sys2Proof.Claims Sys2Proof.Proofs.FiniteOperations

/-- Four coefficients that are finite. -/
def FiniteCoefs (p : Coefs) : Prop :=
  isFinite p.c0 = true ∧ isFinite p.c1 = true ∧ isFinite p.c2 = true ∧ isFinite p.c3 = true

section

variable {control : F32}

theorem isControl_of_inUnitInterval (h : inUnitInterval control) : isControl control = true := by
  obtain ⟨h0, h1⟩ := h
  exact Bool.and_eq_true_iff.mpr ⟨h0, h1⟩

variable (hc : isControl control = true)
include hc

theorem isFinite_stageCoef (x : F32) : isFinite (stageCoef control x) = true := by
  cases hx : isFinite x with
  | true => simp [stageCoef, hx]
  | false =>
    have hzero : stageCoef control x = 0 := by simp [stageCoef, hc, hx]
    rw [hzero]
    rfl

theorem finite_stageCoefs (q : Fin 4 → F32) : FiniteCoefs (stageCoefs control q) :=
  ⟨isFinite_stageCoef hc _, isFinite_stageCoef hc _, isFinite_stageCoef hc _, isFinite_stageCoef hc _⟩

theorem isZero_stageGain (u : Nat) : isZero (stageGain u control) = false := by
  cases hg : isZero (Config.afsGain u control) with
  | true =>
    have hone : stageGain u control = one32 := by simp [stageGain, hc, hg]
    rw [hone]
    rfl
  | false => simp [stageGain, hc, hg]

end

section

variable {k1 k2 k3 : F32} (h1 : isFinite k1 = true) (h2 : isFinite k2 = true) (h3 : isFinite k3 = true) (d : Draw)
include h1 h2 h3

/-- The unit polynomial is its own normalizer: with finite engine constants the other three terms are zeros. -/
theorem bilinear_unit : (bilinear k1 k2 k3 d ⟨one32, 0, 0, 0⟩).c0 = one32 := by
  have hterm : ∀ {k}, isFinite k = true → isZero (fmul d 0 k) = true := fun hk =>
    isZero_fmul (by rfl) hk (.inl (by rfl)) d
  have hadd : ∀ {y}, isZero y = true → fadd d one32 y = one32 := fun hy => fadd_isZero (by rfl) (by rfl) hy d
  simp only [bilinear]
  rw [hadd (hterm h1), hadd (hterm h2), hadd (hterm h3)]

theorem normalizes_unit : normalizes k1 k2 k3 d ⟨one32, 0, 0, 0⟩ = true := by
  rw [normalizes, bilinear_unit h1 h2 h3]
  rfl

end

section

variable {control k1 k2 k3 : F32} {d : Draw} {u : Nat}

/-- The denominator is the supplied one where that normalizes, and the unit polynomial where it does not. -/
theorem sDenominator_cases (hc : isControl control = true) :
    (sDenominator k1 k2 k3 d u control = stageCoefs control (Config.afsSA u control) ∧
      normalizes k1 k2 k3 d (stageCoefs control (Config.afsSA u control)) = true) ∨
    sDenominator k1 k2 k3 d u control = ⟨one32, 0, 0, 0⟩ := by
  cases hn : normalizes k1 k2 k3 d (stageCoefs control (Config.afsSA u control)) with
  | true => exact .inl ⟨by simp [sDenominator, hn], rfl⟩
  | false => exact .inr (by simp [sDenominator, hc, hn])

theorem finite_sDenominator (hc : isControl control = true) : FiniteCoefs (sDenominator k1 k2 k3 d u control) := by
  rcases sDenominator_cases hc with ⟨h, _⟩ | h
  · rw [h]
    exact finite_stageCoefs hc _
  · rw [h]
    exact ⟨rfl, rfl, rfl, rfl⟩

theorem normalizes_sDenominator (hc : isControl control = true) (h1 : isFinite k1 = true) (h2 : isFinite k2 = true)
    (h3 : isFinite k3 = true) : normalizes k1 k2 k3 d (sDenominator k1 k2 k3 d u control) = true := by
  rcases sDenominator_cases hc with ⟨h, hn⟩ | h
  · rw [h, hn]
  · rw [h, normalizes_unit h1 h2 h3]

end

/-- Settles O35: each stage function passes its constraint or is replaced by a value that does. -/
theorem stageFunctionsAreLegal : Obligations.StageFunctionsAreLegal := by
  unfold Obligations.StageFunctionsAreLegal
  intro u control k1 k2 k3 d h
  have hc := isControl_of_inUnitInterval h
  refine ⟨finite_stageCoefs hc _, finite_sDenominator hc, isZero_stageGain hc u, fun h1 h2 h3 => ?_⟩
  simpa [normalizes] using normalizes_sDenominator (d := d) (u := u) hc h1 h2 h3

end Sys2Proof.Proofs.StageFunctions
end

section
/-! The pole of the one-pole filter and its complement (44_onepole.md R172). -/

-- One theorem after another: a thread for each proof would take the whole text past its memory limit.
set_option Elab.async false

namespace Sys2Proof.Proofs.PoleRange

open Sys2Proof.Machine Sys2Proof.Claims Sys2Proof.Proofs.FiniteOperations Sys2Proof.Proofs.NamedProperties

section

variable {x y : F32}

theorem inUnitInterval_iff :
    inUnitInterval x ↔ isNaN x = false ∧ 0 ≤ orderKey x ∧ orderKey x ≤ magPat one32 := by
  have hone : orderKey 0x3F800000 = magPat one32 := orderKey_one32
  have hnan0 : isNaN 0 = false := by decide
  have hnan1 : isNaN 0x3F800000 = false := by decide
  simp only [inUnitInterval, fle_iff, orderKey_zero, hone, hnan0, hnan1, true_and]
  exact ⟨fun ⟨⟨hn, h0⟩, _, h1⟩ => ⟨hn, h0, h1⟩, fun ⟨hn, h0, h1⟩ => ⟨⟨hn, h0⟩, hn, h1⟩⟩

theorem inUnitInterval_packF {p : Nat} (h : p ≤ magPat one32) : inUnitInterval (packF false p) := by
  have hp : p ≤ infPat := h.trans (by decide)
  have hkey : orderKey (packF false p) = p := by
    rw [orderKey, signBit_packF _ (lt_of_le_infPat hp), magPat_packF _ (lt_of_le_infPat hp)]
    rfl
  rw [inUnitInterval_iff, hkey]
  exact ⟨isNaN_packF _ hp, Int.natCast_nonneg p, by exact_mod_cast h⟩

/-- What a value in [0, 1] is in units. -/
theorem sUnits_of_inUnitInterval (h : inUnitInterval x) :
    isFinite x = true ∧ 0 ≤ sUnits x ∧ sUnits x ≤ unitsOf (magPat one32) := by
  obtain ⟨_, h0, h1⟩ := inUnitInterval_iff.mp h
  rw [orderKey_nonneg h0] at h1
  have hmag : magPat x ≤ magPat one32 := by exact_mod_cast h1
  have hunits : units x ≤ unitsOf (magPat one32) := units_eq x ▸ unitsOf_le_iff.mpr hmag
  have hpos : sUnits x = units x := by
    rcases signBit_of_orderKey_nonneg h0 with hz | hs
    · rw [sUnits_of_isZero hz, units_of_isZero hz]
      rfl
    · simp [sUnits, hs]
  have hfin : isFinite x = true := by
    have : magPat x < infPat := hmag.trans_lt (by decide)
    simpa [isFinite] using this
  rw [hpos]
  exact ⟨hfin, Int.natCast_nonneg _, by exact_mod_cast hunits⟩

/-- The complement of a value in [0, 1] lies there too: rounding does not carry it past 1.0. -/
theorem inUnitInterval_complement (h : inUnitInterval x) (d : Draw) : inUnitInterval (fsub d 0x3F800000 x) := by
  obtain ⟨hfin, h0, h1⟩ := sUnits_of_inUnitInterval h
  have hone : sUnits 0x3F800000 = unitsOf (magPat one32) := by rfl
  have hnonneg : ¬ (unitsOf (magPat one32) : Int) - sUnits x < 0 := not_lt.mpr (sub_nonneg.mpr h1)
  have hle : ((unitsOf (magPat one32) : Int) - sUnits x).natAbs ≤ unitsOf (magPat one32) * 1 := by
    generalize unitsOf (magPat one32) = one at h1 ⊢
    omega
  rw [fsub_finite (by rfl) hfin, hone]
  split
  · exact inUnitInterval_packF (Nat.zero_le _)
  · rw [decide_eq_false hnonneg]
    exact inUnitInterval_packF (roundUnits_le_of_le one_pos hle)

/-- A product of finite values on opposite sides of zero is no NaN and not above zero, also where it overflows. -/
theorem fmul_nonpos (hx : isFinite x = true) (hy : isFinite y = true) (hx0 : 0 ≤ orderKey x) (hy0 : orderKey y ≤ 0)
    (d : Draw) : isNaN (fmul d x y) = false ∧ orderKey (fmul d x y) ≤ 0 := by
  by_cases hz : units x = 0 ∨ units y = 0
  · have hzero := isZero_fmul hx hy hz d
    exact ⟨isNaN_of_isZero hzero, (orderKey_of_isZero hzero).le⟩
  · obtain ⟨hxu, hyu⟩ := not_or.mp hz
    have hxs := (signBit_of_orderKey_nonneg hx0).resolve_left fun h => hxu (units_of_isZero h)
    have hys := (signBit_of_orderKey_nonpos hy0).resolve_left fun h => hyu (units_of_isZero h)
    have hneg : (signBit x != signBit y) = true := by rw [hxs, hys]; rfl
    rw [fmul_finite hx hy, hneg]
    refine ⟨isNaN_packF _ (roundUnits_le_infPat _ _), ?_⟩
    rw [orderKey, signBit_packF _ (roundUnits_lt _ _), if_pos rfl]
    exact Int.neg_nonpos_of_nonneg (Int.natCast_nonneg _)

end

/-- After a call the record is valid, and its pole is the cached one or computed from the cutoff of the call. -/
theorem onePoleAfter_pole (w : F32) (d : Draw) (f : OnePole) (x cutoff : F32) :
    (onePoleAfter w d f x cutoff).valid = true ∧
      ((f.valid = true ∧ (onePoleAfter w d f x cutoff).b1 = f.b1) ∨
        (onePoleAfter w d f x cutoff).b1 = fexp d (fmul d cutoff w)) := by
  unfold onePoleAfter
  split
  · rename_i hcached
    exact ⟨rfl, .inl ⟨hcached.1, rfl⟩⟩
  · exact ⟨rfl, .inr rfl⟩

/-- Settles O39: a pole computed anew is `fexp` of a value at most 0, which NUM-P2 bounds. -/
theorem poleInUnitInterval : Obligations.PoleInUnitInterval := by
  unfold Obligations.PoleInUnitInterval
  intro s u f x cutoff hr hu hx hcutoff hf hfin hpos hwfin hwneg hcached
  have hexec := (OnePoleCommand.opfProcResult s u hr).2 f x cutoff hu hx hcutoff hf
  obtain ⟨hvalid, hpole⟩ := onePoleAfter_pole s.w [s.draws] f x cutoff
  have hb1 : inUnitInterval (onePoleAfter s.w [s.draws] f x cutoff).b1 := by
    rcases hpole with ⟨hv, hb⟩ | hb
    · rw [hb]
      exact hcached hv
    · obtain ⟨hn, hle⟩ := fmul_nonpos hfin hwfin (fle_iff.mp hpos).2.2 (fle_iff.mp hwneg).2.2 [s.draws]
      rw [hb]
      exact fexp_bounds hn hle _
  have hlen : u < s.opf.length := (List.getElem?_eq_some_iff.mp hf).1
  exact ⟨_, _, hexec, List.getElem?_set_self hlen, hvalid, hb1, inUnitInterval_complement hb1⟩

end Sys2Proof.Proofs.PoleRange
end

section
/-! A read at time zero straight after a write (46_delay.md R202). -/

-- One theorem after another: a thread for each proof would take the whole text past its memory limit.
set_option Elab.async false

namespace Sys2Proof.Proofs.NewestSample

open Sys2Proof.Machine Sys2Proof.Claims Sys2Proof.Proofs.FiniteOperations

/-! Offset zero -/

section

variable {o : F32} (ho : isZero o = true) (d : Draw)
include ho

/-- A zero is at or above the newest sample and before the oldest. -/
theorem delayInRange_of_isZero {f : Delay} (hcap : 2 ≤ f.cap) (hmax : f.cap < 2 ^ 24) : delayInRange f o = true := by
  obtain ⟨hunits, hfin, _⟩ := units_f32 (n := f.cap - 1) (by omega)
  have hpos : 0 < magPat (f32 (f.cap - 1)) := by
    rw [Nat.pos_iff_ne_zero, ne_eq, ← isZero_iff_magPat, isZero_iff_units, hunits]
    exact (Nat.mul_pos (by omega) (by positivity)).ne'
  refine (DelayBuffer.delayInRange_iff f o).mpr ⟨fle_iff.mpr ⟨by decide, isNaN_of_isZero ho, ?_⟩,
    flt_iff.mpr ⟨isNaN_of_isZero ho, (not_nan_inf_of_finite hfin).1, ?_⟩⟩
  · rw [orderKey_of_isZero ho]
    decide
  · rw [orderKey_of_isZero ho, orderKey_f32]
    exact_mod_cast hpos

theorem ffloor_of_isZero : ffloor d o = o := by
  have hfloor : units o % unitsPerOne = 0 := by rw [units_of_isZero ho, Nat.zero_mod]
  simp [ffloor, isNaN_of_isZero ho, (not_nan_inf_of_finite (isFinite_of_isZero ho)).2, hfloor]

theorem intOf_of_isZero : intOf o = 0 := by rw [intOf, units_of_isZero ho, Nat.zero_div]

end

theorem isZero_fsub {x y : F32} (hx : isZero x = true) (hy : isZero y = true) (d : Draw) :
    isZero (fsub d x y) = true := by
  rw [fsub_finite (isFinite_of_isZero hx) (isFinite_of_isZero hy), sUnits_of_isZero hx, sUnits_of_isZero hy,
    if_pos (sub_zero 0)]
  exact isZero_packF_zero _

/-- A zero added to a finite value leaves it as it is, but for the sign of a zero. -/
theorem feq_fadd_zero {x y : F32} (hx : isFinite x = true) (hy : isZero y = true) (d : Draw) :
    feq (fadd d x y) x = true := by
  cases h0 : isZero x with
  | true =>
    have hsum := isZero_fadd h0 hy d
    exact feq_iff.mpr ⟨isNaN_of_isZero hsum, isNaN_of_isZero h0,
      (orderKey_of_isZero hsum).trans (orderKey_of_isZero h0).symm⟩
  | false =>
    rw [fadd_isZero hx h0 hy]
    exact feq_self (not_nan_inf_of_finite hx).1

/-- The blend at offset zero is the newest sample plus a zero. -/
theorem delayBlend_of_isZero {f : Delay} {o : F32} {d : Draw} (ho : isZero o = true)
    (hx : isFinite (delaySample f 0) = true)
    (hdiff : isFinite (fsub d (delaySample f 1) (delaySample f 0)) = true) :
    feq (delayBlend d f o) (delaySample f 0) = true := by
  have hfrac : isZero (fsub d o (f32 0)) = true := isZero_fsub ho (by decide) d
  have hprod := isZero_fmul (isFinite_of_isZero hfrac) hdiff (.inl (units_of_isZero hfrac)) d
  simp only [delayBlend, ffloor_of_isZero ho, intOf_of_isZero ho]
  exact feq_fadd_zero hx hprod d

/-- Settles O49: the offset is a zero, in range; after the write the newest sample is the one written and the next one
the newest of before. -/
theorem delayReadsNewest : Obligations.DelayReadsNewest := by
  unfold Obligations.DelayReadsNewest
  intro f x time d hwf hcap hmax hw hscale htime hx hdiff
  have hnew : delaySample (delayWrite f x) 0 = x := Histories.delaySample_delayWrite hwf hw x (by omega)
  have hold : delaySample (delayWrite f x) 1 = delaySample f 0 := Histories.delaySample_delayWrite hwf hw x (by omega)
  have hoff : isZero (fmul d time (delayWrite f x).scale) = true :=
    isZero_fmul (isFinite_of_isZero htime) hscale (.inl (units_of_isZero htime)) d
  refine ⟨_, DelayBuffer.delayRead_of_inRange (delayInRange_of_isZero hoff hcap hmax), ?_⟩
  have hblend := delayBlend_of_isZero (f := delayWrite f x) (d := d) hoff (by rwa [hnew]) (by rwa [hnew, hold])
  rwa [hnew] at hblend

end Sys2Proof.Proofs.NewestSample
end
